-- ==== Sys2Proof/Word.lean ====
section
/-! DEFINITION. The word types of the mf-102 CORE (00_scope R8, 30_encoding R46, R47). -/

namespace Sys2Proof

/-- A 32-bit register value (`u32`, `i32`; R8). -/
abbrev Word32 := BitVec 32

/-- A binary64 value, as its bits (R8, R46). -/
abbrev F64 := BitVec 64

/-- A PCM sample or the truncated result as the integer it stands for (`iW`, R8, R47). -/
abbrev Sample := Int

end Sys2Proof
end

