-- ==== Sys2Proof/Config.lean ====
section
/-! DEFINITION. What an implementation fixes (the sample width) and the free values: constants with no body,
which no proof can evaluate. -/

namespace Sys2Proof

/-- The parameter the model takes as an argument (00_scope R7): the sample width `W`, `2 <= W <= 32`.
The code is `W - 2`, so every code is a legal width. No step changes it (log 1). -/
structure Config where
  widthCode : Fin 31
  deriving DecidableEq, Repr

/-- `W`, the width in bits of one sample (R7, R47). -/
def Config.sampleBits (c : Config) : Nat := c.widthCode.val + 2

/-- The rounding operations, as a tag for the free bits of a NaN result. -/
inductive FloatOp where
  | add | sub | mul | div | rem
  deriving DecidableEq, Repr

/-- FREE VALUE (log 3): what RESET leaves in `MIX_FRAC`, `AMOUNT_FRAC` and `LFO_INC`, which "become
unspecified" (41_run_control R71). Indexed by the counter `freeCount` of the state. -/
opaque Config.freeF64 : Nat → F64

/-- FREE VALUE (log 5): `SIN(a)` for `a` outside `[+0, TWO_PI)`, which "a model need not define" (40_numerics R63;
93_implementation_defined row 3: any value). -/
opaque Config.sinOutside : F64 → F64

/-- FREE VALUE (log 6): the sign and the 51 payload bits of a NaN result, which neither the spec nor IEEE 754 fixes;
no run reaches one (R70). -/
opaque Config.freeNan : FloatOp → F64 → F64 → BitVec 52

end Sys2Proof
end

