-- ==== Sys2Proof/Syntax.lean ====
section
/-! DEFINITION. The operations of the block: one constructor of `Instr` per row of spec/opcode_table.json, the register
names, and the words of the five formats of 30_encoding R44 that select an operation. -/

namespace Sys2Proof

/-- The registers by number (10_state R11); 11 to 15 are reserved (30_encoding R55). -/
inductive Reg where
  | control | status | errCause | sampleRate | sampleLength | mix | lfoWaveform
  | amount | rate | frequency | index
  | reserved (k : Fin 5)
  deriving DecidableEq, Repr

/-- The three registers of 64 bits; every other number, the reserved ones too, is 32 bits wide (R11, R49). -/
def Reg.wide : Reg → Bool
  | .amount | .rate | .frequency => true
  | _ => false

/-- A whole register value as an access moves it (20_memory R31, 30_encoding R49). -/
inductive RegData where
  | w32 (v : Word32)
  | w64 (v : F64)
  deriving DecidableEq, Repr

/-- What the host asks of the block, or the sequencer selects: a word in one of the five formats of R44.
The bits are those of the opcode table, most significant first. -/
inductive Request where
  /-- `SIG`: the level of the reset signal. -/
  | sig (reset : BitVec 1)
  /-- `REG`: `wr ++ num`, and the data that follows; a 32-bit register takes its low half (R49). -/
  | reg (sel : BitVec 5) (data : BitVec 64)
  /-- `CMD`: the value written to `CONTROL` (R48). -/
  | cmd (value : Word32)
  /-- `STREAM`: `in_valid ++ in_end`, with `in_data` and the level of `out_ready` presented beside them
  (20_memory R33 to R35). All four are levels: they stand until the next word of this format, or until the offer is
  taken (70_reset_and_hazards R135). -/
  | stream (sel : BitVec 2) (inData : BitVec 32) (outReady : Bool)
  /-- `UOP`: `slot ++ w` (R51). -/
  | uop (sel : BitVec 5)
  deriving DecidableEq, Repr

/-- The operations, in the order of the opcode table. -/
inductive Instr where
  | reset
  | wrreg (num : Reg) (data : BitVec 64)
  | rdreg (num : Reg)
  | nop
  | start
  | cmdRsvd2
  | cmdRsvd3
  | check
  | init
  /-- The operand is `in_data`; its low `W` bits are the sample (log 23). -/
  | stepTake (inData : BitVec 32)
  | stepEnd
  | lfoAdv
  | lfoSin
  | lfoSqr
  | exc
  | carInc
  | carAdv
  | carSin
  | inTake
  | dry
  | ring
  | wet
  | xfade
  | trunc
  | outPut
  | stopExh
  deriving DecidableEq, Repr

end Sys2Proof
end

