-- ==== Sys2Proof/WellFormed.lean ====
section
/-! DEFINITION. Which terms of `Instr` the formats can express. -/

namespace Sys2Proof

/-- WRREG "carries `data` of the width of register `num`" (30_encoding R49): a 32-bit register's data has no bit
above 31. The one check there is: every other operand is legal at every value of its type (R55). -/
def dataFits (num : Reg) (data : BitVec 64) : Bool :=
  num.wide || data.toNat < 2 ^ 32

/-- The instruction's operands are ones its encoding can hold. -/
def Instr.wellFormed : Instr → Bool
  | .wrreg num data => dataFits num data
  | .reset | .rdreg _ | .nop | .start | .cmdRsvd2 | .cmdRsvd3 | .check | .init | .stepTake _ | .stepEnd
  | .lfoAdv | .lfoSin | .lfoSqr | .exc | .carInc | .carAdv | .carSin | .inTake | .dry | .ring | .wet | .xfade
  | .trunc | .outPut | .stopExh => true

/-- CHECK and INIT have "no encoding of its own" (41_run_control R76, R77): they are phases of START, and no word
selects them. -/
def Instr.encodable : Instr → Bool
  | .check | .init => false
  | .reset | .wrreg _ _ | .rdreg _ | .nop | .start | .cmdRsvd2 | .cmdRsvd3 | .stepTake _ | .stepEnd
  | .lfoAdv | .lfoSin | .lfoSqr | .exc | .carInc | .carAdv | .carSin | .inTake | .dry | .ring | .wet | .xfade
  | .trunc | .outPut | .stopExh => true

end Sys2Proof
end

