-- ==== Sys2Proof/Decode.lean ====
section
/-! DEFINITION. Decoding: from a word of one of the five formats (30_encoding R44, R48, R49, R51) to an operation or a
named rejection; then the encoder, and the decoder as the host asks for it. -/

namespace Sys2Proof

/-- Why a word selects no operation. -/
inductive DecodeError where
  /-- `SIG` with the reset signal low: nothing is asked. -/
  | resetNotAsserted
  /-- `STREAM` 00: neither a sample nor the end is presented; the engine waits (45_step R98). -/
  | nothingOffered
  /-- `STREAM` 11: a sample and the end together; "a model gives no step for the combination" (20_memory R33). -/
  | offerAndEnd
  /-- `UOP` slots 14 and 15: "never reached" (30_encoding R51, R55). -/
  | reservedSlot
  deriving DecidableEq, Repr

/-- Register number to register (10_state R11). -/
def regOfNum (n : BitVec 4) : Reg :=
  match n.toNat with
  | 0 => .control
  | 1 => .status
  | 2 => .errCause
  | 3 => .sampleRate
  | 4 => .sampleLength
  | 5 => .mix
  | 6 => .lfoWaveform
  | 7 => .amount
  | 8 => .rate
  | 9 => .frequency
  | 10 => .index
  | k => .reserved (Fin.ofNat 5 (k - 11))

/-- Register to its number (R11). -/
def numOfReg : Reg → BitVec 4
  | .control => 0
  | .status => 1
  | .errCause => 2
  | .sampleRate => 3
  | .sampleLength => 4
  | .mix => 5
  | .lfoWaveform => 6
  | .amount => 7
  | .rate => 8
  | .frequency => 9
  | .index => 10
  | .reserved k => BitVec.ofNat 4 (11 + k.val)

/-- The data of an access at the width of its register (R49): a 32-bit register takes the low half. -/
def dataOfWidth (r : Reg) (data : BitVec 64) : BitVec 64 :=
  if r.wide then data else (data.setWidth 32).setWidth 64

/-- Format `REG`: bit 4 is `wr`, bits 3:0 are `num` (R49). -/
def decodeReg (sel : BitVec 5) (data : BitVec 64) : Instr :=
  let r := regOfNum (sel.extractLsb' 0 4)
  if sel.getLsbD 4 then .wrreg r (dataOfWidth r data) else .rdreg r

/-- Format `CMD`: bits 1:0 select, bits 31:2 are ignored (R48). -/
def decodeCmd (v : Word32) : Instr :=
  match (v.extractLsb' 0 2).toNat with
  | 0 => .nop
  | 1 => .start
  | 2 => .cmdRsvd2
  | _ => .cmdRsvd3

/-- Format `STREAM`: bit 1 is `in_valid`, bit 0 is `in_end` (R44, 20_memory R33). -/
def decodeStream (sel : BitVec 2) (inData : BitVec 32) : Except DecodeError Instr :=
  match sel.toNat with
  | 0 => .error .nothingOffered
  | 1 => .ok .stepEnd
  | 2 => .ok (.stepTake inData)
  | _ => .error .offerAndEnd

/-- Format `UOP`: `slot` selects, and `w` matters only in slot 1 (R51). -/
def decodeUop (slot : BitVec 4) (w : Bool) : Except DecodeError Instr :=
  match slot.toNat with
  | 0 => .ok .lfoAdv
  | 1 => .ok (if w then .lfoSqr else .lfoSin)
  | 2 => .ok .exc
  | 3 => .ok .carInc
  | 4 => .ok .carAdv
  | 5 => .ok .carSin
  | 6 => .ok .inTake
  | 7 => .ok .dry
  | 8 => .ok .ring
  | 9 => .ok .wet
  | 10 => .ok .xfade
  | 11 => .ok .trunc
  | 12 => .ok .outPut
  | 13 => .ok .stopExh
  | _ => .error .reservedSlot

/-- The operation a word selects (R44). -/
def decode : Request → Except DecodeError Instr
  | .sig r => if r = 1#1 then .ok .reset else .error .resetNotAsserted
  | .reg sel data => .ok (decodeReg sel data)
  | .cmd v => .ok (decodeCmd v)
  | .stream sel inData _ => decodeStream sel inData
  | .uop sel => decodeUop (sel.extractLsb' 1 4) (sel.getLsbD 0)

/-- The `UOP` word of a slot with the waveform bit `w` (R51). -/
def uopWord (slot : BitVec 4) (w : Bool) : Request :=
  .uop (slot ++ BitVec.ofBool w)

/-- The word that selects an operation, with every ignored bit 0 and `out_ready` high; none for CHECK and INIT, which
have no encoding of their own (R76, R77). -/
def encode : Instr → Option Request
  | .reset => some (.sig 1)
  | .wrreg r data => some (.reg (1#1 ++ numOfReg r) data)
  | .rdreg r => some (.reg (0#1 ++ numOfReg r) 0)
  | .nop => some (.cmd 0)
  | .start => some (.cmd 1)
  | .cmdRsvd2 => some (.cmd 2)
  | .cmdRsvd3 => some (.cmd 3)
  | .check => none
  | .init => none
  | .stepTake inData => some (.stream 0b10#2 inData true)
  | .stepEnd => some (.stream 0b01#2 0 true)
  | .lfoAdv => some (uopWord 0 false)
  | .lfoSin => some (uopWord 1 false)
  | .lfoSqr => some (uopWord 1 true)
  | .exc => some (uopWord 2 false)
  | .carInc => some (uopWord 3 false)
  | .carAdv => some (uopWord 4 false)
  | .carSin => some (uopWord 5 false)
  | .inTake => some (uopWord 6 false)
  | .dry => some (uopWord 7 false)
  | .ring => some (uopWord 8 false)
  | .wet => some (uopWord 9 false)
  | .xfade => some (uopWord 10 false)
  | .trunc => some (uopWord 11 false)
  | .outPut => some (uopWord 12 false)
  | .stopExh => some (uopWord 13 false)

/-- A word with the bits its format ignores set to 0 and `out_ready` high: two words with the same canonical form ask
for the same operation (R48, R49, R51). -/
def canonical : Request → Request
  | .sig r => .sig r
  | .reg sel data =>
    if sel.getLsbD 4 then .reg sel (dataOfWidth (regOfNum (sel.extractLsb' 0 4)) data) else .reg sel 0
  | .cmd v => .cmd ((v.extractLsb' 0 2).setWidth 32)
  | .stream sel inData _ => if sel = 0b10#2 then .stream sel inData true else .stream sel 0 true
  | .uop sel =>
    if sel.extractLsb' 1 4 = 1#4 then .uop sel else .uop (sel.extractLsb' 1 4 ++ 0#1)

/-- The word the host's numbering stands for (log 14). The table's five formats are told apart by the interface they
arrive on, not by bits: a word of four bytes is a `CMD` value; of the narrow formats, whose values overlap, 1 is read
as `SIG`, 2 as `STREAM`, 0, 16 and the values from 28 (slots 14 and 15 of `UOP`) as `REG`, and the rest as `UOP`. -/
def wordOfTable (nbits w : Nat) : Request :=
  if 8 < nbits then .cmd (BitVec.ofNat 32 w)
  else
    match w with
    | 0 => .reg 0 0
    | 1 => .sig 1
    | 2 => .stream 0b10#2 0 true
    | 16 => .reg 16 0
    | _ => if 28 ≤ w then .reg (BitVec.ofNat 5 w) 0 else .uop (BitVec.ofNat 5 w)

/-- What the decoder reads from an instruction whose bits are `w`, numbered as the opcode table numbers them. -/
def decodeTableWord (nbits w : Nat) : Option Instr :=
  match decode (wordOfTable nbits w) with
  | .ok i => some i
  | .error _ => none

end Sys2Proof
end

