-- ==== Sys2Proof/Machine/Float.lean ====
section
/-! DEFINITION. The numeric primitives (40_numerics R58 to R68). Every finite binary64 number is an integer multiple of
`2^-1074`, so a magnitude is a natural number in that unit and every operation is one exact integer computation and
one rounding. The operations are irreducible, so that a comparison of two states does not compute with them; `simp` and
`rw` still unfold them by name. -/

namespace Sys2Proof.Machine

/-- Bit 63 (30_encoding R46). -/
def signBit (a : F64) : Bool := decide (2 ^ 63 ≤ a.toNat)

/-- Bits 62:0 as a number: it orders magnitudes, with infinity above the finite ones and the NaNs above infinity. -/
def magBits (a : F64) : Nat := a.toNat % 2 ^ 63

/-- The magnitude bits of infinity: exponent 2047, fraction 0 (R46). -/
def infBits : Nat := 2047 * 2 ^ 52

/-- Exponent 2047 with a non-zero fraction (R46). -/
def isNaN (a : F64) : Bool := decide (infBits < magBits a)

/-- Exponent 2047 with fraction 0 (R46). -/
def isInf (a : F64) : Bool := decide (magBits a = infBits)

/-- Neither infinite nor NaN. -/
def isFinite (a : F64) : Bool := decide (magBits a < infBits)

/-- The magnitude, in units of `2^-1074`, of the finite number whose bits 62:0 are `m`: subnormal for exponent 0, else
`(2^52 + fraction) * 2^(exponent - 1)` (R46). -/
def unitsOfBits (m : Nat) : Nat :=
  if m / 2 ^ 52 = 0 then m else (2 ^ 52 + m % 2 ^ 52) * 2 ^ (m / 2 ^ 52 - 1)

/-- The magnitude of a finite number in units of `2^-1074`. -/
def units (a : F64) : Nat := unitsOfBits (magBits a)

/-- The value of a finite number in units of `2^-1074`. -/
def scaled (a : F64) : Int := if signBit a then -(units a : Int) else (units a : Int)

/-- The bits with sign `s` and magnitude bits `m`. -/
def packF64 (s : Bool) (m : Nat) : F64 := BitVec.ofNat 64 ((if s then 2 ^ 63 else 0) + m)

/-- `num / den`, in units of `2^-1074`, rounded to nearest with ties to even, as magnitude bits (R58). The quotient has
`k` bits too many for 53; subnormal results are kept; a magnitude too large gives infinity. -/
def roundBits (num den : Nat) : Nat :=
  let k := (num / den).log2 - 52
  let d := den * 2 ^ k
  let m := num / d
  let r := num % d
  let m' := if 2 * r < d then m else if d < 2 * r then m + 1 else m + m % 2
  min (k * 2 ^ 52 + m') infBits

/-- A NaN result: quiet, with a free sign and payload (log 6). -/
def nanResult (op : FloatOp) (a b : F64) : F64 :=
  let free := Config.freeNan op a b
  (free.extractLsb' 51 1 ++ 0xFFF#12 ++ free.extractLsb' 0 51).setWidth 64

/-- The constants of R68. -/
def f64Zero : F64 := 0x0000000000000000
def f64One : F64 := 0x3FF0000000000000
def f64Three : F64 := 0x4008000000000000
def f64Ten : F64 := 0x4024000000000000
def f64Hundred : F64 := 0x4059000000000000
/-- The lower bound of `rate`. -/
def f64Tenth : F64 := 0x3FB999999999999A
def f64TwentyFive : F64 := 0x4039000000000000
/-- The lower bound of `frequency`. -/
def f64SixTenths : F64 := 0x3FE3333333333333
def f64FourThousand : F64 := 0x40AF400000000000
def twoPi : F64 := 0x401921FB54442D18
/-- The largest binary64 number below the real `π` (R63). -/
def piF64 : F64 := 0x400921FB54442D18

/-- The binary64 sum, the operation named by `op` only for the bits of a NaN (R58). -/
def addCore (op : FloatOp) (a b : F64) : F64 :=
  if isNaN a || isNaN b then nanResult op a b
  else if isInf a then
    if isInf b && signBit a != signBit b then nanResult op a b else a
  else if isInf b then b
  else
    let z := scaled a + scaled b
    if z = 0 then packF64 (signBit a && signBit b) 0
    else packF64 (decide (z < 0)) (roundBits z.natAbs 1)

/-- `-a`. -/
def fneg (a : F64) : F64 := packF64 (!signBit a) (magBits a)

/-- `fadd(a, b)` (R58). -/
@[irreducible] def fadd (a b : F64) : F64 := addCore .add a b

/-- `fsub(a, b)` (R59). -/
@[irreducible] def fsub (a b : F64) : F64 := addCore .sub a (fneg b)

/-- `fmul(a, b)` (R60). -/
@[irreducible] def fmul (a b : F64) : F64 :=
  let s := signBit a != signBit b
  if isNaN a || isNaN b then nanResult .mul a b
  else if isInf a then
    if magBits b = 0 then nanResult .mul a b else packF64 s infBits
  else if isInf b then
    if magBits a = 0 then nanResult .mul a b else packF64 s infBits
  else packF64 s (roundBits (units a * units b) (2 ^ 1074))

/-- `fdiv(a, b)` (R61); the infinite and zero operands follow IEEE 754 (log 7). -/
@[irreducible] def fdiv (a b : F64) : F64 :=
  let s := signBit a != signBit b
  if isNaN a || isNaN b then nanResult .div a b
  else if isInf a then
    if isInf b then nanResult .div a b else packF64 s infBits
  else if isInf b then packF64 s 0
  else if magBits b = 0 then
    if magBits a = 0 then nanResult .div a b else packF64 s infBits
  else packF64 s (roundBits (units a * 2 ^ 1074) (units b))

/-- A number that orders every value but the NaNs, the two zeros being equal (R62). -/
def orderKey (a : F64) : Int := if signBit a then -(magBits a : Int) else (magBits a : Int)

/-- `FLE(a, b)` (R62). -/
def fle (a b : F64) : Bool := !isNaN a && !isNaN b && decide (orderKey a ≤ orderKey b)

/-- `FLT(a, b)` (R62). -/
def flt (a b : F64) : Bool := !isNaN a && !isNaN b && decide (orderKey a < orderKey b)

/-- `FGE(a, b) = FLE(b, a)` (R62). -/
def fge (a b : F64) : Bool := fle b a

/-- `GE0(a)` (R65). -/
def ge0 (a : F64) : Bool := fge a f64Zero

/-- `a - n·m` with `n` the integer part of `a/m`; exact, with the sign of `a` (R64). -/
@[irreducible] def fmod (a m : F64) : F64 :=
  if isNaN a || isNaN m || isInf a || decide (magBits m = 0) then nanResult .rem a m
  else if isInf m then a
  else packF64 (signBit a) (roundBits (units a % units m) 1)

/-- `WRAP(a)` (R64), line by line. -/
@[irreducible] def wrap (a : F64) : F64 :=
  let r := fmod a twoPi
  let r := if flt r f64Zero then fadd r twoPi else r
  let r := if fge r twoPi then f64Zero else r
  if magBits r = 0 then f64Zero else r

/-- `I2F(n)` (R66). -/
@[irreducible] def i2f (n : Int) : F64 := packF64 (decide (n < 0)) (roundBits (n.natAbs * 2 ^ 1074) 1)

/-- The integer part of a finite number, rounded toward zero (R67). -/
def truncToward0 (a : F64) : Int :=
  if signBit a then -((units a / 2 ^ 1074 : Nat) : Int) else ((units a / 2 ^ 1074 : Nat) : Int)

/-- The largest and the smallest `iW` (00_scope R8). -/
def maxSample (w : Nat) : Int := 2 ^ (w - 1) - 1
def minSample (w : Nat) : Int := -2 ^ (w - 1)

/-- `t` moved into the range of `iW` (R67). -/
def saturate (w : Nat) (t : Int) : Sample :=
  if maxSample w < t then maxSample w else if t < minSample w then minSample w else t

/-- `F2I(a)` (R67). -/
@[irreducible] def f2i (w : Nat) (a : F64) : Sample :=
  if isNaN a then 0
  else if isInf a then (if signBit a then minSample w else maxSample w)
  else saturate w (truncToward0 a)

/-- One step of Horner's rule for the Taylor polynomial of the sine, on a fraction `p/q`:
`1 - x²/((2k)(2k+1)) · p/q`, where `x² = sq / 2^2148`. -/
def sinHornerStep (sq k : Nat) (pq : Int × Nat) : Int × Nat :=
  let q' : Nat := pq.2 * ((2 * k) * (2 * k + 1) * 2 ^ 2148)
  ((q' : Int) - sq * pq.1, q')

/-- The steps `k, k-1, ..., 1`. -/
def sinHorner (sq : Nat) : Nat → Int × Nat → Int × Nat
  | 0, pq => pq
  | k + 1, pq => sinHorner sq k (sinHornerStep sq (k + 1) pq)

/-- How many terms follow the first: the polynomial has degree 121. -/
def sinTerms : Nat := 60

/-- `P(x)` with `sin x ≈ x · P(x)` for `x = n · 2^-1074`, as an exact fraction (log 4). -/
def sinFactor (n : Nat) : Int × Nat := sinHorner (n * n) sinTerms (1, 1)

/-- `a` is a phase: `+0 <= a < TWO_PI`, not `-0` (R63, R104). The bits of the non-negative numbers are ordered as their
values are. -/
def inPhase (a : F64) : Bool := decide (a.toNat < twoPi.toNat)

/-- `SIN(a)` (R63): the Taylor polynomial of degree 121, evaluated exactly and rounded once. On `[+0, TWO_PI)` it differs
from the real sine by less than `2^-350`, so the result is the nearest binary64 number unless the sine lies that close
to the middle of two (log 4). Outside the domain the value is free (log 5). -/
@[irreducible] def fsin (a : F64) : F64 :=
  if inPhase a then
    let pq := sinFactor (units a)
    packF64 (decide (pq.1 < 0)) (roundBits (units a * pq.1.natAbs) pq.2)
  else Config.sinOutside a

end Sys2Proof.Machine
end

