-- ==== Sys2Proof/Machine/State.lean ====
section
/-! DEFINITION. The state of one block instance (10_state R10), the streams and the host's side of the interface
(20_memory R30, R35), the values after reset (70_reset_and_hazards R124), and why a step can stop. -/

namespace Sys2Proof.Machine

/-- `STATUS.STATE` (10_state R13). -/
inductive RunState where
  | idle | running | done | error
  deriving DecidableEq, Repr

/-- What the input port presents (20_memory R33, R35): neither signal, `in_valid` with `in_data`, or `in_end`. Both
together cannot be expressed. -/
inductive Offer where
  | nothing
  | sample (inData : BitVec 32)
  | endOfInput
  deriving DecidableEq, Repr

/-- The quantities of one STEP, which "are not registers" and do "not survive it" (10_state R28), and the sequencer's
slot (30_encoding R51). They stand in the state so that a µop can run by itself; a STEP clears them (log 12). -/
structure Temps where
  /-- the slot that runs next -/
  slot  : BitVec 4
  lfo   : F64
  exc   : F64
  cinc  : F64
  car   : F64
  sf    : F64
  dry   : F64
  ring  : F64
  wet   : F64
  mixed : F64
  v     : Sample
  deriving DecidableEq, Repr

/-- No STEP in progress: slot 0, every quantity zero (log 12). -/
def Temps.idle : Temps :=
  { slot := 0, lfo := 0, exc := 0, cinc := 0, car := 0, sf := 0, dry := 0, ring := 0, wet := 0,
    mixed := 0, v := 0 }

/-- Everything the machine holds. -/
structure State where
  /-- the implementation's parameter `W`; no step writes it (R7) -/
  cfg : Config
  /-- `STATUS.STATE` (R13) -/
  runState : RunState
  /-- `STATUS.TRUNCATED` (R23) -/
  truncated : Bool
  /-- `ERR_CAUSE[5:0]`; bits 31:6 read as 0 (R21) -/
  errCause : BitVec 6
  /-- `SAMPLE_RATE` (R14) -/
  sampleRate : Word32
  /-- `SAMPLE_LENGTH` (R15) -/
  sampleLength : Word32
  /-- `MIX` (R16) -/
  mix : Word32
  /-- `LFO_WAVEFORM`, reserved bits as written (R17) -/
  lfoWaveform : Word32
  /-- `AMOUNT` (R18) -/
  amount : F64
  /-- `RATE` (R19) -/
  rate : F64
  /-- `FREQUENCY` (R20) -/
  frequency : F64
  /-- `INDEX` (R22) -/
  index : Word32
  /-- `LFO_PHASE`, hidden (R25) -/
  lfoPhase : F64
  /-- `CARRIER_PHASE`, hidden (R26) -/
  carrierPhase : F64
  /-- `MIX_FRAC`, hidden (R27) -/
  mixFrac : F64
  /-- `AMOUNT_FRAC`, hidden (R27) -/
  amountFrac : F64
  /-- `LFO_INC`, hidden (R27) -/
  lfoInc : F64
  /-- the output sequence OUT of the run, element 0 first (R30, R34) -/
  out : List Sample
  /-- the temporaries of the STEP in progress (R28) -/
  tmp : Temps
  /-- the levels of `in_valid`, `in_data` and `in_end`: the offer that stands on the input port (R33, R35, R135) -/
  inPort : Offer
  /-- the level of the port signal `out_ready` (R35) -/
  outReady : Bool
  /-- what the host asks next, oldest first (log 8) -/
  pending : List Request
  /-- the values RDREG has returned, oldest first (R73; log 15) -/
  reads : List RegData
  /-- every sample transferred on the output port, oldest first: RESET leaves it, "the output already transferred stays
  transferred" (R71; log 15) -/
  received : List Sample
  /-- indexes the free values (log 21) -/
  freeCount : Nat
  deriving DecidableEq, Repr

/-- The machine right after reset (R124). `MIX_FRAC`, `AMOUNT_FRAC` and `LFO_INC` are unspecified there; the model
names `+0` (DESIGN CHOICE, log 2). `W` is 16 (DESIGN CHOICE, log 1); the host has asked for nothing (log 8) and presents
nothing (log 18). -/
def State.reset : State :=
  { cfg := { widthCode := 14 }, runState := .idle, truncated := false, errCause := 0,
    sampleRate := 0, sampleLength := 0, mix := 0, lfoWaveform := 0, amount := 0, rate := 0, frequency := 0,
    index := 0, lfoPhase := 0, carrierPhase := 0, mixFrac := 0, amountFrac := 0, lfoInc := 0,
    out := [], tmp := Temps.idle, inPort := .nothing, outReady := false, pending := [], reads := [], received := [], freeCount := 0 }

/-- Why the machine stops. No operation of the opcode table raises one: 60_exceptions R122 says what never faults, and
`ConfigError` is a next state. -/
inductive Fault where
  /-- Raised by `step` on a `UOP` word of slot 14 or 15, which "never reached" (30_encoding R51, R55). Safe: the spec
  gives no effect. -/
  | reservedSlot
  deriving DecidableEq, Repr

/-- Why the model gives no step. -/
inductive Refusal where
  /-- Raised by `exec` for an instruction that has no meaning yet. Safe. -/
  | notModelled (mnemonic : String)
  /-- Raised by `step` on `in_valid = 1` with `in_end = 1`: "a model gives no step for the combination"
  (20_memory R33). Safe. -/
  | offerAndEnd
  deriving DecidableEq, Repr

end Sys2Proof.Machine
end

