-- ==== Sys2Proof/Machine/Operands.lean ====
section
/-! DEFINITION. Operand assembly: the integers that enter the datapath, and the normalised parameters
(30_encoding R47, R52, R53). -/

namespace Sys2Proof.Machine

/-- `LFO_WAVEFORM[0]`, the bit `w` of the µop selector (R50, R51). -/
def waveBit (s : State) : Bool := s.lfoWaveform.getLsbD 0

/-- The sample on `in_data`: the low `W` bits, two's complement (R47; log 23). -/
def sampleOf (w : Nat) (inData : BitVec 32) : Sample := (inData.setWidth w).toInt

/-- `I2F(sext_64(s))` of the sample on `in_data` (R53). -/
def sampleOperand (s : State) (inData : BitVec 32) : F64 := i2f (sampleOf s.cfg.sampleBits inData)

/-- `I2F(zext_64(SAMPLE_RATE))` (R53). -/
def rateOperand (s : State) : F64 := i2f s.sampleRate.toNat

/-- `I2F(sext_64(MIX))` (R52). -/
def mixOperand (s : State) : F64 := i2f s.mix.toInt

/-- `mix/100` (R52). -/
def mixFraction (s : State) : F64 := fdiv (mixOperand s) f64Hundred

/-- `amount/10` (R52). -/
def amountFraction (s : State) : F64 := fdiv s.amount f64Ten

/-- `2π · rate / sampleRate`, from the left (40_numerics R69, 41_run_control R77). -/
def lfoIncrement (s : State) : F64 := fdiv (fmul twoPi s.rate) (rateOperand s)

/-- `lfo · frequency · 3 · amountFraction`, from the left (43_carrier R83). -/
def excursion (lfo frequency amountFrac : F64) : F64 := fmul (fmul (fmul lfo frequency) f64Three) amountFrac

/-- `2π · (frequency + excursion) / sampleRate` (43_carrier R84). -/
def carrierIncrement (frequency exc rate : F64) : F64 := fdiv (fmul twoPi (fadd frequency exc)) rate

/-- `s · (1 − mixFraction)` (44_ringmod_mixer R89). -/
def dryProduct (sf mixFrac : F64) : F64 := fmul sf (fsub f64One mixFrac)

end Sys2Proof.Machine
end

