-- ==== Sys2Proof/Machine/Flags.lean ====
section
/-! DEFINITION. Flag-like state: the parameter check's six bits (10_state R21, 41_run_control R76), the `STATUS` word
(R13) and the output levels (60_exceptions R115). -/

namespace Sys2Proof.Machine

/-- `low <= a <= high` by `FLE` (R76). -/
def inRange (low a high : F64) : Bool := fle low a && fle a high

/-- `SR_ZERO`: `SAMPLE_RATE == 0` (R76). -/
def srZero (s : State) : Bool := s.sampleRate == 0

/-- `MIX_RANGE`: not `0 <= MIX <= 100`, `MIX` as `i32` (R76). -/
def mixOutOfRange (s : State) : Bool := !(decide (0 ≤ s.mix.toInt) && decide (s.mix.toInt ≤ 100))

/-- `AMOUNT_RANGE` (R76). -/
def amountOutOfRange (s : State) : Bool := !inRange f64Zero s.amount f64Ten

/-- `RATE_RANGE` (R76). -/
def rateOutOfRange (s : State) : Bool := !inRange f64Tenth s.rate f64TwentyFive

/-- `FREQ_RANGE` (R76). -/
def freqOutOfRange (s : State) : Bool := !inRange f64SixTenths s.frequency f64FourThousand

/-- `WAVE_RESERVED`: `LFO_WAVEFORM[31:1] != 0` (R76). -/
def waveReserved (s : State) : Bool := s.lfoWaveform.extractLsb' 1 31 != 0

/-- `CHECK()`: bit 5 first (R76). -/
def checkMask (s : State) : BitVec 6 :=
  BitVec.ofBool (waveReserved s) ++ BitVec.ofBool (freqOutOfRange s) ++ BitVec.ofBool (rateOutOfRange s)
    ++ BitVec.ofBool (amountOutOfRange s) ++ BitVec.ofBool (mixOutOfRange s) ++ BitVec.ofBool (srZero s)

/-- The codes of `STATUS.STATE` (R13). -/
def runStateCode : RunState → BitVec 2
  | .idle => 0b00
  | .running => 0b01
  | .done => 0b10
  | .error => 0b11

/-- `STATUS`: `STATE` in bits 1:0, `TRUNCATED` in bit 2, the rest 0 (R13). -/
def statusWord (s : State) : Word32 := (BitVec.ofBool s.truncated ++ runStateCode s.runState).setWidth 32

/-- The output `done` (R115). -/
def doneOut (s : State) : Bool := s.runState == .done

/-- The output `error` (R115). -/
def errorOut (s : State) : Bool := s.runState == .error

/-- The output `truncated` (R115). -/
def truncatedOut (s : State) : Bool := s.truncated

end Sys2Proof.Machine
end

