-- ==== Sys2Proof/Machine/Ops.lean ====
section
/-! DEFINITION. The shared operations: registers (10_state, 41_run_control), the two streams (20_memory), the fault entry
(60_exceptions R109), the parts of START (R75, R77), and the taking of a request. -/

namespace Sys2Proof.Machine

/-- `x[num]`, 0 for `CONTROL` and for the reserved numbers (R73, 30_encoding R55). -/
def readReg (r : Reg) (s : State) : RegData :=
  match r with
  | .control => .w32 0
  | .status => .w32 (statusWord s)
  | .errCause => .w32 (s.errCause.setWidth 32)
  | .sampleRate => .w32 s.sampleRate
  | .sampleLength => .w32 s.sampleLength
  | .mix => .w32 s.mix
  | .lfoWaveform => .w32 s.lfoWaveform
  | .amount => .w64 s.amount
  | .rate => .w64 s.rate
  | .frequency => .w64 s.frequency
  | .index => .w32 s.index
  | .reserved _ => .w32 0

/-- `x[num] <- data` for the parameter and size registers 3 to 9; the other numbers hold no storage the host can write
(R72). -/
def writeParam (r : Reg) (data : BitVec 64) (s : State) : State :=
  match r with
  | .sampleRate => { s with sampleRate := data.setWidth 32 }
  | .sampleLength => { s with sampleLength := data.setWidth 32 }
  | .mix => { s with mix := data.setWidth 32 }
  | .lfoWaveform => { s with lfoWaveform := data.setWidth 32 }
  | .amount => { s with amount := data }
  | .rate => { s with rate := data }
  | .frequency => { s with frequency := data }
  | .control | .status | .errCause | .index | .reserved _ => s

/-- Parameter registers are write-protected while RUNNING: the write "changes nothing and raises nothing" (20_memory
R42). -/
def hostWrite (r : Reg) (data : BitVec 64) (s : State) : State :=
  if s.runState = .running then s else writeParam r data s

/-- RDREG's answer goes to the host; "a read never changes any state" (R73; log 15). -/
def returnRead (d : RegData) (s : State) : State := { s with reads := s.reads ++ [d] }

/-- `raise ConfigError(mask)`, the block's one fault entry: `STATUS.STATE <- ERROR` "and nothing else" (R109). START
has written `INDEX`, `TRUNCATED` and `ERR_CAUSE = mask` before it. There is no handler and no return operation: the
host leaves ERROR by START or RESET (R113). -/
def raiseConfigError (s : State) : State := { s with runState := .error }

/-- The first lines of START: `INDEX <- 0`, `TRUNCATED <- 0`; the output sequence is empty at START (R75 (e), 45_step
R100; log 13). -/
def clearRun (s : State) : State := { s with index := 0, truncated := false, out := [] }

/-- `ERR_CAUSE <- CHECK()` (R75, R76). -/
def recordCheck (s : State) : State := { s with errCause := checkMask s }

/-- `INIT()` (R77). -/
def initRun (s : State) : State :=
  { s with mixFrac := mixFraction s, amountFrac := amountFraction s, lfoPhase := f64Zero, carrierPhase := f64Zero,
           lfoInc := lfoIncrement s }

/-- The last lines of an accepted START (R75). -/
def enterRun (s : State) : State :=
  { s with runState := if s.sampleLength = 0 then .done else .running }

/-- START (R75): ignored in RUNNING. -/
def startRun (s : State) : State :=
  if s.runState = .running then s
  else
    let c := recordCheck (clearRun s)
    if c.errCause ≠ 0 then raiseConfigError c else enterRun (initRun c)

/-- The command a write to `CONTROL` executes: 01 is START; NOP and the two reserved codes do nothing (10_state R12,
30_encoding R48). -/
def runCommand (c : BitVec 2) (s : State) : State := if c = 1#2 then startRun s else s

/-- RESET (R71, 70_reset_and_hazards R124): the three per-run constants "become unspecified" (free values, log 3); the
streams' history, the requests, the host's port signals and the parameter `W` are not the block's and stay. -/
def resetBlock (s : State) : State :=
  { State.reset with
    cfg := s.cfg, inPort := s.inPort, outReady := s.outReady, pending := s.pending, reads := s.reads, received := s.received,
    mixFrac := Config.freeF64 s.freeCount, amountFrac := Config.freeF64 (s.freeCount + 1),
    lfoInc := Config.freeF64 (s.freeCount + 2), freeCount := s.freeCount + 3 }

/-- `MemWrite(OUT, i, 1, v)`: append to the output sequence, a transfer to the host (20_memory R34). -/
def memWriteOut (v : Sample) (s : State) : State := { s with out := s.out ++ [v], received := s.received ++ [v] }

/-- STEP.TAKE is enabled: RUNNING and the host "can accept a result" (45_step R98). -/
def takeEnabled (s : State) : Bool := s.runState == .running && s.outReady

/-- STEP.END is enabled: RUNNING (R98). -/
def endEnabled (s : State) : Bool := s.runState == .running

/-- The output signal `in_ready`: the block takes the offer that stands on the input port (20_memory R35; log 29). -/
def inReady (s : State) : Bool :=
  match s.inPort with
  | .nothing => false
  | .sample _ => takeEnabled s
  | .endOfInput => endEnabled s

/-- The offer the levels `in_valid ++ in_end` and `in_data` make (R33); for 11 there is no step. -/
def offerOf (sel : BitVec 2) (inData : BitVec 32) : Offer :=
  match sel.toNat with
  | 1 => .endOfInput
  | 2 => .sample inData
  | _ => .nothing

/-- The machine when it has taken the request `r`: a STREAM word sets the levels of the host's port signals, and an offer
it makes stands until it is taken or the next STREAM word (70_reset_and_hazards R135; log 8). -/
def takeRequest (r : Request) (rest : List Request) (s : State) : State :=
  match r with
  | .stream sel d ready => { s with pending := rest, inPort := offerOf sel d, outReady := ready }
  | .sig _ | .reg _ _ | .cmd _ | .uop _ => { s with pending := rest }

/-- What a word that selects no operation does: with nothing asserted or offered "no state changes" (R98); a sample with
the end has no step (R33); slots 14 and 15 are never reached (R51). -/
def rejectRequest (e : DecodeError) (s : State) : Host.Outcome State Fault Refusal :=
  match e with
  | .resetNotAsserted | .nothingOffered => .next s
  | .offerAndEnd => .refused .offerAndEnd
  | .reservedSlot => .fault .reservedSlot

end Sys2Proof.Machine
end

