-- ==== Sys2Proof/Machine/RunControl.lean ====
section
/-! DEFINITION. The host operations and the parts of START (41_run_control R71 to R77). -/

namespace Sys2Proof.Machine

/-- RESET (R71), accepted in every state. -/
def execReset (s : State) : Host.Outcome State Fault Refusal := .next (resetBlock s)

/-- WRREG (R72): number 0 executes the command `data[1:0]`; 3 to 9 store unless RUNNING; the rest is dropped. -/
def execWrreg (num : Reg) (data : BitVec 64) (s : State) : Host.Outcome State Fault Refusal :=
  match num with
  | .control => .next (runCommand (data.extractLsb' 0 2) s)
  | r => .next (hostWrite r data s)

/-- RDREG (R73). -/
def execRdreg (num : Reg) (s : State) : Host.Outcome State Fault Refusal := .next (returnRead (readReg num s) s)

/-- NOP (R74). -/
def execNop (s : State) : Host.Outcome State Fault Refusal := .next (runCommand 0 s)

/-- START (R75). -/
def execStart (s : State) : Host.Outcome State Fault Refusal := .next (runCommand 1 s)

/-- The reserved command code 10, executed as NOP (R74, R55). -/
def execCmdRsvd2 (s : State) : Host.Outcome State Fault Refusal := .next (runCommand 2 s)

/-- The reserved command code 11, executed as NOP (R74, R55). -/
def execCmdRsvd3 (s : State) : Host.Outcome State Fault Refusal := .next (runCommand 3 s)

/-- CHECK (R76) by itself: the mask goes to `ERR_CAUSE`, its only flag (log 11). -/
def execCheck (s : State) : Host.Outcome State Fault Refusal := .next (recordCheck s)

/-- INIT (R77) by itself (log 11). -/
def execInit (s : State) : Host.Outcome State Fault Refusal := .next (initRun s)

end Sys2Proof.Machine
end

