-- ==== Sys2Proof/Machine/Carrier.lean ====
section
/-! DEFINITION. The carrier oscillator (43_carrier R83 to R86). -/

namespace Sys2Proof.Machine

/-- EXC, slot 2 (R83). -/
def excOp (s : State) : State :=
  { s with tmp := { s.tmp with exc := excursion s.tmp.lfo s.frequency s.amountFrac, slot := 3 } }

/-- CAR_INC, slot 3 (R84). -/
def carIncOp (s : State) : State :=
  { s with tmp := { s.tmp with cinc := carrierIncrement s.frequency s.tmp.exc (rateOperand s), slot := 4 } }

/-- CAR_ADV, slot 4 (R85). -/
def carAdvOp (s : State) : State :=
  { s with carrierPhase := wrap (fadd s.carrierPhase s.tmp.cinc), tmp := { s.tmp with slot := 5 } }

/-- CAR_SIN, slot 5 (R86). -/
def carSinOp (s : State) : State := { s with tmp := { s.tmp with car := fsin s.carrierPhase, slot := 6 } }

def execExc (s : State) : Host.Outcome State Fault Refusal := .next (excOp s)

def execCarInc (s : State) : Host.Outcome State Fault Refusal := .next (carIncOp s)

def execCarAdv (s : State) : Host.Outcome State Fault Refusal := .next (carAdvOp s)

def execCarSin (s : State) : Host.Outcome State Fault Refusal := .next (carSinOp s)

end Sys2Proof.Machine
end

