-- ==== Sys2Proof/Machine/Lfo.lean ====
section
/-! DEFINITION. The LFO oscillator (42_lfo R78 to R81). Each µop leaves the sequencer at the slot that follows it
(30_encoding R51). -/

namespace Sys2Proof.Machine

/-- LFO_ADV, slot 0 (R78). -/
def lfoAdvOp (s : State) : State :=
  { s with lfoPhase := wrap (fadd s.lfoPhase s.lfoInc), tmp := { s.tmp with slot := 1 } }

/-- LFO_SIN, slot 1 with `w = 0` (R79). -/
def lfoSinOp (s : State) : State := { s with tmp := { s.tmp with lfo := fsin s.lfoPhase, slot := 2 } }

/-- LFO_SQR, slot 1 with `w = 1` (R80): the levels are `1.0` and `+0`. -/
def lfoSqrOp (s : State) : State :=
  { s with tmp := { s.tmp with lfo := if ge0 (fsin s.lfoPhase) then f64One else f64Zero, slot := 2 } }

/-- The waveform selector: exactly one of the two runs (R81). -/
def lfoShapeOp (s : State) : State := if waveBit s then lfoSqrOp s else lfoSinOp s

def execLfoAdv (s : State) : Host.Outcome State Fault Refusal := .next (lfoAdvOp s)

def execLfoSin (s : State) : Host.Outcome State Fault Refusal := .next (lfoSinOp s)

def execLfoSqr (s : State) : Host.Outcome State Fault Refusal := .next (lfoSqrOp s)

end Sys2Proof.Machine
end

