-- ==== Sys2Proof/Machine/Mixer.lean ====
section
/-! DEFINITION. The ring modulator, the dry/wet mixer and the µops that touch the streams (44_ringmod_mixer R88 to
R95). -/

namespace Sys2Proof.Machine

/-- IN_TAKE, slot 6 (R88): `MemRead(IN, INDEX, 1)`, the input port's answer. A sample is consumed and slot 7 follows; the
end consumes nothing and slot 13 follows; with neither presented the engine waits (20_memory R33; log 25). -/
def inTakeOp (s : State) : State :=
  match s.inPort with
  | .sample d => { s with inPort := .nothing, tmp := { s.tmp with sf := sampleOperand s d, slot := 7 } }
  | .endOfInput => { s with tmp := { s.tmp with slot := 13 } }
  | .nothing => s

/-- DRY, slot 7 (R89). -/
def dryOp (s : State) : State :=
  { s with tmp := { s.tmp with dry := dryProduct s.tmp.sf s.mixFrac, slot := 8 } }

/-- RING, slot 8 (R90). -/
def ringOp (s : State) : State := { s with tmp := { s.tmp with ring := fmul s.tmp.sf s.tmp.car, slot := 9 } }

/-- WET, slot 9 (R91). -/
def wetOp (s : State) : State := { s with tmp := { s.tmp with wet := fmul s.tmp.ring s.mixFrac, slot := 10 } }

/-- XFADE, slot 10 (R92). -/
def xfadeOp (s : State) : State := { s with tmp := { s.tmp with mixed := fadd s.tmp.dry s.tmp.wet, slot := 11 } }

/-- TRUNC, slot 11 (R93). -/
def truncOp (s : State) : State :=
  { s with tmp := { s.tmp with v := f2i s.cfg.sampleBits s.tmp.mixed, slot := 12 } }

/-- `if i + 1 == SAMPLE_LENGTH then STATUS.STATE <- DONE` (R94). -/
def stateAfterPut (i length : Word32) (r : RunState) : RunState := if i + 1 = length then .done else r

/-- OUT_PUT, slot 12 (R94): the count is of the value before the step, and the run ends at `SAMPLE_LENGTH`
(90_conflicts C12). The STEP is over: the next one begins at slot 0. -/
def outPutOp (s : State) : State :=
  let i := s.index
  let t := memWriteOut s.tmp.v s
  { t with index := i + 1, runState := stateAfterPut i s.sampleLength s.runState,
           tmp := { s.tmp with slot := 0 } }

/-- STOP_EXH, slot 13 (R95). -/
def stopExhOp (s : State) : State :=
  { s with truncated := true, runState := .done, tmp := { s.tmp with slot := 0 } }

def execInTake (s : State) : Host.Outcome State Fault Refusal := .next (inTakeOp s)

def execDry (s : State) : Host.Outcome State Fault Refusal := .next (dryOp s)

def execRing (s : State) : Host.Outcome State Fault Refusal := .next (ringOp s)

def execWet (s : State) : Host.Outcome State Fault Refusal := .next (wetOp s)

def execXfade (s : State) : Host.Outcome State Fault Refusal := .next (xfadeOp s)

def execTrunc (s : State) : Host.Outcome State Fault Refusal := .next (truncOp s)

def execOutPut (s : State) : Host.Outcome State Fault Refusal := .next (outPutOp s)

def execStopExh (s : State) : Host.Outcome State Fault Refusal := .next (stopExhOp s)

end Sys2Proof.Machine
end

