-- ==== Sys2Proof/Machine/SampleStep.lean ====
section
/-! DEFINITION. The STEP, one indivisible transition composed of the µops in the document's order (45_step R97, R98). -/

namespace Sys2Proof.Machine

/-- A STEP begins at slot 0 with the offer `o` on the input port (R97; 30_encoding R51). -/
def beginStep (o : Offer) (s : State) : State := { s with inPort := o, tmp := Temps.idle }

/-- The quantities of a STEP do not survive it (10_state R28; log 12), and the offer it answered no longer stands: a sample
is consumed (20_memory R33), the end goes with the run it ended (log 28). -/
def endStep (s : State) : State := { s with inPort := .nothing, tmp := Temps.idle }

/-- Slots 0 to 5: the LFO and the carrier, the same in both branches (R97). -/
def oscillators (s : State) : State := carSinOp (carAdvOp (carIncOp (excOp (lfoShapeOp (lfoAdvOp s)))))

/-- Slots 7 to 11 (R97). -/
def mixer (s : State) : State := truncOp (xfadeOp (wetOp (ringOp (dryOp s))))

/-- Slots 0 to 11, for an offered sample: its result stands in the temporary `v` (R97). -/
def computeResult (inData : BitVec 32) (s : State) : State :=
  mixer (inTakeOp (oscillators (beginStep (.sample inData) s)))

/-- The output signals `out_valid` and `out_data` (20_memory R35): while RUNNING with a sample on the input port the block
offers that sample's result, whether or not the host can take it (70_reset_and_hazards R134; log 29). -/
def outData (s : State) : Option Sample :=
  match s.inPort with
  | .sample d => if s.runState = .running then some (computeResult d s).tmp.v else none
  | .nothing | .endOfInput => none

/-- The output signal `out_valid`: a result is offered on `out_data` (R35). -/
def outValid (s : State) : Bool := (outData s).isSome

/-- STEP.TAKE (R97), when enabled: slots 0 to 12. Otherwise the engine waits and no state changes, and the offer is not
consumed (R98). -/
def execStepTake (inData : BitVec 32) (s : State) : Host.Outcome State Fault Refusal :=
  if takeEnabled s then
    .next (endStep (outPutOp (computeResult inData s)))
  else .next s

/-- STEP.END (R97, R95), when enabled; otherwise the engine waits (R98). -/
def execStepEnd (s : State) : Host.Outcome State Fault Refusal :=
  if endEnabled s then
    .next (endStep (stopExhOp (inTakeOp (oscillators (beginStep .endOfInput s)))))
  else .next s

/-- The engine's own move, when the host asks nothing: the STEP that the standing offer selects, which waits unless it is
enabled (R98; 70_reset_and_hazards R135; log 8). -/
def engineStep (s : State) : Host.Outcome State Fault Refusal :=
  match s.inPort with
  | .nothing => .next s
  | .sample d => execStepTake d s
  | .endOfInput => execStepEnd s

end Sys2Proof.Machine
end

