-- ==== Sys2Proof/Machine/Dispatch.lean ====
section
/-! DEFINITION. One arm per operation of the opcode table. -/

namespace Sys2Proof.Machine

def exec (i : Instr) (s : State) : Host.Outcome State Fault Refusal :=
  match i with
  | .reset => Sys2Proof.Machine.execReset s
  | .wrreg num data => Sys2Proof.Machine.execWrreg num data s
  | .rdreg num => Sys2Proof.Machine.execRdreg num s
  | .nop => Sys2Proof.Machine.execNop s
  | .start => Sys2Proof.Machine.execStart s
  | .cmdRsvd2 => Sys2Proof.Machine.execCmdRsvd2 s
  | .cmdRsvd3 => Sys2Proof.Machine.execCmdRsvd3 s
  | .check => Sys2Proof.Machine.execCheck s
  | .init => Sys2Proof.Machine.execInit s
  | .stepTake inData => Sys2Proof.Machine.execStepTake inData s
  | .stepEnd => Sys2Proof.Machine.execStepEnd s
  | .lfoAdv => Sys2Proof.Machine.execLfoAdv s
  | .lfoSin => Sys2Proof.Machine.execLfoSin s
  | .lfoSqr => Sys2Proof.Machine.execLfoSqr s
  | .exc => Sys2Proof.Machine.execExc s
  | .carInc => Sys2Proof.Machine.execCarInc s
  | .carAdv => Sys2Proof.Machine.execCarAdv s
  | .carSin => Sys2Proof.Machine.execCarSin s
  | .inTake => Sys2Proof.Machine.execInTake s
  | .dry => Sys2Proof.Machine.execDry s
  | .ring => Sys2Proof.Machine.execRing s
  | .wet => Sys2Proof.Machine.execWet s
  | .xfade => Sys2Proof.Machine.execXfade s
  | .trunc => Sys2Proof.Machine.execTrunc s
  | .outPut => Sys2Proof.Machine.execOutPut s
  | .stopExh => Sys2Proof.Machine.execStopExh s

end Sys2Proof.Machine
end

