-- ==== Sys2Proof/Machine/Step.lean ====
section
/-! DEFINITION. One step of the machine: it takes the host's oldest request and executes the operation its word selects;
with no request the engine takes the offer that stands on the input port, or waits (45_step R98; log 8). -/

namespace Sys2Proof.Machine

/-- One step. -/
def step (s : State) : Host.Outcome State Fault Refusal :=
  match s.pending with
  | [] => engineStep s
  | r :: rest =>
    match decode r with
    | .ok i => exec i (takeRequest r rest s)
    | .error e => rejectRequest e (takeRequest r rest s)

/-- The word put where `step` takes the next one: at the head of the requests (log 8, log 14). -/
def State.withFetchWord (s : State) (nbits w : Nat) : State :=
  { s with pending := wordOfTable nbits w :: s.pending }

end Sys2Proof.Machine
end

