-- ==== Sys2Proof/Safety.lean ====
section
/-! DEFINITION. The terms claims are stated in: host-driven machines, runs, the invariants between steps, the sequencer's
own run of a STEP, and what "rounded to nearest" means. -/

namespace Sys2Proof.Machine

/-! ### Operations of the host -/

/-- A word the host can present: every format but `UOP`, whose words only the sequencer selects (30_encoding R51). -/
def isHostRequest : Request → Bool
  | .sig _ | .reg _ _ | .cmd _ | .stream _ _ _ => true
  | .uop _ => false

/-- The requests are all the host's: the machine as the hardware has it (log 10). -/
def hostDriven (s : State) : Bool := s.pending.all isHostRequest

/-- The operations of the formats `SIG`, `REG`, `CMD` and `STREAM` (30_encoding R44). -/
def isHostOp : Instr → Bool
  | .reset | .wrreg _ _ | .rdreg _ | .nop | .start | .cmdRsvd2 | .cmdRsvd3 | .stepTake _ | .stepEnd => true
  | .check | .init | .lfoAdv | .lfoSin | .lfoSqr | .exc | .carInc | .carAdv | .carSin | .inTake | .dry | .ring
  | .wet | .xfade | .trunc | .outPut | .stopExh => false

/-- The operation is START: the command, or a write of `CMD = 01` to `CONTROL` (10_state R12). -/
def isStart : Instr → Bool
  | .start => true
  | .wrreg .control data => data.extractLsb' 0 2 == 1#2
  | _ => false

/-- The seven parameter and size registers hold legal values: CHECK finds nothing (41_run_control R76). -/
def legalParams (s : State) : Prop := checkMask s = 0

/-- The state that follows `STATUS.STATE` under a START (45_step R99). -/
def afterStart (s : State) : RunState :=
  if s.runState = .running then .running
  else if checkMask s ≠ 0 then .error
  else if s.sampleLength = 0 then .done
  else .running

/-- The transition table of `STATUS.STATE` (45_step R99), for the operations of the host. -/
def runStateAfter (i : Instr) (s : State) : RunState :=
  if i = .reset then .idle
  else if isStart i then afterStart s
  else
    match i with
    | .stepTake _ =>
      if s.runState = .running ∧ s.outReady = true then
        (if s.index + 1 = s.sampleLength then .done else .running)
      else s.runState
    | .stepEnd => if s.runState = .running then .done else s.runState
    | _ => s.runState

/-! ### Runs -/

/-- The host offers the samples of a list one after the other (30_encoding R57). -/
def feedSamples : List (BitVec 32) → State → Host.Outcome State Fault Refusal
  | [], s => .next s
  | d :: ds, s =>
    match exec (.stepTake d) s with
    | .next t => feedSamples ds t
    | .fault f => .fault f
    | .refused r => .refused r

/-- The pseudo-operation `process` once the parameters are written (R57): START, the samples, then the end. What is
offered after the run has ended is not consumed (45_step R98). -/
def processInput (input : List (BitVec 32)) (s : State) : Host.Outcome State Fault Refusal :=
  match exec .start s with
  | .next t =>
    match feedSamples input t with
    | .next u => exec .stepEnd u
    | .fault f => .fault f
    | .refused r => .refused r
  | .fault f => .fault f
  | .refused r => .refused r

/-- The carrier phases of a run without excursion: `c_0`, `c_1`, ... with the constant increment `d` (45_step R103). -/
def constantCarrierPhase (d : F64) : Nat → F64
  | 0 => wrap (fadd f64Zero d)
  | i + 1 => wrap (fadd (constantCarrierPhase d i) d)

/-! ### Between steps -/

/-- The bookkeeping of a run (10_state R21 to R23, R28; 45_step R99, R100). -/
def RunBooks (s : State) : Prop :=
  (s.runState = .running → s.index.toNat < s.sampleLength.toNat) ∧
  s.out.length = s.index.toNat ∧
  (s.runState = .error ↔ s.errCause ≠ 0) ∧
  (s.truncated = true → s.runState = .done) ∧
  (∀ v ∈ s.out, minSample s.cfg.sampleBits ≤ v ∧ v ≤ maxSample s.cfg.sampleBits) ∧
  s.out <:+ s.received ∧
  s.tmp = Temps.idle

/-- Phase boundedness (45_step R104), with what keeps it: while RUNNING the parameters are the legal ones START found
(20_memory R42) and the per-run constants are those START computed (41_run_control R77). -/
def PhaseBounds (s : State) : Prop :=
  inPhase s.lfoPhase = true ∧ inPhase s.carrierPhase = true ∧
  (s.runState = .running → legalParams s ∧
    s.mixFrac = mixFraction s ∧ s.amountFrac = amountFraction s ∧ s.lfoInc = lfoIncrement s)

/-! ### The host's input discipline -/

/-- The host leaves no offer standing into a run (70_reset_and_hazards R135; 93_implementation_defined row 21): when the
oldest request is a START that is not ignored, nothing is presented on the input port. A host duty, assumed where a claim
names it and checked by nothing (log 28). -/
def keepsInputDiscipline (s : State) : Bool :=
  match s.pending with
  | [] => true
  | r :: _ =>
    match decode r with
    | .ok i => !isStart i || s.runState == .running || s.inPort == .nothing
    | .error _ => true

/-- No offer is left standing that a STEP of this run would take: what the engine takes in a run is then what the host
presents in that very step. -/
def NoStaleOffer (s : State) : Prop := s.runState = .running → inReady s = false

/-! ### The sequencer -/

/-- The sequencer runs the µop its slot and the waveform bit select (30_encoding R51). -/
def runSlot (s : State) : Host.Outcome State Fault Refusal :=
  match decode (uopWord s.tmp.slot (waveBit s)) with
  | .ok i => exec i s
  | .error e => rejectRequest e s

/-- So many µops in a row. -/
def runSlots : Nat → State → Host.Outcome State Fault Refusal
  | 0, s => .next s
  | k + 1, s =>
    match runSlot s with
    | .next t => runSlots k t
    | .fault f => .fault f
    | .refused r => .refused r

/-! ### Numbers -/

/-- `r` is the binary64 number nearest `num / den` (in units of `2^-1074`), with ties to even (40_numerics R58). -/
def IsNearest (r : F64) (num : Int) (den : Nat) : Prop :=
  isFinite r = true ∧
  (∀ y, isFinite y = true → |scaled r * den - num| ≤ |scaled y * den - num|) ∧
  (∀ y, isFinite y = true → scaled y ≠ scaled r → |scaled y * den - num| = |scaled r * den - num| →
    magBits r % 2 = 0)

/-- The magnitude, in units of `2^-1074`, from which rounding to nearest gives infinity: half a unit in the last place
above the largest finite number. -/
def overflowUnits : Int := (2 ^ 54 - 1) * 2 ^ 2044

end Sys2Proof.Machine
end

