-- ==== Sys2Proof/Certificates/Slice0/Obligations.lean ====
section
/-! DEFINITION. The statements for the provers, each in terms of the numbered rules of spec/. -/

open Sys2Proof Sys2Proof.Machine

/-! ### Encoding and the step -/

/-- R44, R48, R49, R51: a word decodes to an operation exactly when it is that operation's word up to the bits its
format ignores; CHECK and INIT have no word. -/
def Obligations.DecodeAndEncodeAgree : Prop :=
  (∀ (r : Request) (i : Instr), i.wellFormed = true → (decode r = .ok i ↔ encode i = some (canonical r))) ∧
  (∀ (r : Request) (i : Instr), decode r = .ok i → i.wellFormed = true ∧ i.encodable = true)

/-- R33, R51, R55, R98: the only words that select no operation. -/
def Obligations.OnlyNamedWordsAreRejected : Prop :=
  ∀ r : Request,
    (decode r = .error .resetNotAsserted ↔ r = .sig 0) ∧
    (decode r = .error .nothingOffered ↔ ∃ d b, r = .stream 0b00#2 d b) ∧
    (decode r = .error .offerAndEnd ↔ ∃ d b, r = .stream 0b11#2 d b) ∧
    (decode r = .error .reservedSlot ↔ ∃ slot w, r = uopWord slot w ∧ 14 ≤ slot.toNat)

/-- Words written out from the encoding tables of R44, R48, R49 and R51. -/
def Obligations.WordsOfTheTablesDecode : Prop :=
  decode (.sig 0b1#1) = .ok .reset ∧
  decode (.reg 0b10101#5 71) = .ok (.wrreg .mix 71) ∧
  decode (.reg 0b01010#5 0) = .ok (.rdreg .index) ∧
  decode (.cmd 0xFFFFFFFD#32) = .ok .start ∧
  decode (.cmd 0b10#32) = .ok .cmdRsvd2 ∧
  decode (.stream 0b10#2 1000 true) = .ok (.stepTake 1000) ∧
  decode (.stream 0b01#2 0 true) = .ok .stepEnd ∧
  decode (.uop 0b00010#5) = .ok .lfoSin ∧
  decode (.uop 0b00011#5) = .ok .lfoSqr ∧
  decode (.uop 0b11011#5) = .ok .stopExh

/-- A step takes the host's oldest request and executes the operation it decodes to; the only other change is that the
request is gone and that a STREAM word sets the levels of the host's port signals (the model's choice, log 8). -/
def Obligations.StepRunsTheDecodedOperation : Prop :=
  ∀ (s : State) (r : Request) (rest : List Request) (i : Instr), s.pending = r :: rest → decode r = .ok i →
    step s = exec i { s with pending := rest,
                             inPort := match r with
                               | .stream sel d _ => if sel = 0b10#2 then .sample d
                                                    else if sel = 0b01#2 then .endOfInput else .nothing
                               | _ => s.inPort
                             outReady := match r with | .stream _ _ ready => ready | _ => s.outReady }

/-- What a step does when no operation is asked: with no request and no standing offer the engine waits; a low reset signal
changes nothing but the request, an empty offer nothing but the levels of the port; a sample together with the end is
refused; slots 14 and 15 stop. The stops and the requests' order are the model's choice (logs 8 and 17). -/
def Obligations.StepWithoutAnOperation : Prop :=
  ∀ (s : State) (rest : List Request),
    (s.pending = [] → s.inPort = .nothing → step s = .next s) ∧
    (s.pending = .sig 0 :: rest → step s = .next { s with pending := rest }) ∧
    (∀ d ready, s.pending = .stream 0b00#2 d ready :: rest →
      step s = .next { s with pending := rest, inPort := .nothing, outReady := ready }) ∧
    (∀ d ready, s.pending = .stream 0b11#2 d ready :: rest → step s = .refused .offerAndEnd) ∧
    (∀ slot w, 14 ≤ slot.toNat → s.pending = uopWord slot w :: rest → step s = .fault .reservedSlot)

/-- R108, R122: a machine driven by the host, whose next word is not a sample together with the end, never stops; its step
consumes one request (the model's choice, log 8). -/
def Obligations.HostDrivenMachineNeverStops : Prop :=
  ∀ s : State, hostDriven s = true → (∀ d b rest, s.pending ≠ .stream 0b11#2 d b :: rest) →
    ∃ t, step s = .next t ∧ hostDriven t = true ∧ t.pending = s.pending.tail

/-! ### Reset -/

/-- R124: the values the spec gives after reset (the three it leaves unspecified are not named). -/
def Obligations.ResetStateHasTheGivenValues : Prop :=
  State.reset.runState = .idle ∧ State.reset.truncated = false ∧ statusWord State.reset = 0 ∧
  State.reset.errCause = 0 ∧ State.reset.index = 0 ∧ State.reset.sampleRate = 0 ∧ State.reset.sampleLength = 0 ∧
  State.reset.mix = 0 ∧ State.reset.lfoWaveform = 0 ∧ State.reset.amount = 0 ∧ State.reset.rate = 0 ∧
  State.reset.frequency = 0 ∧ State.reset.lfoPhase = 0 ∧ State.reset.carrierPhase = 0 ∧ State.reset.out = [] ∧
  doneOut State.reset = false ∧ errorOut State.reset = false ∧ truncatedOut State.reset = false

/-- R71: the signal asserted is RESET; it completes in every state, RUNNING included, and gives every register its reset
value; what the host has received, read and asked, and the sample width, stay. The three registers R71 leaves unspecified
may be anything, and so may the model's own fields. -/
def Obligations.ResetOperationClearsTheBlock : Prop :=
  decode (.sig 1) = .ok .reset ∧
  ∀ s : State, ∃ m a l k c, exec .reset s = .next
    { s with runState := .idle, truncated := false, errCause := 0, index := 0, sampleRate := 0, sampleLength := 0,
             mix := 0, lfoWaveform := 0, amount := 0, rate := 0, frequency := 0, lfoPhase := 0, carrierPhase := 0,
             out := [], mixFrac := m, amountFrac := a, lfoInc := l, tmp := k, freeCount := c }

/-! ### Register access -/

/-- R72: outside RUNNING a write to number 3 to 9 stores the data of the register's width; a write to a read-only or
reserved number, or to any number but `CONTROL` while RUNNING, changes nothing; a write to `CONTROL` executes the command
in bits 1:0, in every state. Nothing else changes. -/
def Obligations.RegisterWriteFollowsItsRule : Prop :=
  (∀ (num : Reg) (d : BitVec 64), decode (.reg (1#1 ++ numOfReg num) d) = .ok (.wrreg num (dataOfWidth num d))) ∧
  ∀ (s : State) (d : BitVec 64),
    (s.runState ≠ .running →
      exec (.wrreg .sampleRate d) s = .next { s with sampleRate := d.setWidth 32 } ∧
      exec (.wrreg .sampleLength d) s = .next { s with sampleLength := d.setWidth 32 } ∧
      exec (.wrreg .mix d) s = .next { s with mix := d.setWidth 32 } ∧
      exec (.wrreg .lfoWaveform d) s = .next { s with lfoWaveform := d.setWidth 32 } ∧
      exec (.wrreg .amount d) s = .next { s with amount := d } ∧
      exec (.wrreg .rate d) s = .next { s with rate := d } ∧
      exec (.wrreg .frequency d) s = .next { s with frequency := d }) ∧
    (∀ num : Reg, num ≠ .control →
      (num = .status ∨ num = .errCause ∨ num = .index ∨ (∃ k, num = .reserved k) ∨ s.runState = .running) →
      exec (.wrreg num d) s = .next s) ∧
    exec (.wrreg .control d) s = (if d.extractLsb' 0 2 = 1#2 then exec .start s else .next s)

/-- R73 (with R13, R21 and R55 for the bits): what a read returns, number by number, in every state; it changes no
register. -/
def Obligations.ReadReturnsTheRegister : Prop :=
  (∀ (num : Reg) (d : BitVec 64), decode (.reg (0#1 ++ numOfReg num) d) = .ok (.rdreg num)) ∧
  ∀ (s : State) (num : Reg), ∃ v, exec (.rdreg num) s = .next { s with reads := s.reads ++ [v] } ∧
    v = match num with
      | .control => .w32 0
      | .status => .w32 (0#29 ++ BitVec.ofBool s.truncated ++
          (match s.runState with | .idle => 0b00#2 | .running => 0b01#2 | .done => 0b10#2 | .error => 0b11#2))
      | .errCause => .w32 (0#26 ++ s.errCause)
      | .sampleRate => .w32 s.sampleRate
      | .sampleLength => .w32 s.sampleLength
      | .mix => .w32 s.mix
      | .lfoWaveform => .w32 s.lfoWaveform
      | .amount => .w64 s.amount
      | .rate => .w64 s.rate
      | .frequency => .w64 s.frequency
      | .index => .w32 s.index
      | .reserved _ => .w32 0

/-- R73 and R72 together: a parameter read back after a write outside RUNNING is the value written (of the register's
width). -/
def Obligations.WrittenParameterReadsBack : Prop :=
  ∀ (s t u : State) (num : Reg) (d : BitVec 64), s.runState ≠ .running → dataFits num d = true →
    num ∈ [Reg.sampleRate, .sampleLength, .mix, .lfoWaveform, .amount, .rate, .frequency] →
    exec (.wrreg num d) s = .next t → exec (.rdreg num) t = .next u →
    u.reads = s.reads ++ [if num.wide then .w64 d else .w32 (d.setWidth 32)]

/-- R74: NOP and the two reserved codes change nothing, in any state. -/
def Obligations.NopAndReservedCommandsChangeNothing : Prop :=
  (∀ v : Word32, (v.extractLsb' 0 2 = 0#2 → decode (.cmd v) = .ok .nop) ∧
    (v.extractLsb' 0 2 = 2#2 → decode (.cmd v) = .ok .cmdRsvd2) ∧
    (v.extractLsb' 0 2 = 3#2 → decode (.cmd v) = .ok .cmdRsvd3)) ∧
  ∀ s : State, exec .nop s = .next s ∧ exec .cmdRsvd2 s = .next s ∧ exec .cmdRsvd3 s = .next s

/-! ### START -/

/-- R75, with R109, R77 and R125. In RUNNING, START is ignored. A START whose check fails writes `INDEX`, `TRUNCATED`,
`ERR_CAUSE` and `STATE`, and no parameter and no hidden register (R75 says nothing of the output sequence there). An
accepted START computes the per-run constants, puts both phases at `+0`, empties the output, and runs unless the length
is 0. -/
def Obligations.StartFollowsItsRule : Prop :=
  (∀ v : Word32, v.extractLsb' 0 2 = 1#2 → decode (.cmd v) = .ok .start) ∧
  ∀ s : State,
    (s.runState = .running → exec .start s = .next s) ∧
    (s.runState ≠ .running → checkMask s ≠ 0 → ∃ o, exec .start s = .next
      { s with index := 0, truncated := false, errCause := checkMask s, runState := .error, out := o }) ∧
    (s.runState ≠ .running → checkMask s = 0 → exec .start s = .next
      { s with index := 0, truncated := false, errCause := 0, out := [],
               mixFrac := fdiv (i2f s.mix.toInt) 0x4059000000000000, amountFrac := fdiv s.amount 0x4024000000000000,
               lfoPhase := 0, carrierPhase := 0,
               lfoInc := fdiv (fmul 0x401921FB54442D18 s.rate) (i2f s.sampleRate.toNat),
               runState := if s.sampleLength = 0 then .done else .running })

/-- R76: each cause bit is set exactly when its value is out of range, the range read as exact numbers; NaN and the
infinities are out of every range. -/
def Obligations.CheckFindsValuesOutOfRange : Prop :=
  ∀ s : State,
    let within (low : F64) (a : F64) (high : F64) : Prop :=
      isFinite a = true ∧ scaled low ≤ scaled a ∧ scaled a ≤ scaled high
    ((checkMask s).getLsbD 0 = true ↔ s.sampleRate = 0) ∧
    ((checkMask s).getLsbD 1 = true ↔ ¬ (0 ≤ s.mix.toInt ∧ s.mix.toInt ≤ 100)) ∧
    ((checkMask s).getLsbD 2 = true ↔ ¬ within 0 s.amount 0x4024000000000000) ∧
    ((checkMask s).getLsbD 3 = true ↔ ¬ within 0x3FB999999999999A s.rate 0x4039000000000000) ∧
    ((checkMask s).getLsbD 4 = true ↔ ¬ within 0x3FE3333333333333 s.frequency 0x40AF400000000000) ∧
    ((checkMask s).getLsbD 5 = true ↔ 2 ≤ s.lfoWaveform.toNat)

/-- R76 and R77 as operations of their own, which is the model's choice (log 11): CHECK records the mask, INIT writes the
five hidden registers, and START is the one after the other. -/
def Obligations.StartIsCheckThenInit : Prop :=
  ∀ s : State, exec .check s = .next { s with errCause := checkMask s } ∧
    exec .init s = .next
      { s with mixFrac := fdiv (i2f s.mix.toInt) 0x4059000000000000, amountFrac := fdiv s.amount 0x4024000000000000,
               lfoPhase := 0, carrierPhase := 0,
               lfoInc := fdiv (fmul 0x401921FB54442D18 s.rate) (i2f s.sampleRate.toNat) } ∧
    (s.runState ≠ .running → checkMask s = 0 → ∃ t u, exec .check s = .next t ∧ exec .init t = .next u ∧
      exec .start s = .next { u with index := 0, truncated := false, out := [],
                                     runState := if s.sampleLength = 0 then .done else .running })

/-! ### The STEP -/

/-- R97: the STEP, with every µop in the document's order, when RUNNING; STEP.TAKE also needs that the host can accept a
result, and consumes the offer. Both branches write the two phases; the quantities of the STEP are held nowhere but in the
model's own field `tmp`, of which nothing is said here, nor of what the host presents after STEP.END (log 28). -/
def Obligations.StepFollowsItsRule : Prop :=
  ∀ (s : State) (d : BitVec 32), s.runState = .running →
    let pl := wrap (fadd s.lfoPhase s.lfoInc)
    let sl := fsin pl
    let lfo := if s.lfoWaveform.getLsbD 0 = false then sl else (if ge0 sl = true then 0x3FF0000000000000 else 0)
    let exc := fmul (fmul (fmul lfo s.frequency) 0x4008000000000000) s.amountFrac
    let cinc := fdiv (fmul 0x401921FB54442D18 (fadd s.frequency exc)) (i2f s.sampleRate.toNat)
    let pc := wrap (fadd s.carrierPhase cinc)
    let car := fsin pc
    let sf := i2f (d.setWidth s.cfg.sampleBits).toInt
    let dry := fmul sf (fsub 0x3FF0000000000000 s.mixFrac)
    let ring := fmul sf car
    let wet := fmul ring s.mixFrac
    let mixed := fadd dry wet
    let v := f2i s.cfg.sampleBits mixed
    (s.outReady = true → ∃ k, exec (.stepTake d) s = .next
      { s with lfoPhase := pl, carrierPhase := pc, out := s.out ++ [v], received := s.received ++ [v],
               index := s.index + 1, runState := if s.index + 1 = s.sampleLength then .done else .running,
               inPort := .nothing, tmp := k }) ∧
    (∃ p k, exec .stepEnd s = .next
      { s with lfoPhase := pl, carrierPhase := pc, truncated := true, runState := .done, inPort := p, tmp := k })

/-- R98: when a STEP is not enabled no state changes. -/
def Obligations.StepWaitsUnlessEnabled : Prop :=
  ∀ (s : State) (d : BitVec 32),
    (¬ (s.runState = .running ∧ s.outReady = true) → exec (.stepTake d) s = .next s) ∧
    (s.runState ≠ .running → exec .stepEnd s = .next s)

/-- R51, R97: a STEP is the sequencer's µops, run slot by slot from slot 0 with the offer on the input port: thirteen for
STEP.TAKE, eight for STEP.END; its temporaries do not survive it (R28), nor does the offer (for the end: log 28). -/
def Obligations.StepIsTheSequenceOfItsMicroOps : Prop :=
  ∀ (s : State) (d : BitVec 32),
    (s.runState = .running → s.outReady = true →
      ∃ t, runSlots 13 { s with inPort := .sample d, tmp := Temps.idle } = .next t ∧
        exec (.stepTake d) s = .next { t with inPort := .nothing, tmp := Temps.idle }) ∧
    (s.runState = .running →
      ∃ t, runSlots 8 { s with inPort := .endOfInput, tmp := Temps.idle } = .next t ∧
        exec .stepEnd s = .next { t with inPort := .nothing, tmp := Temps.idle })

/-! ### The ports -/

/-- R98, R135: an offer a STEP cannot take is not consumed and stands on the input port, whatever the host then asks short
of another STREAM word; when no request is left the engine takes it as STEP.TAKE or STEP.END. (The requests' order and
priority: log 8.) -/
def Obligations.OfferStandsUntilTaken : Prop :=
  (∀ (s : State) (rest : List Request) (d : BitVec 32) (ready : Bool),
    (s.pending = .stream 0b10#2 d ready :: rest → ¬ (s.runState = .running ∧ ready = true) →
      step s = .next { s with pending := rest, inPort := .sample d, outReady := ready }) ∧
    (s.pending = .stream 0b01#2 d ready :: rest → s.runState ≠ .running →
      step s = .next { s with pending := rest, inPort := .endOfInput, outReady := ready })) ∧
  (∀ (i : Instr) (s t : State), isHostOp i = true → (∀ d, i ≠ .stepTake d) → i ≠ .stepEnd → exec i s = .next t →
    t.inPort = s.inPort ∧ t.outReady = s.outReady) ∧
  (∀ (s : State) (d : BitVec 32), s.pending = [] →
    (s.inPort = .sample d → step s = exec (.stepTake d) s) ∧ (s.inPort = .endOfInput → step s = exec .stepEnd s))

/-- R135: an offer made before a run "is still pending when a later run starts": an accepted START leaves it on the port,
and the engine's next step by itself consumes it, as the run's first sample or as its end. (That the engine moves when no
request is left: log 8.) -/
def Obligations.StaleOfferIsPendingInTheNextRun : Prop :=
  ∀ (s : State), s.pending = [.cmd 1] → s.runState ≠ .running → checkMask s = 0 → s.sampleLength ≠ 0 →
    (∀ d, s.inPort = .sample d → s.outReady = true →
      ∃ t u v, step s = .next t ∧ t.runState = .running ∧ t.inPort = .sample d ∧
        step t = .next u ∧ u.out = [v] ∧ u.received = s.received ++ [v] ∧ u.index = 1 ∧ u.inPort = .nothing) ∧
    (s.inPort = .endOfInput →
      ∃ t u, step s = .next t ∧ t.runState = .running ∧ t.inPort = .endOfInput ∧
        step t = .next u ∧ u.runState = .done ∧ u.truncated = true ∧ u.out = [])

/-- R35, the port signals while a sample stands on the input port (their form: log 29). `out_valid` is high exactly in
RUNNING, `in_ready` exactly when the transfer happens (`out_valid` and `out_ready`); then STEP.TAKE transfers `out_data` to
the host, a sample of the width `W`, and consumes the offer, and otherwise it transfers nothing and the offer stands. With
the end, `in_ready` is high exactly in RUNNING; with the end or nothing presented, no result is offered. -/
def Obligations.PortSignalsSayWhatTransfers : Prop :=
  ∀ s : State,
    (∀ d, s.inPort = .sample d →
      (outValid s = true ↔ s.runState = .running) ∧
      inReady s = (outValid s && s.outReady) ∧
      (inReady s = true → ∃ v t, outData s = some v ∧ exec (.stepTake d) s = .next t ∧ t.inPort = .nothing ∧
        t.received = s.received ++ [v] ∧ t.out = s.out ++ [v] ∧
        minSample s.cfg.sampleBits ≤ v ∧ v ≤ maxSample s.cfg.sampleBits) ∧
      (inReady s = false → exec (.stepTake d) s = .next s)) ∧
    (s.inPort = .endOfInput → outValid s = false ∧ (inReady s = true ↔ s.runState = .running)) ∧
    (s.inPort = .nothing → outValid s = false ∧ inReady s = false)

/-! ### The µops -/

/-- R78 to R80, R83 to R86: each oscillator µop, selected by its slot, completes in every state, writes its own result, and
leaves the rest but for the sequencer's slot. -/
def Obligations.OscillatorMicroOpsWriteTheirResult : Prop :=
  (∀ w, decode (uopWord 0 w) = .ok .lfoAdv ∧ decode (uopWord 1 w) = .ok (if w = true then .lfoSqr else .lfoSin) ∧
    decode (uopWord 2 w) = .ok .exc ∧ decode (uopWord 3 w) = .ok .carInc ∧ decode (uopWord 4 w) = .ok .carAdv ∧
    decode (uopWord 5 w) = .ok .carSin) ∧
  ∀ s : State, ∃ k0 k1 k2 k3 k4 k5 k6,
    exec .lfoAdv s = .next { s with lfoPhase := wrap (fadd s.lfoPhase s.lfoInc), tmp := { s.tmp with slot := k0 } } ∧
    exec .lfoSin s = .next { s with tmp := { s.tmp with lfo := fsin s.lfoPhase, slot := k1 } } ∧
    exec .lfoSqr s = .next { s with tmp := { s.tmp with
      lfo := if ge0 (fsin s.lfoPhase) = true then 0x3FF0000000000000 else 0, slot := k2 } } ∧
    exec .exc s = .next { s with tmp := { s.tmp with
      exc := fmul (fmul (fmul s.tmp.lfo s.frequency) 0x4008000000000000) s.amountFrac, slot := k3 } } ∧
    exec .carInc s = .next { s with tmp := { s.tmp with
      cinc := fdiv (fmul 0x401921FB54442D18 (fadd s.frequency s.tmp.exc)) (i2f s.sampleRate.toNat), slot := k4 } } ∧
    exec .carAdv s = .next { s with carrierPhase := wrap (fadd s.carrierPhase s.tmp.cinc),
                                    tmp := { s.tmp with slot := k5 } } ∧
    exec .carSin s = .next { s with tmp := { s.tmp with car := fsin s.carrierPhase, slot := k6 } }

/-- R88: IN_TAKE takes an offered sample, consuming it, and goes on at slot 7; at the end of the input it goes on at slot
13. Offered neither, it waits: that clause is the model's choice for a µop requested alone (log 25). -/
def Obligations.InTakeConsumesAnOfferedSample : Prop :=
  ∀ (s : State) (d : BitVec 32),
    (s.inPort = .sample d → exec .inTake s = .next { s with inPort := .nothing, tmp := { s.tmp with
      sf := i2f (d.setWidth s.cfg.sampleBits).toInt, slot := 7 } }) ∧
    (s.inPort = .endOfInput → exec .inTake s = .next { s with tmp := { s.tmp with slot := 13 } }) ∧
    (s.inPort = .nothing → exec .inTake s = .next s)

/-- R89 to R93: each mixer µop, selected by its slot, completes in every state, writes its own result, and leaves the rest
but for the sequencer's slot. -/
def Obligations.MixerMicroOpsWriteTheirResult : Prop :=
  (∀ w, decode (uopWord 7 w) = .ok .dry ∧ decode (uopWord 8 w) = .ok .ring ∧ decode (uopWord 9 w) = .ok .wet ∧
    decode (uopWord 10 w) = .ok .xfade ∧ decode (uopWord 11 w) = .ok .trunc) ∧
  ∀ s : State, ∃ k0 k1 k2 k3 k4,
    exec .dry s = .next { s with tmp := { s.tmp with
      dry := fmul s.tmp.sf (fsub 0x3FF0000000000000 s.mixFrac), slot := k0 } } ∧
    exec .ring s = .next { s with tmp := { s.tmp with ring := fmul s.tmp.sf s.tmp.car, slot := k1 } } ∧
    exec .wet s = .next { s with tmp := { s.tmp with wet := fmul s.tmp.ring s.mixFrac, slot := k2 } } ∧
    exec .xfade s = .next { s with tmp := { s.tmp with mixed := fadd s.tmp.dry s.tmp.wet, slot := k3 } } ∧
    exec .trunc s = .next { s with tmp := { s.tmp with v := f2i s.cfg.sampleBits s.tmp.mixed, slot := k4 } }

/-- R94: OUT_PUT appends the result, counts it, and ends the run with the `SAMPLE_LENGTH`-th sample. -/
def Obligations.OutPutAppendsAndCounts : Prop :=
  (∀ w, decode (uopWord 12 w) = .ok .outPut) ∧
  ∀ s : State, ∃ k, exec .outPut s = .next
    { s with out := s.out ++ [s.tmp.v], received := s.received ++ [s.tmp.v], index := s.index + 1,
             runState := if s.index + 1 = s.sampleLength then .done else s.runState, tmp := { s.tmp with slot := k } }

/-- R95: STOP_EXH sets `TRUNCATED` and DONE and nothing else. -/
def Obligations.StopExhEndsTheRun : Prop :=
  (∀ w, decode (uopWord 13 w) = .ok .stopExh) ∧
  ∀ s : State, ∃ k, exec .stopExh s = .next
    { s with truncated := true, runState := .done, tmp := { s.tmp with slot := k } }

/-- R80 (c): on a phase, LFO_SQR's level is `1.0` exactly up to `PI_F64`. -/
def Obligations.SquareLevelSwitchesAtPi : Prop :=
  ∀ s : State, inPhase s.lfoPhase = true → ∃ k, exec .lfoSqr s = .next
    { s with tmp := { s.tmp with
      lfo := if s.lfoPhase.toNat ≤ 0x400921FB54442D18 then 0x3FF0000000000000 else 0, slot := k } }

/-! ### Numbers -/

/-- R58, R59: a sum and a difference of finite numbers, short of overflow, are the nearest binary64 number; an exact zero
is `+0` unless both terms are `-0`. -/
def Obligations.SumAndDifferenceAreNearest : Prop :=
  ∀ a b : F64, isFinite a = true → isFinite b = true →
    (|scaled a + scaled b| < overflowUnits → IsNearest (fadd a b) (scaled a + scaled b) 1) ∧
    (|scaled a - scaled b| < overflowUnits → IsNearest (fsub a b) (scaled a - scaled b) 1) ∧
    (scaled a + scaled b = 0 → fadd a b = if signBit a && signBit b then 0x8000000000000000 else 0)

/-- R60: a product of finite numbers, short of overflow, is the nearest binary64 number, and its sign, a zero's too, is
the exclusive-or of the signs. -/
def Obligations.ProductIsNearest : Prop :=
  ∀ a b : F64, isFinite a = true → isFinite b = true →
    (|scaled a * scaled b| < overflowUnits * 2 ^ 1074 → IsNearest (fmul a b) (scaled a * scaled b) (2 ^ 1074)) ∧
    signBit (fmul a b) = (signBit a != signBit b)

/-- R61: a quotient of finite numbers by a number that is not zero, short of overflow, is the nearest binary64 number. -/
def Obligations.QuotientIsNearest : Prop :=
  ∀ a b : F64, isFinite a = true → isFinite b = true → scaled b ≠ 0 →
    |scaled a| * 2 ^ 1074 < overflowUnits * |scaled b| →
    IsNearest (fdiv a b) (scaled a * 2 ^ 1074 * (scaled b).sign) (scaled b).natAbs

/-- R62, R65: on finite numbers the comparisons are those of the exact values, the two zeros being equal; with a NaN they
are false. -/
def Obligations.ComparisonsFollowTheValues : Prop :=
  ∀ a b : F64,
    (isFinite a = true → isFinite b = true →
      (fle a b = true ↔ scaled a ≤ scaled b) ∧ (flt a b = true ↔ scaled a < scaled b) ∧
      (ge0 a = true ↔ 0 ≤ scaled a)) ∧
    (isNaN a = true ∨ isNaN b = true → fle a b = false ∧ flt a b = false) ∧
    (isNaN a = true → ge0 a = false)

/-- R66: `I2F` is exact on every 32-bit integer, signed or unsigned, and `I2F(0) = +0`. -/
def Obligations.IntegersConvertExactly : Prop :=
  (∀ n : Int, -2 ^ 31 ≤ n → n ≤ 2 ^ 32 - 1 → isFinite (i2f n) = true ∧ scaled (i2f n) = n * 2 ^ 1074) ∧ i2f 0 = 0

/-- R67: `F2I` rounds toward zero, saturates, and gives 0 for a NaN. -/
def Obligations.ConversionTruncatesTowardZero : Prop :=
  ∀ (w : Nat) (a : F64), 2 ≤ w →
    (isNaN a = true → f2i w a = 0) ∧
    (isFinite a = true →
      let t := Int.tdiv (scaled a) (2 ^ 1074)
      f2i w a = if 2 ^ (w - 1) - 1 < t then 2 ^ (w - 1) - 1 else if t < -2 ^ (w - 1) then -2 ^ (w - 1) else t) ∧
    -2 ^ (w - 1) ≤ f2i w a ∧ f2i w a ≤ 2 ^ (w - 1) - 1

/-- R64: `WRAP` of a finite number is a phase: `+0 <= r < TWO_PI`, never `-0` (as bits, below those of `TWO_PI`). For a
number that is not negative it is the exact remainder; for a negative one with remainder `-m`, `m` not 0, it is the number
nearest `TWO_PI - m`, or `+0` where that is `TWO_PI`. -/
def Obligations.WrapReducesToOneTurn : Prop :=
  ∀ a : F64, isFinite a = true →
    (wrap a).toNat < twoPi.toNat ∧
    (0 ≤ scaled a → scaled (wrap a) = scaled a % scaled twoPi) ∧
    (scaled a < 0 →
      let m := (-scaled a) % scaled twoPi
      (m = 0 → wrap a = 0) ∧
      (m ≠ 0 → IsNearest (wrap a) (scaled twoPi - m) 1 ∨ (IsNearest twoPi (scaled twoPi - m) 1 ∧ wrap a = 0)))

/-- R68: the constants are the binary64 numbers nearest the document's literals; `TWO_PI` is below the real `2π` by less
than half a unit in its last place, and `PI_F64` and its successor enclose `π`. -/
def Obligations.ConstantsAreNearestTheirLiterals : Prop :=
  IsNearest f64Hundred (100 * 2 ^ 1074) 1 ∧ IsNearest f64Ten (10 * 2 ^ 1074) 1 ∧ IsNearest f64Three (3 * 2 ^ 1074) 1 ∧
  IsNearest f64One (2 ^ 1074) 1 ∧ IsNearest f64TwentyFive (25 * 2 ^ 1074) 1 ∧
  IsNearest f64FourThousand (4000 * 2 ^ 1074) 1 ∧ IsNearest f64Tenth (2 ^ 1074) 10 ∧
  IsNearest f64SixTenths (6 * 2 ^ 1074) 10 ∧
  (scaled twoPi : ℝ) / 2 ^ 1074 < 2 * Real.pi ∧ 2 * Real.pi - (scaled twoPi : ℝ) / 2 ^ 1074 < 1 / 2 ^ 51 ∧
  (scaled piF64 : ℝ) / 2 ^ 1074 < Real.pi ∧ Real.pi < (scaled (piF64 + 1) : ℝ) / 2 ^ 1074 ∧
  scaled twoPi = 2 * scaled piF64 ∧ f64Zero = 0

/-- R63, S-CR as far as the model's evaluation goes (log 4): on its domain `SIN` is at least as near the real sine as every
other finite number, up to a `2^-310`th part of the operand. -/
def Obligations.SineIsNearestTheRealSine : Prop :=
  ∀ a y : F64, inPhase a = true → isFinite y = true →
    isFinite (fsin a) = true ∧
    |(scaled (fsin a) : ℝ) / 2 ^ 1074 - Real.sin ((scaled a : ℝ) / 2 ^ 1074)|
      ≤ |(scaled y : ℝ) / 2 ^ 1074 - Real.sin ((scaled a : ℝ) / 2 ^ 1074)|
        + (scaled a : ℝ) / 2 ^ 1074 / 2 ^ 310

/-- R63, S-ZERO, S-RANGE and S-SIGN. -/
def Obligations.SineHasItsRangeAndSign : Prop :=
  fsin 0 = 0 ∧
  ∀ a : F64, inPhase a = true →
    isNaN (fsin a) = false ∧ |scaled (fsin a)| ≤ 2 ^ 1074 ∧
    (0 < a.toNat → a.toNat ≤ piF64.toNat → 0 < scaled (fsin a)) ∧
    (piF64.toNat < a.toNat → scaled (fsin a) < 0)

/-! ### Properties of the oscillators and the mixer -/

/-- R87 (d) with 90_conflicts C4: with Square and legal parameters, the instantaneous frequency of a STEP is one of two
numbers. -/
def Obligations.SquareGivesTwoCarrierFrequencies : Prop :=
  ∀ s t u : State, legalParams s → s.amountFrac = amountFraction s →
    exec .lfoSqr s = .next t → exec .exc t = .next u →
    fadd u.frequency u.tmp.exc = s.frequency ∨
    fadd u.frequency u.tmp.exc =
      fadd s.frequency (fmul (fmul s.frequency 0x4008000000000000) s.amountFrac)

/-- R96 (c), (d): in a run, a sample's result is never larger in magnitude than the sample; so 0 gives 0. -/
def Obligations.ResultIsNoLargerThanTheSample : Prop :=
  ∀ (s t : State) (d : BitVec 32), PhaseBounds s → s.runState = .running → s.outReady = true →
    exec (.stepTake d) s = .next t →
    ∃ v, t.out = s.out ++ [v] ∧ |v| ≤ |(d.setWidth s.cfg.sampleBits).toInt|

/-- R103, first sentence: with `MIX = 100` a STEP's result is the truncated product of the sample and the carrier. -/
def Obligations.FullWetIsSampleTimesCarrier : Prop :=
  ∀ (s t : State) (d : BitVec 32), s.mix = 100 → s.mixFrac = mixFraction s → s.runState = .running →
    s.outReady = true → exec (.stepTake d) s = .next t →
    t.out = s.out ++ [f2i s.cfg.sampleBits (fmul (i2f (d.setWidth s.cfg.sampleBits).toInt) (fsin t.carrierPhase))]

/-! ### Laws of a run -/

/-- R101: the length law, for a run whose START is accepted. -/
def Obligations.RunLengthIsTheSmaller : Prop :=
  ∀ (s : State) (input : List (BitVec 32)), s.runState ≠ .running → checkMask s = 0 → s.outReady = true →
    ∃ t, processInput input s = .next t ∧ t.runState = .done ∧
      t.out.length = min s.sampleLength.toNat input.length ∧
      t.index.toNat = min s.sampleLength.toNat input.length ∧
      (t.truncated = true ↔ input.length < s.sampleLength.toNat)

/-- R102: with `MIX = 0` the output is the input, up to the run's length. -/
def Obligations.DryRunPassesTheInputThrough : Prop :=
  ∀ (s : State) (input : List (BitVec 32)), s.runState ≠ .running → checkMask s = 0 → s.outReady = true → s.mix = 0 →
    ∃ t, processInput input s = .next t ∧
      t.out = (input.take s.sampleLength.toNat).map (fun d => (d.setWidth s.cfg.sampleBits).toInt)

/-- R103, second sentence: with `MIX = 100` and `AMOUNT` a zero, the carrier runs with a constant increment. -/
def Obligations.FullWetRunWithoutExcursion : Prop :=
  ∀ (s : State) (input : List (BitVec 32)), s.runState ≠ .running → checkMask s = 0 → s.outReady = true →
    s.mix = 100 → scaled s.amount = 0 →
    let inc := fdiv (fmul 0x401921FB54442D18 s.frequency) (i2f s.sampleRate.toNat)
    ∃ t, processInput input s = .next t ∧
      t.out = (input.take s.sampleLength.toNat).mapIdx (fun i d =>
        f2i s.cfg.sampleBits
          (fmul (i2f (d.setWidth s.cfg.sampleBits).toInt) (fsin (constantCarrierPhase inc i))))

/-- R105: with `AMOUNT` a zero, two runs that differ only in the waveform bit have the same output and the same carrier
phase after every STEP: after the samples offered so far, and after the end of the run. -/
def Obligations.ZeroAmountIgnoresTheWaveform : Prop :=
  ∀ (s : State) (input : List (BitVec 32)), s.runState ≠ .running → s.outReady = true → scaled s.amount = 0 →
    checkMask s = 0 →
    ∃ t0 u0 t1 u1 t u,
      exec .start { s with lfoWaveform := 0 } = .next t0 ∧ exec .start { s with lfoWaveform := 1 } = .next u0 ∧
      feedSamples input t0 = .next t1 ∧ feedSamples input u0 = .next u1 ∧
      t1.out = u1.out ∧ t1.carrierPhase = u1.carrierPhase ∧ t1.index = u1.index ∧ t1.runState = u1.runState ∧
      exec .stepEnd t1 = .next t ∧ exec .stepEnd u1 = .next u ∧
      t.out = u.out ∧ t.carrierPhase = u.carrierPhase ∧ t.index = u.index ∧ statusWord t = statusWord u ∧
      t.errCause = u.errCause

/-- R106: what a run gives is a function of the seven registers at START, of `W` and of the input: two states that agree
in those, and differ anyhow else, give the same output, `INDEX`, `STATUS` and `ERR_CAUSE`. One schedule is compared, that
of `process` (R57). Where the START is refused, the outputs are equal because both are empty (R100; log 13). -/
def Obligations.RunIsDetermined : Prop :=
  ∀ (s u : State) (input : List (BitVec 32)), s.runState ≠ .running → u.runState ≠ .running →
    s.outReady = true → u.outReady = true → s.cfg = u.cfg →
    s.sampleRate = u.sampleRate → s.sampleLength = u.sampleLength → s.mix = u.mix → s.lfoWaveform = u.lfoWaveform →
    s.amount = u.amount → s.rate = u.rate → s.frequency = u.frequency →
    ∃ s' u', processInput input s = .next s' ∧ processInput input u = .next u' ∧
      s'.out = u'.out ∧ s'.index = u'.index ∧ statusWord s' = statusWord u' ∧ s'.errCause = u'.errCause

/-! ### Invariants and whole-machine rules -/

/-- Every step of a host-driven machine keeps the bookkeeping of a run. -/
def Obligations.EveryStepKeepsTheRunBooks : Prop :=
  ∀ s t : State, hostDriven s = true → RunBooks s → step s = .next t → RunBooks t

/-- R104: every step of a host-driven machine keeps both phases in `[+0, TWO_PI)`. -/
def Obligations.EveryStepKeepsThePhasesBounded : Prop :=
  ∀ s t : State, hostDriven s = true → PhaseBounds s → step s = .next t → PhaseBounds t

/-- R135, 93_implementation_defined row 21: when the host keeps its input discipline, no step leaves an offer that the engine
would take later in the run; so with no request left the engine waits, and what a run takes is what the host presents in
that very step. (The duty is assumed, not checked: log 28.) -/
def Obligations.DisciplinedHostLeavesNoStaleOffer : Prop :=
  (∀ s t : State, hostDriven s = true → keepsInputDiscipline s = true → NoStaleOffer s → step s = .next t →
    NoStaleOffer t) ∧
  (∀ s : State, NoStaleOffer s → s.pending = [] → step s = .next s)

/-- The invariants hold at reset. -/
def Obligations.InvariantsHoldAtReset : Prop :=
  RunBooks State.reset ∧ PhaseBounds State.reset ∧ NoStaleOffer State.reset ∧ hostDriven State.reset = true

/-- R42, R73, R74, R128: in a run, every operation of the host but a STEP and RESET leaves everything as it is, the host's
log of what it read apart. -/
def Obligations.OnlyStepsAndResetActInARun : Prop :=
  ∀ (i : Instr) (s : State), s.runState = .running → isHostOp i = true → i ≠ .reset → (∀ d, i ≠ .stepTake d) →
    i ≠ .stepEnd → ∃ r, exec i s = .next { s with reads := s.reads ++ r }

/-- R42, R127: while RUNNING no operation but RESET changes a parameter or size register. -/
def Obligations.ParametersAreFrozenInARun : Prop :=
  ∀ (i : Instr) (s t : State), s.runState = .running → i ≠ .reset → exec i s = .next t →
    t.sampleRate = s.sampleRate ∧ t.sampleLength = s.sampleLength ∧ t.mix = s.mix ∧ t.lfoWaveform = s.lfoWaveform ∧
    t.amount = s.amount ∧ t.rate = s.rate ∧ t.frequency = s.frequency

/-- R99: the transition table of `STATUS.STATE`, for every operation of the host. -/
def Obligations.RunStateFollowsTheTable : Prop :=
  ∀ (i : Instr) (s : State), isHostOp i = true → ∃ t, exec i s = .next t ∧ t.runState = runStateAfter i s

/-- R27: the three per-run constants change only by RESET, by an accepted START and by INIT, which is a part of it. -/
def Obligations.RunConstantsKeepTheirValue : Prop :=
  ∀ (i : Instr) (s t : State), i ≠ .reset → i ≠ .init →
    ¬ (isStart i = true ∧ s.runState ≠ .running ∧ checkMask s = 0) → exec i s = .next t →
    t.mixFrac = s.mixFrac ∧ t.amountFrac = s.amountFrac ∧ t.lfoInc = s.lfoInc

/-- R34, R71: output elements are never rewritten: an operation other than RESET and START only appends to the output, and
no operation takes back a sample the host has received; `W` never changes. -/
def Obligations.OutputIsOnlyAppended : Prop :=
  ∀ (i : Instr) (s t : State), exec i s = .next t →
    s.received <+: t.received ∧ t.cfg = s.cfg ∧
    (i ≠ .reset → isStart i = false → s.out <+: t.out)

/-- R35, R115: the three level outputs are copies of the bits of `STATUS` as the host reads it. -/
def Obligations.OutputsCopyTheStatusBits : Prop :=
  ∀ (s t : State) (v : Word32), exec (.rdreg .status) s = .next t → t.reads = s.reads ++ [.w32 v] →
    (doneOut s = true ↔ v.extractLsb' 0 2 = 0b10#2) ∧ (errorOut s = true ↔ v.extractLsb' 0 2 = 0b11#2) ∧
    truncatedOut s = v.getLsbD 2

/-- R24, R73: no read shows a hidden register. -/
def Obligations.ReadsDoNotShowHiddenRegisters : Prop :=
  ∀ (s t u : State) (num : Reg) (lp cp mf af li : F64),
    exec (.rdreg num) s = .next t →
    exec (.rdreg num) { s with lfoPhase := lp, carrierPhase := cp, mixFrac := mf, amountFrac := af, lfoInc := li }
      = .next u →
    u.reads = t.reads
end

