-- ==== Sys2Proof/Laws/Float.lean ====
section
/-! SUPPORT. What the numeric primitives can do: the order of the binary64 magnitudes, one specification of the rounding,
and the sign and magnitude of a packed result. -/

namespace Sys2Proof.Machine

/-! ### Magnitudes -/

theorem unitsOfBits_of_lt {m : Nat} (h : m < 2 ^ 52) : unitsOfBits m = m := by
  rw [unitsOfBits, Nat.div_eq_of_lt h]; rfl

/-- Exponent `k + 1` and fraction `f`. -/
theorem unitsOfBits_normal (k : Nat) {f : Nat} (h : f < 2 ^ 52) :
    unitsOfBits ((k + 1) * 2 ^ 52 + f) = (2 ^ 52 + f) * 2 ^ k := by
  have hd : ((k + 1) * 2 ^ 52 + f) / 2 ^ 52 = k + 1 := by omega
  have hm : ((k + 1) * 2 ^ 52 + f) % 2 ^ 52 = f := by omega
  rw [unitsOfBits, hd, hm]; simp

/-- A significand of at most 53 bits, or `2^53` itself, shifted by `k`. -/
theorem unitsOfBits_shift {k m : Nat} (hm : m ≤ 2 ^ 53) (hk : k = 0 ∨ 2 ^ 52 ≤ m) :
    unitsOfBits (k * 2 ^ 52 + m) = m * 2 ^ k := by
  rcases Nat.lt_or_ge m (2 ^ 52) with h | h
  · obtain rfl : k = 0 := by omega
    simpa using unitsOfBits_of_lt h
  · rcases Nat.lt_or_ge m (2 ^ 53) with h' | h'
    · have := unitsOfBits_normal k (f := m - 2 ^ 52) (by omega)
      rw [show (k + 1) * 2 ^ 52 + (m - 2 ^ 52) = k * 2 ^ 52 + m by omega] at this
      rw [this, show 2 ^ 52 + (m - 2 ^ 52) = m by omega]
    · have hm' : m = 2 * 2 ^ 52 := by omega
      have := unitsOfBits_normal (k + 1) (f := 0) (by norm_num)
      rw [show (k + 1 + 1) * 2 ^ 52 + 0 = k * 2 ^ 52 + m by omega] at this
      rw [this, hm', pow_succ]; ring

/-- Every magnitude has this form. -/
theorem bits_split (b : Nat) : ∃ k m, b = k * 2 ^ 52 + m ∧ m < 2 ^ 53 ∧ (k = 0 ∨ 2 ^ 52 ≤ m) := by
  rcases Nat.lt_or_ge b (2 ^ 53) with h | h
  · exact ⟨0, b, by omega, h, .inl rfl⟩
  · exact ⟨b / 2 ^ 52 - 1, b % 2 ^ 52 + 2 ^ 52, by omega, by omega, .inr (by omega)⟩

theorem unitsOfBits_lt_succ (b : Nat) : unitsOfBits b < unitsOfBits (b + 1) := by
  obtain ⟨k, m, rfl, hm, hk⟩ := bits_split b
  rw [Nat.add_assoc, unitsOfBits_shift hm.le hk, unitsOfBits_shift (by omega) (by omega)]
  exact Nat.mul_lt_mul_of_pos_right (by omega) (by positivity)

/-- The bits of the non-negative numbers are ordered as their values are. -/
theorem unitsOfBits_strictMono : StrictMono unitsOfBits := strictMono_nat_of_lt_succ unitsOfBits_lt_succ

theorem unitsOfBits_zero : unitsOfBits 0 = 0 := rfl

/-! ### Rounding -/

/-- The number of bits too many: `q / 2^k` has at most 53 bits, and 53 exactly when `k` is not 0. -/
theorem shift_bounds (q : Nat) :
    q / 2 ^ (q.log2 - 52) < 2 ^ 53 ∧ (q.log2 - 52 = 0 ∨ 2 ^ 52 ≤ q / 2 ^ (q.log2 - 52)) := by
  have hlt : q < 2 ^ (q.log2 + 1) := Nat.lt_log2_self
  refine ⟨?_, ?_⟩
  · rw [Nat.div_lt_iff_lt_mul (by positivity), ← pow_add]
    exact hlt.trans_le (Nat.pow_le_pow_right (by norm_num) (by omega))
  · rcases Nat.eq_zero_or_pos (q.log2 - 52) with h | h
    · exact .inl h
    · right
      have hq : q ≠ 0 := by rintro rfl; simp at h
      rw [Nat.le_div_iff_mul_le (by positivity), ← pow_add]
      exact (Nat.pow_le_pow_right (by norm_num) (by omega)).trans (Nat.log2_self_le hq)

/-- ROUNDING, ONCE FOR ALL: `num/den` lies between two consecutive magnitudes `b` and `b + 1`, and the result is the
nearer one, the even one at equal distance, infinity if that is too large. -/
theorem roundBits_spec (num : Nat) {den : Nat} (hden : 0 < den) :
    ∃ b, unitsOfBits b * den ≤ num ∧ num < unitsOfBits (b + 1) * den ∧
      roundBits num den = min
        (if 2 * (num - unitsOfBits b * den) < (unitsOfBits (b + 1) - unitsOfBits b) * den then b
         else if (unitsOfBits (b + 1) - unitsOfBits b) * den < 2 * (num - unitsOfBits b * den) then b + 1
         else b + b % 2) infBits := by
  obtain ⟨hm, hk⟩ := shift_bounds (num / den)
  set k := (num / den).log2 - 52 with hkdef
  have hmd : num / (den * 2 ^ k) = num / den / 2 ^ k := (Nat.div_div_eq_div_mul _ _ _).symm
  set m := num / den / 2 ^ k with hmdef
  have hb : unitsOfBits (k * 2 ^ 52 + m) = m * 2 ^ k := unitsOfBits_shift hm.le hk
  have hb1 : unitsOfBits (k * 2 ^ 52 + m + 1) = (m + 1) * 2 ^ k := by
    rw [Nat.add_assoc]; exact unitsOfBits_shift (by omega) (by omega)
  have hpos : 0 < den * 2 ^ k := by positivity
  have hlow : m * 2 ^ k * den ≤ num := by
    have := Nat.div_mul_le_self num (den * 2 ^ k)
    rw [hmd] at this; calc m * 2 ^ k * den = m * (den * 2 ^ k) := by ring
      _ ≤ num := this
  have hhigh : num < (m + 1) * 2 ^ k * den := by
    have := Nat.lt_div_mul_add (a := num) hpos
    rw [hmd] at this; calc num < m * (den * 2 ^ k) + den * 2 ^ k := this
      _ = (m + 1) * 2 ^ k * den := by ring
  have hr : num % (den * 2 ^ k) = num - m * 2 ^ k * den := by
    have := Nat.div_add_mod num (den * 2 ^ k)
    rw [hmd, show den * 2 ^ k * m = m * 2 ^ k * den by ring] at this; omega
  have hgap : ((m + 1) * 2 ^ k - m * 2 ^ k) * den = den * 2 ^ k := by
    rw [show (m + 1) * 2 ^ k = m * 2 ^ k + 2 ^ k by ring, Nat.add_sub_cancel_left, Nat.mul_comm]
  refine ⟨k * 2 ^ 52 + m, by rw [hb]; exact hlow, by rw [hb1]; exact hhigh, ?_⟩
  rw [hb, hb1, hgap, ← hr]
  simp only [roundBits, ← hkdef, hmd]
  refine congrArg (min · infBits) ?_
  split_ifs <;> omega

theorem roundBits_le_infBits (num den : Nat) : roundBits num den ≤ infBits := by
  simp only [roundBits]; exact min_le_right _ _

/-- A bound that is itself a binary64 number bounds the rounded result. -/
theorem roundBits_le {num den B : Nat} (hden : 0 < den) (h : num ≤ unitsOfBits B * den) : roundBits num den ≤ B := by
  obtain ⟨b, hlo, hhi, he⟩ := roundBits_spec num hden
  rw [he]
  refine (min_le_left _ _).trans ?_
  have hbB : b ≤ B := unitsOfBits_strictMono.le_iff_le.mp (Nat.le_of_mul_le_mul_right (hlo.trans h) hden)
  rcases hbB.lt_or_eq with hlt | rfl
  · split_ifs <;> omega
  · have hz : num - unitsOfBits b * den = 0 := by omega
    have hgap : 0 < (unitsOfBits (b + 1) - unitsOfBits b) * den :=
      Nat.mul_pos (Nat.sub_pos_of_lt (unitsOfBits_lt_succ b)) hden
    rw [hz, if_pos (by omega)]

/-- A number less than half a gap above `B` is not rounded past it. -/
theorem roundBits_le_of_near {num den B : Nat} (hden : 0 < den)
    (h : 2 * num < (unitsOfBits B + unitsOfBits (B + 1)) * den) : roundBits num den ≤ B := by
  obtain ⟨b, hlo, hhi, he⟩ := roundBits_spec num hden
  rw [he]
  refine (min_le_left _ _).trans ?_
  have hB := unitsOfBits_lt_succ B
  have hbB : b < B + 1 := by
    refine unitsOfBits_strictMono.lt_iff_lt.mp (Nat.lt_of_mul_lt_mul_right (a := den) ?_)
    have : (unitsOfBits B + unitsOfBits (B + 1)) * den ≤ (2 * unitsOfBits (B + 1)) * den :=
      Nat.mul_le_mul_right _ (by omega)
    have h2 : (2 * unitsOfBits (B + 1)) * den = 2 * (unitsOfBits (B + 1) * den) := by ring
    omega
  rcases (Nat.lt_succ_iff.mp hbB).lt_or_eq with hlt | rfl
  · split_ifs <;> omega
  · rw [if_pos]
    rw [Nat.sub_mul]
    rw [Nat.add_mul] at h
    omega

theorem le_roundBits {num den B : Nat} (hden : 0 < den) (hB : B ≤ infBits) (h : unitsOfBits B * den ≤ num) :
    B ≤ roundBits num den := by
  obtain ⟨b, hlo, hhi, he⟩ := roundBits_spec num hden
  rw [he]
  refine le_min ?_ hB
  have : B < b + 1 := unitsOfBits_strictMono.lt_iff_lt.mp (Nat.lt_of_mul_lt_mul_right (h.trans_lt hhi))
  split_ifs <;> omega

/-- A number that is a binary64 number is not changed. -/
theorem roundBits_exact {den m : Nat} (hden : 0 < den) (hm : m ≤ infBits) :
    roundBits (unitsOfBits m * den) den = m :=
  le_antisymm (roundBits_le hden le_rfl) (le_roundBits hden hm le_rfl)

theorem roundBits_mono {num num' den : Nat} (hden : 0 < den) (h : num ≤ num') :
    roundBits num den ≤ roundBits num' den := by
  obtain ⟨b, hlo, hhi, he⟩ := roundBits_spec num hden
  obtain ⟨b', hlo', hhi', he'⟩ := roundBits_spec num' hden
  have hbb : b < b' + 1 := unitsOfBits_strictMono.lt_iff_lt.mp
    (Nat.lt_of_mul_lt_mul_right (hlo.trans_lt (h.trans_lt hhi')))
  rw [he, he']
  refine min_le_min_right _ ?_
  rcases Nat.lt_or_ge b b' with hlt | hge
  · split_ifs <;> omega
  · obtain rfl : b = b' := by omega
    have := Nat.sub_le_sub_right h (unitsOfBits b * den)
    split_ifs <;> omega

/-! ### Signs and magnitudes of packed results -/

theorem infBits_lt : infBits < 2 ^ 63 := by decide

theorem toNat_packF64 (s : Bool) {m : Nat} (h : m < 2 ^ 63) :
    (packF64 s m).toNat = (if s then 2 ^ 63 else 0) + m := by
  rw [packF64, BitVec.toNat_ofNat, Nat.mod_eq_of_lt]; split <;> omega

theorem signBit_packF64 (s : Bool) {m : Nat} (h : m < 2 ^ 63) : signBit (packF64 s m) = s := by
  rw [signBit, toNat_packF64 s h]; cases s
  · simp; omega
  · simp

theorem magBits_packF64 (s : Bool) {m : Nat} (h : m < 2 ^ 63) : magBits (packF64 s m) = m := by
  rw [magBits, toNat_packF64 s h]; cases s <;> simp <;> omega

theorem units_packF64 (s : Bool) {m : Nat} (h : m < 2 ^ 63) : units (packF64 s m) = unitsOfBits m := by
  rw [units, magBits_packF64 s h]

theorem scaled_packF64 (s : Bool) {m : Nat} (h : m < 2 ^ 63) :
    scaled (packF64 s m) = if s then -(unitsOfBits m : Int) else (unitsOfBits m : Int) := by
  rw [scaled, signBit_packF64 s h, units_packF64 s h]

theorem isFinite_packF64 (s : Bool) {m : Nat} (h : m < infBits) : isFinite (packF64 s m) = true := by
  simp [isFinite, magBits_packF64 s (h.trans infBits_lt), h]

theorem magBits_lt (a : F64) : magBits a < 2 ^ 63 := Nat.mod_lt _ (by norm_num)

/-- A number is its sign and its magnitude. -/
theorem packF64_self (a : F64) : packF64 (signBit a) (magBits a) = a := by
  apply BitVec.eq_of_toNat_eq
  rw [toNat_packF64 _ (magBits_lt a), signBit, magBits]
  have := a.isLt
  by_cases h : 2 ^ 63 ≤ a.toNat
  · rw [if_pos (by simpa using h)]; omega
  · rw [if_neg (by simpa using h)]; omega

theorem eq_of_sign_mag {a b : F64} (hs : signBit a = signBit b) (hm : magBits a = magBits b) : a = b := by
  rw [← packF64_self a, ← packF64_self b, hs, hm]

theorem isNaN_of_isFinite {a : F64} (h : isFinite a = true) : isNaN a = false := by
  simp only [isFinite, isNaN, decide_eq_true_eq, decide_eq_false_iff_not] at *; omega

theorem isInf_of_isFinite {a : F64} (h : isFinite a = true) : isInf a = false := by
  simp only [isFinite, isInf, decide_eq_true_eq, decide_eq_false_iff_not] at *; omega

theorem scaled_natAbs (a : F64) : (scaled a).natAbs = units a := by
  rw [scaled]; split <;> simp

/-! ### The operations on finite operands -/

theorem fadd_of_finite {a b : F64} (ha : isFinite a = true) (hb : isFinite b = true) :
    fadd a b = if scaled a + scaled b = 0 then packF64 (signBit a && signBit b) 0
      else packF64 (decide (scaled a + scaled b < 0)) (roundBits (scaled a + scaled b).natAbs 1) := by
  simp [fadd, addCore, isNaN_of_isFinite ha, isNaN_of_isFinite hb, isInf_of_isFinite ha, isInf_of_isFinite hb]

theorem fmul_of_finite {a b : F64} (ha : isFinite a = true) (hb : isFinite b = true) :
    fmul a b = packF64 (signBit a != signBit b) (roundBits (units a * units b) (2 ^ 1074)) := by
  simp [fmul, isNaN_of_isFinite ha, isNaN_of_isFinite hb, isInf_of_isFinite ha, isInf_of_isFinite hb]

theorem fdiv_of_finite {a b : F64} (ha : isFinite a = true) (hb : isFinite b = true) (h0 : magBits b ≠ 0) :
    fdiv a b = packF64 (signBit a != signBit b) (roundBits (units a * 2 ^ 1074) (units b)) := by
  simp [fdiv, isNaN_of_isFinite ha, isNaN_of_isFinite hb, isInf_of_isFinite ha, isInf_of_isFinite hb, h0]

theorem units_pos {a : F64} (h : magBits a ≠ 0) : 0 < units a := by
  have := unitsOfBits_strictMono (Nat.pos_of_ne_zero h)
  rwa [unitsOfBits_zero] at this

/-- A finite number's magnitude is bounded by a binary64 number `B`: so is a sum's, a product's and a quotient's when the
exact result is. -/
theorem magBits_fmul_le {a b : F64} {B : Nat} (ha : isFinite a = true) (hb : isFinite b = true)
    (h : units a * units b ≤ unitsOfBits B * 2 ^ 1074) : magBits (fmul a b) ≤ B := by
  rw [fmul_of_finite ha hb, magBits_packF64 _ ((roundBits_le_infBits _ _).trans_lt infBits_lt)]
  exact roundBits_le (by positivity) h

theorem magBits_fdiv_le {a b : F64} {B : Nat} (ha : isFinite a = true) (hb : isFinite b = true) (h0 : magBits b ≠ 0)
    (h : units a * 2 ^ 1074 ≤ unitsOfBits B * units b) : magBits (fdiv a b) ≤ B := by
  rw [fdiv_of_finite ha hb h0, magBits_packF64 _ ((roundBits_le_infBits _ _).trans_lt infBits_lt)]
  exact roundBits_le (units_pos h0) h

theorem magBits_fadd_le {a b : F64} {B : Nat} (ha : isFinite a = true) (hb : isFinite b = true)
    (h : (scaled a + scaled b).natAbs ≤ unitsOfBits B) : magBits (fadd a b) ≤ B := by
  rw [fadd_of_finite ha hb]
  split
  · rw [magBits_packF64 _ (by norm_num)]; exact Nat.zero_le _
  · rw [magBits_packF64 _ ((roundBits_le_infBits _ _).trans_lt infBits_lt)]
    exact roundBits_le one_pos (by simpa using h)

theorem isFinite_of_magBits_le {a : F64} {B : Nat} (h : magBits a ≤ B) (hB : B < infBits) : isFinite a = true := by
  simpa [isFinite] using h.trans_lt hB

end Sys2Proof.Machine
end

