-- ==== Sys2Proof/Laws/State.lean ====
section
/-! SUPPORT. One lemma per field per update of the state, so that no later proof unfolds a record update. -/

namespace Sys2Proof.Machine

variable (s : State)

/-! ### `lfoAdvOp` -/
@[simp] theorem lfoAdvOp_cfg : (lfoAdvOp s).cfg = s.cfg := rfl
@[simp] theorem lfoAdvOp_runState : (lfoAdvOp s).runState = s.runState := rfl
@[simp] theorem lfoAdvOp_truncated : (lfoAdvOp s).truncated = s.truncated := rfl
@[simp] theorem lfoAdvOp_errCause : (lfoAdvOp s).errCause = s.errCause := rfl
@[simp] theorem lfoAdvOp_sampleRate : (lfoAdvOp s).sampleRate = s.sampleRate := rfl
@[simp] theorem lfoAdvOp_sampleLength : (lfoAdvOp s).sampleLength = s.sampleLength := rfl
@[simp] theorem lfoAdvOp_mix : (lfoAdvOp s).mix = s.mix := rfl
@[simp] theorem lfoAdvOp_lfoWaveform : (lfoAdvOp s).lfoWaveform = s.lfoWaveform := rfl
@[simp] theorem lfoAdvOp_amount : (lfoAdvOp s).amount = s.amount := rfl
@[simp] theorem lfoAdvOp_rate : (lfoAdvOp s).rate = s.rate := rfl
@[simp] theorem lfoAdvOp_frequency : (lfoAdvOp s).frequency = s.frequency := rfl
@[simp] theorem lfoAdvOp_index : (lfoAdvOp s).index = s.index := rfl
@[simp] theorem lfoAdvOp_lfoPhase : (lfoAdvOp s).lfoPhase = wrap (fadd s.lfoPhase s.lfoInc) := rfl
@[simp] theorem lfoAdvOp_carrierPhase : (lfoAdvOp s).carrierPhase = s.carrierPhase := rfl
@[simp] theorem lfoAdvOp_mixFrac : (lfoAdvOp s).mixFrac = s.mixFrac := rfl
@[simp] theorem lfoAdvOp_amountFrac : (lfoAdvOp s).amountFrac = s.amountFrac := rfl
@[simp] theorem lfoAdvOp_lfoInc : (lfoAdvOp s).lfoInc = s.lfoInc := rfl
@[simp] theorem lfoAdvOp_out : (lfoAdvOp s).out = s.out := rfl
@[simp] theorem lfoAdvOp_tmp : (lfoAdvOp s).tmp = { s.tmp with slot := 1 } := rfl
@[simp] theorem lfoAdvOp_inPort : (lfoAdvOp s).inPort = s.inPort := rfl
@[simp] theorem lfoAdvOp_outReady : (lfoAdvOp s).outReady = s.outReady := rfl
@[simp] theorem lfoAdvOp_pending : (lfoAdvOp s).pending = s.pending := rfl
@[simp] theorem lfoAdvOp_reads : (lfoAdvOp s).reads = s.reads := rfl
@[simp] theorem lfoAdvOp_received : (lfoAdvOp s).received = s.received := rfl
@[simp] theorem lfoAdvOp_freeCount : (lfoAdvOp s).freeCount = s.freeCount := rfl

/-! ### `lfoSinOp` -/
@[simp] theorem lfoSinOp_cfg : (lfoSinOp s).cfg = s.cfg := rfl
@[simp] theorem lfoSinOp_runState : (lfoSinOp s).runState = s.runState := rfl
@[simp] theorem lfoSinOp_truncated : (lfoSinOp s).truncated = s.truncated := rfl
@[simp] theorem lfoSinOp_errCause : (lfoSinOp s).errCause = s.errCause := rfl
@[simp] theorem lfoSinOp_sampleRate : (lfoSinOp s).sampleRate = s.sampleRate := rfl
@[simp] theorem lfoSinOp_sampleLength : (lfoSinOp s).sampleLength = s.sampleLength := rfl
@[simp] theorem lfoSinOp_mix : (lfoSinOp s).mix = s.mix := rfl
@[simp] theorem lfoSinOp_lfoWaveform : (lfoSinOp s).lfoWaveform = s.lfoWaveform := rfl
@[simp] theorem lfoSinOp_amount : (lfoSinOp s).amount = s.amount := rfl
@[simp] theorem lfoSinOp_rate : (lfoSinOp s).rate = s.rate := rfl
@[simp] theorem lfoSinOp_frequency : (lfoSinOp s).frequency = s.frequency := rfl
@[simp] theorem lfoSinOp_index : (lfoSinOp s).index = s.index := rfl
@[simp] theorem lfoSinOp_lfoPhase : (lfoSinOp s).lfoPhase = s.lfoPhase := rfl
@[simp] theorem lfoSinOp_carrierPhase : (lfoSinOp s).carrierPhase = s.carrierPhase := rfl
@[simp] theorem lfoSinOp_mixFrac : (lfoSinOp s).mixFrac = s.mixFrac := rfl
@[simp] theorem lfoSinOp_amountFrac : (lfoSinOp s).amountFrac = s.amountFrac := rfl
@[simp] theorem lfoSinOp_lfoInc : (lfoSinOp s).lfoInc = s.lfoInc := rfl
@[simp] theorem lfoSinOp_out : (lfoSinOp s).out = s.out := rfl
@[simp] theorem lfoSinOp_tmp : (lfoSinOp s).tmp = { s.tmp with lfo := fsin s.lfoPhase, slot := 2 } := rfl
@[simp] theorem lfoSinOp_inPort : (lfoSinOp s).inPort = s.inPort := rfl
@[simp] theorem lfoSinOp_outReady : (lfoSinOp s).outReady = s.outReady := rfl
@[simp] theorem lfoSinOp_pending : (lfoSinOp s).pending = s.pending := rfl
@[simp] theorem lfoSinOp_reads : (lfoSinOp s).reads = s.reads := rfl
@[simp] theorem lfoSinOp_received : (lfoSinOp s).received = s.received := rfl
@[simp] theorem lfoSinOp_freeCount : (lfoSinOp s).freeCount = s.freeCount := rfl

/-! ### `lfoSqrOp` -/
@[simp] theorem lfoSqrOp_cfg : (lfoSqrOp s).cfg = s.cfg := rfl
@[simp] theorem lfoSqrOp_runState : (lfoSqrOp s).runState = s.runState := rfl
@[simp] theorem lfoSqrOp_truncated : (lfoSqrOp s).truncated = s.truncated := rfl
@[simp] theorem lfoSqrOp_errCause : (lfoSqrOp s).errCause = s.errCause := rfl
@[simp] theorem lfoSqrOp_sampleRate : (lfoSqrOp s).sampleRate = s.sampleRate := rfl
@[simp] theorem lfoSqrOp_sampleLength : (lfoSqrOp s).sampleLength = s.sampleLength := rfl
@[simp] theorem lfoSqrOp_mix : (lfoSqrOp s).mix = s.mix := rfl
@[simp] theorem lfoSqrOp_lfoWaveform : (lfoSqrOp s).lfoWaveform = s.lfoWaveform := rfl
@[simp] theorem lfoSqrOp_amount : (lfoSqrOp s).amount = s.amount := rfl
@[simp] theorem lfoSqrOp_rate : (lfoSqrOp s).rate = s.rate := rfl
@[simp] theorem lfoSqrOp_frequency : (lfoSqrOp s).frequency = s.frequency := rfl
@[simp] theorem lfoSqrOp_index : (lfoSqrOp s).index = s.index := rfl
@[simp] theorem lfoSqrOp_lfoPhase : (lfoSqrOp s).lfoPhase = s.lfoPhase := rfl
@[simp] theorem lfoSqrOp_carrierPhase : (lfoSqrOp s).carrierPhase = s.carrierPhase := rfl
@[simp] theorem lfoSqrOp_mixFrac : (lfoSqrOp s).mixFrac = s.mixFrac := rfl
@[simp] theorem lfoSqrOp_amountFrac : (lfoSqrOp s).amountFrac = s.amountFrac := rfl
@[simp] theorem lfoSqrOp_lfoInc : (lfoSqrOp s).lfoInc = s.lfoInc := rfl
@[simp] theorem lfoSqrOp_out : (lfoSqrOp s).out = s.out := rfl
@[simp] theorem lfoSqrOp_tmp : (lfoSqrOp s).tmp = { s.tmp with lfo := if ge0 (fsin s.lfoPhase) then f64One else f64Zero, slot := 2 } := rfl
@[simp] theorem lfoSqrOp_inPort : (lfoSqrOp s).inPort = s.inPort := rfl
@[simp] theorem lfoSqrOp_outReady : (lfoSqrOp s).outReady = s.outReady := rfl
@[simp] theorem lfoSqrOp_pending : (lfoSqrOp s).pending = s.pending := rfl
@[simp] theorem lfoSqrOp_reads : (lfoSqrOp s).reads = s.reads := rfl
@[simp] theorem lfoSqrOp_received : (lfoSqrOp s).received = s.received := rfl
@[simp] theorem lfoSqrOp_freeCount : (lfoSqrOp s).freeCount = s.freeCount := rfl

/-! ### `excOp` -/
@[simp] theorem excOp_cfg : (excOp s).cfg = s.cfg := rfl
@[simp] theorem excOp_runState : (excOp s).runState = s.runState := rfl
@[simp] theorem excOp_truncated : (excOp s).truncated = s.truncated := rfl
@[simp] theorem excOp_errCause : (excOp s).errCause = s.errCause := rfl
@[simp] theorem excOp_sampleRate : (excOp s).sampleRate = s.sampleRate := rfl
@[simp] theorem excOp_sampleLength : (excOp s).sampleLength = s.sampleLength := rfl
@[simp] theorem excOp_mix : (excOp s).mix = s.mix := rfl
@[simp] theorem excOp_lfoWaveform : (excOp s).lfoWaveform = s.lfoWaveform := rfl
@[simp] theorem excOp_amount : (excOp s).amount = s.amount := rfl
@[simp] theorem excOp_rate : (excOp s).rate = s.rate := rfl
@[simp] theorem excOp_frequency : (excOp s).frequency = s.frequency := rfl
@[simp] theorem excOp_index : (excOp s).index = s.index := rfl
@[simp] theorem excOp_lfoPhase : (excOp s).lfoPhase = s.lfoPhase := rfl
@[simp] theorem excOp_carrierPhase : (excOp s).carrierPhase = s.carrierPhase := rfl
@[simp] theorem excOp_mixFrac : (excOp s).mixFrac = s.mixFrac := rfl
@[simp] theorem excOp_amountFrac : (excOp s).amountFrac = s.amountFrac := rfl
@[simp] theorem excOp_lfoInc : (excOp s).lfoInc = s.lfoInc := rfl
@[simp] theorem excOp_out : (excOp s).out = s.out := rfl
@[simp] theorem excOp_tmp : (excOp s).tmp = { s.tmp with exc := excursion s.tmp.lfo s.frequency s.amountFrac, slot := 3 } := rfl
@[simp] theorem excOp_inPort : (excOp s).inPort = s.inPort := rfl
@[simp] theorem excOp_outReady : (excOp s).outReady = s.outReady := rfl
@[simp] theorem excOp_pending : (excOp s).pending = s.pending := rfl
@[simp] theorem excOp_reads : (excOp s).reads = s.reads := rfl
@[simp] theorem excOp_received : (excOp s).received = s.received := rfl
@[simp] theorem excOp_freeCount : (excOp s).freeCount = s.freeCount := rfl

/-! ### `carIncOp` -/
@[simp] theorem carIncOp_cfg : (carIncOp s).cfg = s.cfg := rfl
@[simp] theorem carIncOp_runState : (carIncOp s).runState = s.runState := rfl
@[simp] theorem carIncOp_truncated : (carIncOp s).truncated = s.truncated := rfl
@[simp] theorem carIncOp_errCause : (carIncOp s).errCause = s.errCause := rfl
@[simp] theorem carIncOp_sampleRate : (carIncOp s).sampleRate = s.sampleRate := rfl
@[simp] theorem carIncOp_sampleLength : (carIncOp s).sampleLength = s.sampleLength := rfl
@[simp] theorem carIncOp_mix : (carIncOp s).mix = s.mix := rfl
@[simp] theorem carIncOp_lfoWaveform : (carIncOp s).lfoWaveform = s.lfoWaveform := rfl
@[simp] theorem carIncOp_amount : (carIncOp s).amount = s.amount := rfl
@[simp] theorem carIncOp_rate : (carIncOp s).rate = s.rate := rfl
@[simp] theorem carIncOp_frequency : (carIncOp s).frequency = s.frequency := rfl
@[simp] theorem carIncOp_index : (carIncOp s).index = s.index := rfl
@[simp] theorem carIncOp_lfoPhase : (carIncOp s).lfoPhase = s.lfoPhase := rfl
@[simp] theorem carIncOp_carrierPhase : (carIncOp s).carrierPhase = s.carrierPhase := rfl
@[simp] theorem carIncOp_mixFrac : (carIncOp s).mixFrac = s.mixFrac := rfl
@[simp] theorem carIncOp_amountFrac : (carIncOp s).amountFrac = s.amountFrac := rfl
@[simp] theorem carIncOp_lfoInc : (carIncOp s).lfoInc = s.lfoInc := rfl
@[simp] theorem carIncOp_out : (carIncOp s).out = s.out := rfl
@[simp] theorem carIncOp_tmp : (carIncOp s).tmp = { s.tmp with cinc := carrierIncrement s.frequency s.tmp.exc (rateOperand s), slot := 4 } := rfl
@[simp] theorem carIncOp_inPort : (carIncOp s).inPort = s.inPort := rfl
@[simp] theorem carIncOp_outReady : (carIncOp s).outReady = s.outReady := rfl
@[simp] theorem carIncOp_pending : (carIncOp s).pending = s.pending := rfl
@[simp] theorem carIncOp_reads : (carIncOp s).reads = s.reads := rfl
@[simp] theorem carIncOp_received : (carIncOp s).received = s.received := rfl
@[simp] theorem carIncOp_freeCount : (carIncOp s).freeCount = s.freeCount := rfl

/-! ### `carAdvOp` -/
@[simp] theorem carAdvOp_cfg : (carAdvOp s).cfg = s.cfg := rfl
@[simp] theorem carAdvOp_runState : (carAdvOp s).runState = s.runState := rfl
@[simp] theorem carAdvOp_truncated : (carAdvOp s).truncated = s.truncated := rfl
@[simp] theorem carAdvOp_errCause : (carAdvOp s).errCause = s.errCause := rfl
@[simp] theorem carAdvOp_sampleRate : (carAdvOp s).sampleRate = s.sampleRate := rfl
@[simp] theorem carAdvOp_sampleLength : (carAdvOp s).sampleLength = s.sampleLength := rfl
@[simp] theorem carAdvOp_mix : (carAdvOp s).mix = s.mix := rfl
@[simp] theorem carAdvOp_lfoWaveform : (carAdvOp s).lfoWaveform = s.lfoWaveform := rfl
@[simp] theorem carAdvOp_amount : (carAdvOp s).amount = s.amount := rfl
@[simp] theorem carAdvOp_rate : (carAdvOp s).rate = s.rate := rfl
@[simp] theorem carAdvOp_frequency : (carAdvOp s).frequency = s.frequency := rfl
@[simp] theorem carAdvOp_index : (carAdvOp s).index = s.index := rfl
@[simp] theorem carAdvOp_lfoPhase : (carAdvOp s).lfoPhase = s.lfoPhase := rfl
@[simp] theorem carAdvOp_carrierPhase : (carAdvOp s).carrierPhase = wrap (fadd s.carrierPhase s.tmp.cinc) := rfl
@[simp] theorem carAdvOp_mixFrac : (carAdvOp s).mixFrac = s.mixFrac := rfl
@[simp] theorem carAdvOp_amountFrac : (carAdvOp s).amountFrac = s.amountFrac := rfl
@[simp] theorem carAdvOp_lfoInc : (carAdvOp s).lfoInc = s.lfoInc := rfl
@[simp] theorem carAdvOp_out : (carAdvOp s).out = s.out := rfl
@[simp] theorem carAdvOp_tmp : (carAdvOp s).tmp = { s.tmp with slot := 5 } := rfl
@[simp] theorem carAdvOp_inPort : (carAdvOp s).inPort = s.inPort := rfl
@[simp] theorem carAdvOp_outReady : (carAdvOp s).outReady = s.outReady := rfl
@[simp] theorem carAdvOp_pending : (carAdvOp s).pending = s.pending := rfl
@[simp] theorem carAdvOp_reads : (carAdvOp s).reads = s.reads := rfl
@[simp] theorem carAdvOp_received : (carAdvOp s).received = s.received := rfl
@[simp] theorem carAdvOp_freeCount : (carAdvOp s).freeCount = s.freeCount := rfl

/-! ### `carSinOp` -/
@[simp] theorem carSinOp_cfg : (carSinOp s).cfg = s.cfg := rfl
@[simp] theorem carSinOp_runState : (carSinOp s).runState = s.runState := rfl
@[simp] theorem carSinOp_truncated : (carSinOp s).truncated = s.truncated := rfl
@[simp] theorem carSinOp_errCause : (carSinOp s).errCause = s.errCause := rfl
@[simp] theorem carSinOp_sampleRate : (carSinOp s).sampleRate = s.sampleRate := rfl
@[simp] theorem carSinOp_sampleLength : (carSinOp s).sampleLength = s.sampleLength := rfl
@[simp] theorem carSinOp_mix : (carSinOp s).mix = s.mix := rfl
@[simp] theorem carSinOp_lfoWaveform : (carSinOp s).lfoWaveform = s.lfoWaveform := rfl
@[simp] theorem carSinOp_amount : (carSinOp s).amount = s.amount := rfl
@[simp] theorem carSinOp_rate : (carSinOp s).rate = s.rate := rfl
@[simp] theorem carSinOp_frequency : (carSinOp s).frequency = s.frequency := rfl
@[simp] theorem carSinOp_index : (carSinOp s).index = s.index := rfl
@[simp] theorem carSinOp_lfoPhase : (carSinOp s).lfoPhase = s.lfoPhase := rfl
@[simp] theorem carSinOp_carrierPhase : (carSinOp s).carrierPhase = s.carrierPhase := rfl
@[simp] theorem carSinOp_mixFrac : (carSinOp s).mixFrac = s.mixFrac := rfl
@[simp] theorem carSinOp_amountFrac : (carSinOp s).amountFrac = s.amountFrac := rfl
@[simp] theorem carSinOp_lfoInc : (carSinOp s).lfoInc = s.lfoInc := rfl
@[simp] theorem carSinOp_out : (carSinOp s).out = s.out := rfl
@[simp] theorem carSinOp_tmp : (carSinOp s).tmp = { s.tmp with car := fsin s.carrierPhase, slot := 6 } := rfl
@[simp] theorem carSinOp_inPort : (carSinOp s).inPort = s.inPort := rfl
@[simp] theorem carSinOp_outReady : (carSinOp s).outReady = s.outReady := rfl
@[simp] theorem carSinOp_pending : (carSinOp s).pending = s.pending := rfl
@[simp] theorem carSinOp_reads : (carSinOp s).reads = s.reads := rfl
@[simp] theorem carSinOp_received : (carSinOp s).received = s.received := rfl
@[simp] theorem carSinOp_freeCount : (carSinOp s).freeCount = s.freeCount := rfl

/-! ### `dryOp` -/
@[simp] theorem dryOp_cfg : (dryOp s).cfg = s.cfg := rfl
@[simp] theorem dryOp_runState : (dryOp s).runState = s.runState := rfl
@[simp] theorem dryOp_truncated : (dryOp s).truncated = s.truncated := rfl
@[simp] theorem dryOp_errCause : (dryOp s).errCause = s.errCause := rfl
@[simp] theorem dryOp_sampleRate : (dryOp s).sampleRate = s.sampleRate := rfl
@[simp] theorem dryOp_sampleLength : (dryOp s).sampleLength = s.sampleLength := rfl
@[simp] theorem dryOp_mix : (dryOp s).mix = s.mix := rfl
@[simp] theorem dryOp_lfoWaveform : (dryOp s).lfoWaveform = s.lfoWaveform := rfl
@[simp] theorem dryOp_amount : (dryOp s).amount = s.amount := rfl
@[simp] theorem dryOp_rate : (dryOp s).rate = s.rate := rfl
@[simp] theorem dryOp_frequency : (dryOp s).frequency = s.frequency := rfl
@[simp] theorem dryOp_index : (dryOp s).index = s.index := rfl
@[simp] theorem dryOp_lfoPhase : (dryOp s).lfoPhase = s.lfoPhase := rfl
@[simp] theorem dryOp_carrierPhase : (dryOp s).carrierPhase = s.carrierPhase := rfl
@[simp] theorem dryOp_mixFrac : (dryOp s).mixFrac = s.mixFrac := rfl
@[simp] theorem dryOp_amountFrac : (dryOp s).amountFrac = s.amountFrac := rfl
@[simp] theorem dryOp_lfoInc : (dryOp s).lfoInc = s.lfoInc := rfl
@[simp] theorem dryOp_out : (dryOp s).out = s.out := rfl
@[simp] theorem dryOp_tmp : (dryOp s).tmp = { s.tmp with dry := dryProduct s.tmp.sf s.mixFrac, slot := 8 } := rfl
@[simp] theorem dryOp_inPort : (dryOp s).inPort = s.inPort := rfl
@[simp] theorem dryOp_outReady : (dryOp s).outReady = s.outReady := rfl
@[simp] theorem dryOp_pending : (dryOp s).pending = s.pending := rfl
@[simp] theorem dryOp_reads : (dryOp s).reads = s.reads := rfl
@[simp] theorem dryOp_received : (dryOp s).received = s.received := rfl
@[simp] theorem dryOp_freeCount : (dryOp s).freeCount = s.freeCount := rfl

/-! ### `ringOp` -/
@[simp] theorem ringOp_cfg : (ringOp s).cfg = s.cfg := rfl
@[simp] theorem ringOp_runState : (ringOp s).runState = s.runState := rfl
@[simp] theorem ringOp_truncated : (ringOp s).truncated = s.truncated := rfl
@[simp] theorem ringOp_errCause : (ringOp s).errCause = s.errCause := rfl
@[simp] theorem ringOp_sampleRate : (ringOp s).sampleRate = s.sampleRate := rfl
@[simp] theorem ringOp_sampleLength : (ringOp s).sampleLength = s.sampleLength := rfl
@[simp] theorem ringOp_mix : (ringOp s).mix = s.mix := rfl
@[simp] theorem ringOp_lfoWaveform : (ringOp s).lfoWaveform = s.lfoWaveform := rfl
@[simp] theorem ringOp_amount : (ringOp s).amount = s.amount := rfl
@[simp] theorem ringOp_rate : (ringOp s).rate = s.rate := rfl
@[simp] theorem ringOp_frequency : (ringOp s).frequency = s.frequency := rfl
@[simp] theorem ringOp_index : (ringOp s).index = s.index := rfl
@[simp] theorem ringOp_lfoPhase : (ringOp s).lfoPhase = s.lfoPhase := rfl
@[simp] theorem ringOp_carrierPhase : (ringOp s).carrierPhase = s.carrierPhase := rfl
@[simp] theorem ringOp_mixFrac : (ringOp s).mixFrac = s.mixFrac := rfl
@[simp] theorem ringOp_amountFrac : (ringOp s).amountFrac = s.amountFrac := rfl
@[simp] theorem ringOp_lfoInc : (ringOp s).lfoInc = s.lfoInc := rfl
@[simp] theorem ringOp_out : (ringOp s).out = s.out := rfl
@[simp] theorem ringOp_tmp : (ringOp s).tmp = { s.tmp with ring := fmul s.tmp.sf s.tmp.car, slot := 9 } := rfl
@[simp] theorem ringOp_inPort : (ringOp s).inPort = s.inPort := rfl
@[simp] theorem ringOp_outReady : (ringOp s).outReady = s.outReady := rfl
@[simp] theorem ringOp_pending : (ringOp s).pending = s.pending := rfl
@[simp] theorem ringOp_reads : (ringOp s).reads = s.reads := rfl
@[simp] theorem ringOp_received : (ringOp s).received = s.received := rfl
@[simp] theorem ringOp_freeCount : (ringOp s).freeCount = s.freeCount := rfl

/-! ### `wetOp` -/
@[simp] theorem wetOp_cfg : (wetOp s).cfg = s.cfg := rfl
@[simp] theorem wetOp_runState : (wetOp s).runState = s.runState := rfl
@[simp] theorem wetOp_truncated : (wetOp s).truncated = s.truncated := rfl
@[simp] theorem wetOp_errCause : (wetOp s).errCause = s.errCause := rfl
@[simp] theorem wetOp_sampleRate : (wetOp s).sampleRate = s.sampleRate := rfl
@[simp] theorem wetOp_sampleLength : (wetOp s).sampleLength = s.sampleLength := rfl
@[simp] theorem wetOp_mix : (wetOp s).mix = s.mix := rfl
@[simp] theorem wetOp_lfoWaveform : (wetOp s).lfoWaveform = s.lfoWaveform := rfl
@[simp] theorem wetOp_amount : (wetOp s).amount = s.amount := rfl
@[simp] theorem wetOp_rate : (wetOp s).rate = s.rate := rfl
@[simp] theorem wetOp_frequency : (wetOp s).frequency = s.frequency := rfl
@[simp] theorem wetOp_index : (wetOp s).index = s.index := rfl
@[simp] theorem wetOp_lfoPhase : (wetOp s).lfoPhase = s.lfoPhase := rfl
@[simp] theorem wetOp_carrierPhase : (wetOp s).carrierPhase = s.carrierPhase := rfl
@[simp] theorem wetOp_mixFrac : (wetOp s).mixFrac = s.mixFrac := rfl
@[simp] theorem wetOp_amountFrac : (wetOp s).amountFrac = s.amountFrac := rfl
@[simp] theorem wetOp_lfoInc : (wetOp s).lfoInc = s.lfoInc := rfl
@[simp] theorem wetOp_out : (wetOp s).out = s.out := rfl
@[simp] theorem wetOp_tmp : (wetOp s).tmp = { s.tmp with wet := fmul s.tmp.ring s.mixFrac, slot := 10 } := rfl
@[simp] theorem wetOp_inPort : (wetOp s).inPort = s.inPort := rfl
@[simp] theorem wetOp_outReady : (wetOp s).outReady = s.outReady := rfl
@[simp] theorem wetOp_pending : (wetOp s).pending = s.pending := rfl
@[simp] theorem wetOp_reads : (wetOp s).reads = s.reads := rfl
@[simp] theorem wetOp_received : (wetOp s).received = s.received := rfl
@[simp] theorem wetOp_freeCount : (wetOp s).freeCount = s.freeCount := rfl

/-! ### `xfadeOp` -/
@[simp] theorem xfadeOp_cfg : (xfadeOp s).cfg = s.cfg := rfl
@[simp] theorem xfadeOp_runState : (xfadeOp s).runState = s.runState := rfl
@[simp] theorem xfadeOp_truncated : (xfadeOp s).truncated = s.truncated := rfl
@[simp] theorem xfadeOp_errCause : (xfadeOp s).errCause = s.errCause := rfl
@[simp] theorem xfadeOp_sampleRate : (xfadeOp s).sampleRate = s.sampleRate := rfl
@[simp] theorem xfadeOp_sampleLength : (xfadeOp s).sampleLength = s.sampleLength := rfl
@[simp] theorem xfadeOp_mix : (xfadeOp s).mix = s.mix := rfl
@[simp] theorem xfadeOp_lfoWaveform : (xfadeOp s).lfoWaveform = s.lfoWaveform := rfl
@[simp] theorem xfadeOp_amount : (xfadeOp s).amount = s.amount := rfl
@[simp] theorem xfadeOp_rate : (xfadeOp s).rate = s.rate := rfl
@[simp] theorem xfadeOp_frequency : (xfadeOp s).frequency = s.frequency := rfl
@[simp] theorem xfadeOp_index : (xfadeOp s).index = s.index := rfl
@[simp] theorem xfadeOp_lfoPhase : (xfadeOp s).lfoPhase = s.lfoPhase := rfl
@[simp] theorem xfadeOp_carrierPhase : (xfadeOp s).carrierPhase = s.carrierPhase := rfl
@[simp] theorem xfadeOp_mixFrac : (xfadeOp s).mixFrac = s.mixFrac := rfl
@[simp] theorem xfadeOp_amountFrac : (xfadeOp s).amountFrac = s.amountFrac := rfl
@[simp] theorem xfadeOp_lfoInc : (xfadeOp s).lfoInc = s.lfoInc := rfl
@[simp] theorem xfadeOp_out : (xfadeOp s).out = s.out := rfl
@[simp] theorem xfadeOp_tmp : (xfadeOp s).tmp = { s.tmp with mixed := fadd s.tmp.dry s.tmp.wet, slot := 11 } := rfl
@[simp] theorem xfadeOp_inPort : (xfadeOp s).inPort = s.inPort := rfl
@[simp] theorem xfadeOp_outReady : (xfadeOp s).outReady = s.outReady := rfl
@[simp] theorem xfadeOp_pending : (xfadeOp s).pending = s.pending := rfl
@[simp] theorem xfadeOp_reads : (xfadeOp s).reads = s.reads := rfl
@[simp] theorem xfadeOp_received : (xfadeOp s).received = s.received := rfl
@[simp] theorem xfadeOp_freeCount : (xfadeOp s).freeCount = s.freeCount := rfl

/-! ### `truncOp` -/
@[simp] theorem truncOp_cfg : (truncOp s).cfg = s.cfg := rfl
@[simp] theorem truncOp_runState : (truncOp s).runState = s.runState := rfl
@[simp] theorem truncOp_truncated : (truncOp s).truncated = s.truncated := rfl
@[simp] theorem truncOp_errCause : (truncOp s).errCause = s.errCause := rfl
@[simp] theorem truncOp_sampleRate : (truncOp s).sampleRate = s.sampleRate := rfl
@[simp] theorem truncOp_sampleLength : (truncOp s).sampleLength = s.sampleLength := rfl
@[simp] theorem truncOp_mix : (truncOp s).mix = s.mix := rfl
@[simp] theorem truncOp_lfoWaveform : (truncOp s).lfoWaveform = s.lfoWaveform := rfl
@[simp] theorem truncOp_amount : (truncOp s).amount = s.amount := rfl
@[simp] theorem truncOp_rate : (truncOp s).rate = s.rate := rfl
@[simp] theorem truncOp_frequency : (truncOp s).frequency = s.frequency := rfl
@[simp] theorem truncOp_index : (truncOp s).index = s.index := rfl
@[simp] theorem truncOp_lfoPhase : (truncOp s).lfoPhase = s.lfoPhase := rfl
@[simp] theorem truncOp_carrierPhase : (truncOp s).carrierPhase = s.carrierPhase := rfl
@[simp] theorem truncOp_mixFrac : (truncOp s).mixFrac = s.mixFrac := rfl
@[simp] theorem truncOp_amountFrac : (truncOp s).amountFrac = s.amountFrac := rfl
@[simp] theorem truncOp_lfoInc : (truncOp s).lfoInc = s.lfoInc := rfl
@[simp] theorem truncOp_out : (truncOp s).out = s.out := rfl
@[simp] theorem truncOp_tmp : (truncOp s).tmp = { s.tmp with v := f2i s.cfg.sampleBits s.tmp.mixed, slot := 12 } := rfl
@[simp] theorem truncOp_inPort : (truncOp s).inPort = s.inPort := rfl
@[simp] theorem truncOp_outReady : (truncOp s).outReady = s.outReady := rfl
@[simp] theorem truncOp_pending : (truncOp s).pending = s.pending := rfl
@[simp] theorem truncOp_reads : (truncOp s).reads = s.reads := rfl
@[simp] theorem truncOp_received : (truncOp s).received = s.received := rfl
@[simp] theorem truncOp_freeCount : (truncOp s).freeCount = s.freeCount := rfl

/-! ### `outPutOp` -/
@[simp] theorem outPutOp_cfg : (outPutOp s).cfg = s.cfg := rfl
@[simp] theorem outPutOp_runState : (outPutOp s).runState = stateAfterPut s.index s.sampleLength s.runState := rfl
@[simp] theorem outPutOp_truncated : (outPutOp s).truncated = s.truncated := rfl
@[simp] theorem outPutOp_errCause : (outPutOp s).errCause = s.errCause := rfl
@[simp] theorem outPutOp_sampleRate : (outPutOp s).sampleRate = s.sampleRate := rfl
@[simp] theorem outPutOp_sampleLength : (outPutOp s).sampleLength = s.sampleLength := rfl
@[simp] theorem outPutOp_mix : (outPutOp s).mix = s.mix := rfl
@[simp] theorem outPutOp_lfoWaveform : (outPutOp s).lfoWaveform = s.lfoWaveform := rfl
@[simp] theorem outPutOp_amount : (outPutOp s).amount = s.amount := rfl
@[simp] theorem outPutOp_rate : (outPutOp s).rate = s.rate := rfl
@[simp] theorem outPutOp_frequency : (outPutOp s).frequency = s.frequency := rfl
@[simp] theorem outPutOp_index : (outPutOp s).index = s.index + 1 := rfl
@[simp] theorem outPutOp_lfoPhase : (outPutOp s).lfoPhase = s.lfoPhase := rfl
@[simp] theorem outPutOp_carrierPhase : (outPutOp s).carrierPhase = s.carrierPhase := rfl
@[simp] theorem outPutOp_mixFrac : (outPutOp s).mixFrac = s.mixFrac := rfl
@[simp] theorem outPutOp_amountFrac : (outPutOp s).amountFrac = s.amountFrac := rfl
@[simp] theorem outPutOp_lfoInc : (outPutOp s).lfoInc = s.lfoInc := rfl
@[simp] theorem outPutOp_out : (outPutOp s).out = s.out ++ [s.tmp.v] := rfl
@[simp] theorem outPutOp_tmp : (outPutOp s).tmp = { s.tmp with slot := 0 } := rfl
@[simp] theorem outPutOp_inPort : (outPutOp s).inPort = s.inPort := rfl
@[simp] theorem outPutOp_outReady : (outPutOp s).outReady = s.outReady := rfl
@[simp] theorem outPutOp_pending : (outPutOp s).pending = s.pending := rfl
@[simp] theorem outPutOp_reads : (outPutOp s).reads = s.reads := rfl
@[simp] theorem outPutOp_received : (outPutOp s).received = s.received ++ [s.tmp.v] := rfl
@[simp] theorem outPutOp_freeCount : (outPutOp s).freeCount = s.freeCount := rfl

/-! ### `stopExhOp` -/
@[simp] theorem stopExhOp_cfg : (stopExhOp s).cfg = s.cfg := rfl
@[simp] theorem stopExhOp_runState : (stopExhOp s).runState = .done := rfl
@[simp] theorem stopExhOp_truncated : (stopExhOp s).truncated = true := rfl
@[simp] theorem stopExhOp_errCause : (stopExhOp s).errCause = s.errCause := rfl
@[simp] theorem stopExhOp_sampleRate : (stopExhOp s).sampleRate = s.sampleRate := rfl
@[simp] theorem stopExhOp_sampleLength : (stopExhOp s).sampleLength = s.sampleLength := rfl
@[simp] theorem stopExhOp_mix : (stopExhOp s).mix = s.mix := rfl
@[simp] theorem stopExhOp_lfoWaveform : (stopExhOp s).lfoWaveform = s.lfoWaveform := rfl
@[simp] theorem stopExhOp_amount : (stopExhOp s).amount = s.amount := rfl
@[simp] theorem stopExhOp_rate : (stopExhOp s).rate = s.rate := rfl
@[simp] theorem stopExhOp_frequency : (stopExhOp s).frequency = s.frequency := rfl
@[simp] theorem stopExhOp_index : (stopExhOp s).index = s.index := rfl
@[simp] theorem stopExhOp_lfoPhase : (stopExhOp s).lfoPhase = s.lfoPhase := rfl
@[simp] theorem stopExhOp_carrierPhase : (stopExhOp s).carrierPhase = s.carrierPhase := rfl
@[simp] theorem stopExhOp_mixFrac : (stopExhOp s).mixFrac = s.mixFrac := rfl
@[simp] theorem stopExhOp_amountFrac : (stopExhOp s).amountFrac = s.amountFrac := rfl
@[simp] theorem stopExhOp_lfoInc : (stopExhOp s).lfoInc = s.lfoInc := rfl
@[simp] theorem stopExhOp_out : (stopExhOp s).out = s.out := rfl
@[simp] theorem stopExhOp_tmp : (stopExhOp s).tmp = { s.tmp with slot := 0 } := rfl
@[simp] theorem stopExhOp_inPort : (stopExhOp s).inPort = s.inPort := rfl
@[simp] theorem stopExhOp_outReady : (stopExhOp s).outReady = s.outReady := rfl
@[simp] theorem stopExhOp_pending : (stopExhOp s).pending = s.pending := rfl
@[simp] theorem stopExhOp_reads : (stopExhOp s).reads = s.reads := rfl
@[simp] theorem stopExhOp_received : (stopExhOp s).received = s.received := rfl
@[simp] theorem stopExhOp_freeCount : (stopExhOp s).freeCount = s.freeCount := rfl

/-! ### `beginStep` -/
@[simp] theorem beginStep_cfg (o : Offer) : (beginStep o s).cfg = s.cfg := rfl
@[simp] theorem beginStep_runState (o : Offer) : (beginStep o s).runState = s.runState := rfl
@[simp] theorem beginStep_truncated (o : Offer) : (beginStep o s).truncated = s.truncated := rfl
@[simp] theorem beginStep_errCause (o : Offer) : (beginStep o s).errCause = s.errCause := rfl
@[simp] theorem beginStep_sampleRate (o : Offer) : (beginStep o s).sampleRate = s.sampleRate := rfl
@[simp] theorem beginStep_sampleLength (o : Offer) : (beginStep o s).sampleLength = s.sampleLength := rfl
@[simp] theorem beginStep_mix (o : Offer) : (beginStep o s).mix = s.mix := rfl
@[simp] theorem beginStep_lfoWaveform (o : Offer) : (beginStep o s).lfoWaveform = s.lfoWaveform := rfl
@[simp] theorem beginStep_amount (o : Offer) : (beginStep o s).amount = s.amount := rfl
@[simp] theorem beginStep_rate (o : Offer) : (beginStep o s).rate = s.rate := rfl
@[simp] theorem beginStep_frequency (o : Offer) : (beginStep o s).frequency = s.frequency := rfl
@[simp] theorem beginStep_index (o : Offer) : (beginStep o s).index = s.index := rfl
@[simp] theorem beginStep_lfoPhase (o : Offer) : (beginStep o s).lfoPhase = s.lfoPhase := rfl
@[simp] theorem beginStep_carrierPhase (o : Offer) : (beginStep o s).carrierPhase = s.carrierPhase := rfl
@[simp] theorem beginStep_mixFrac (o : Offer) : (beginStep o s).mixFrac = s.mixFrac := rfl
@[simp] theorem beginStep_amountFrac (o : Offer) : (beginStep o s).amountFrac = s.amountFrac := rfl
@[simp] theorem beginStep_lfoInc (o : Offer) : (beginStep o s).lfoInc = s.lfoInc := rfl
@[simp] theorem beginStep_out (o : Offer) : (beginStep o s).out = s.out := rfl
@[simp] theorem beginStep_tmp (o : Offer) : (beginStep o s).tmp = Temps.idle := rfl
@[simp] theorem beginStep_inPort (o : Offer) : (beginStep o s).inPort = o := rfl
@[simp] theorem beginStep_outReady (o : Offer) : (beginStep o s).outReady = s.outReady := rfl
@[simp] theorem beginStep_pending (o : Offer) : (beginStep o s).pending = s.pending := rfl
@[simp] theorem beginStep_reads (o : Offer) : (beginStep o s).reads = s.reads := rfl
@[simp] theorem beginStep_received (o : Offer) : (beginStep o s).received = s.received := rfl
@[simp] theorem beginStep_freeCount (o : Offer) : (beginStep o s).freeCount = s.freeCount := rfl

/-! ### `endStep` -/
@[simp] theorem endStep_cfg : (endStep s).cfg = s.cfg := rfl
@[simp] theorem endStep_runState : (endStep s).runState = s.runState := rfl
@[simp] theorem endStep_truncated : (endStep s).truncated = s.truncated := rfl
@[simp] theorem endStep_errCause : (endStep s).errCause = s.errCause := rfl
@[simp] theorem endStep_sampleRate : (endStep s).sampleRate = s.sampleRate := rfl
@[simp] theorem endStep_sampleLength : (endStep s).sampleLength = s.sampleLength := rfl
@[simp] theorem endStep_mix : (endStep s).mix = s.mix := rfl
@[simp] theorem endStep_lfoWaveform : (endStep s).lfoWaveform = s.lfoWaveform := rfl
@[simp] theorem endStep_amount : (endStep s).amount = s.amount := rfl
@[simp] theorem endStep_rate : (endStep s).rate = s.rate := rfl
@[simp] theorem endStep_frequency : (endStep s).frequency = s.frequency := rfl
@[simp] theorem endStep_index : (endStep s).index = s.index := rfl
@[simp] theorem endStep_lfoPhase : (endStep s).lfoPhase = s.lfoPhase := rfl
@[simp] theorem endStep_carrierPhase : (endStep s).carrierPhase = s.carrierPhase := rfl
@[simp] theorem endStep_mixFrac : (endStep s).mixFrac = s.mixFrac := rfl
@[simp] theorem endStep_amountFrac : (endStep s).amountFrac = s.amountFrac := rfl
@[simp] theorem endStep_lfoInc : (endStep s).lfoInc = s.lfoInc := rfl
@[simp] theorem endStep_out : (endStep s).out = s.out := rfl
@[simp] theorem endStep_tmp : (endStep s).tmp = Temps.idle := rfl
@[simp] theorem endStep_inPort : (endStep s).inPort = .nothing := rfl
@[simp] theorem endStep_outReady : (endStep s).outReady = s.outReady := rfl
@[simp] theorem endStep_pending : (endStep s).pending = s.pending := rfl
@[simp] theorem endStep_reads : (endStep s).reads = s.reads := rfl
@[simp] theorem endStep_received : (endStep s).received = s.received := rfl
@[simp] theorem endStep_freeCount : (endStep s).freeCount = s.freeCount := rfl

/-! ### `clearRun` -/
@[simp] theorem clearRun_cfg : (clearRun s).cfg = s.cfg := rfl
@[simp] theorem clearRun_runState : (clearRun s).runState = s.runState := rfl
@[simp] theorem clearRun_truncated : (clearRun s).truncated = false := rfl
@[simp] theorem clearRun_errCause : (clearRun s).errCause = s.errCause := rfl
@[simp] theorem clearRun_sampleRate : (clearRun s).sampleRate = s.sampleRate := rfl
@[simp] theorem clearRun_sampleLength : (clearRun s).sampleLength = s.sampleLength := rfl
@[simp] theorem clearRun_mix : (clearRun s).mix = s.mix := rfl
@[simp] theorem clearRun_lfoWaveform : (clearRun s).lfoWaveform = s.lfoWaveform := rfl
@[simp] theorem clearRun_amount : (clearRun s).amount = s.amount := rfl
@[simp] theorem clearRun_rate : (clearRun s).rate = s.rate := rfl
@[simp] theorem clearRun_frequency : (clearRun s).frequency = s.frequency := rfl
@[simp] theorem clearRun_index : (clearRun s).index = 0 := rfl
@[simp] theorem clearRun_lfoPhase : (clearRun s).lfoPhase = s.lfoPhase := rfl
@[simp] theorem clearRun_carrierPhase : (clearRun s).carrierPhase = s.carrierPhase := rfl
@[simp] theorem clearRun_mixFrac : (clearRun s).mixFrac = s.mixFrac := rfl
@[simp] theorem clearRun_amountFrac : (clearRun s).amountFrac = s.amountFrac := rfl
@[simp] theorem clearRun_lfoInc : (clearRun s).lfoInc = s.lfoInc := rfl
@[simp] theorem clearRun_out : (clearRun s).out = [] := rfl
@[simp] theorem clearRun_tmp : (clearRun s).tmp = s.tmp := rfl
@[simp] theorem clearRun_inPort : (clearRun s).inPort = s.inPort := rfl
@[simp] theorem clearRun_outReady : (clearRun s).outReady = s.outReady := rfl
@[simp] theorem clearRun_pending : (clearRun s).pending = s.pending := rfl
@[simp] theorem clearRun_reads : (clearRun s).reads = s.reads := rfl
@[simp] theorem clearRun_received : (clearRun s).received = s.received := rfl
@[simp] theorem clearRun_freeCount : (clearRun s).freeCount = s.freeCount := rfl

/-! ### `recordCheck` -/
@[simp] theorem recordCheck_cfg : (recordCheck s).cfg = s.cfg := rfl
@[simp] theorem recordCheck_runState : (recordCheck s).runState = s.runState := rfl
@[simp] theorem recordCheck_truncated : (recordCheck s).truncated = s.truncated := rfl
@[simp] theorem recordCheck_errCause : (recordCheck s).errCause = checkMask s := rfl
@[simp] theorem recordCheck_sampleRate : (recordCheck s).sampleRate = s.sampleRate := rfl
@[simp] theorem recordCheck_sampleLength : (recordCheck s).sampleLength = s.sampleLength := rfl
@[simp] theorem recordCheck_mix : (recordCheck s).mix = s.mix := rfl
@[simp] theorem recordCheck_lfoWaveform : (recordCheck s).lfoWaveform = s.lfoWaveform := rfl
@[simp] theorem recordCheck_amount : (recordCheck s).amount = s.amount := rfl
@[simp] theorem recordCheck_rate : (recordCheck s).rate = s.rate := rfl
@[simp] theorem recordCheck_frequency : (recordCheck s).frequency = s.frequency := rfl
@[simp] theorem recordCheck_index : (recordCheck s).index = s.index := rfl
@[simp] theorem recordCheck_lfoPhase : (recordCheck s).lfoPhase = s.lfoPhase := rfl
@[simp] theorem recordCheck_carrierPhase : (recordCheck s).carrierPhase = s.carrierPhase := rfl
@[simp] theorem recordCheck_mixFrac : (recordCheck s).mixFrac = s.mixFrac := rfl
@[simp] theorem recordCheck_amountFrac : (recordCheck s).amountFrac = s.amountFrac := rfl
@[simp] theorem recordCheck_lfoInc : (recordCheck s).lfoInc = s.lfoInc := rfl
@[simp] theorem recordCheck_out : (recordCheck s).out = s.out := rfl
@[simp] theorem recordCheck_tmp : (recordCheck s).tmp = s.tmp := rfl
@[simp] theorem recordCheck_inPort : (recordCheck s).inPort = s.inPort := rfl
@[simp] theorem recordCheck_outReady : (recordCheck s).outReady = s.outReady := rfl
@[simp] theorem recordCheck_pending : (recordCheck s).pending = s.pending := rfl
@[simp] theorem recordCheck_reads : (recordCheck s).reads = s.reads := rfl
@[simp] theorem recordCheck_received : (recordCheck s).received = s.received := rfl
@[simp] theorem recordCheck_freeCount : (recordCheck s).freeCount = s.freeCount := rfl

/-! ### `initRun` -/
@[simp] theorem initRun_cfg : (initRun s).cfg = s.cfg := rfl
@[simp] theorem initRun_runState : (initRun s).runState = s.runState := rfl
@[simp] theorem initRun_truncated : (initRun s).truncated = s.truncated := rfl
@[simp] theorem initRun_errCause : (initRun s).errCause = s.errCause := rfl
@[simp] theorem initRun_sampleRate : (initRun s).sampleRate = s.sampleRate := rfl
@[simp] theorem initRun_sampleLength : (initRun s).sampleLength = s.sampleLength := rfl
@[simp] theorem initRun_mix : (initRun s).mix = s.mix := rfl
@[simp] theorem initRun_lfoWaveform : (initRun s).lfoWaveform = s.lfoWaveform := rfl
@[simp] theorem initRun_amount : (initRun s).amount = s.amount := rfl
@[simp] theorem initRun_rate : (initRun s).rate = s.rate := rfl
@[simp] theorem initRun_frequency : (initRun s).frequency = s.frequency := rfl
@[simp] theorem initRun_index : (initRun s).index = s.index := rfl
@[simp] theorem initRun_lfoPhase : (initRun s).lfoPhase = f64Zero := rfl
@[simp] theorem initRun_carrierPhase : (initRun s).carrierPhase = f64Zero := rfl
@[simp] theorem initRun_mixFrac : (initRun s).mixFrac = mixFraction s := rfl
@[simp] theorem initRun_amountFrac : (initRun s).amountFrac = amountFraction s := rfl
@[simp] theorem initRun_lfoInc : (initRun s).lfoInc = lfoIncrement s := rfl
@[simp] theorem initRun_out : (initRun s).out = s.out := rfl
@[simp] theorem initRun_tmp : (initRun s).tmp = s.tmp := rfl
@[simp] theorem initRun_inPort : (initRun s).inPort = s.inPort := rfl
@[simp] theorem initRun_outReady : (initRun s).outReady = s.outReady := rfl
@[simp] theorem initRun_pending : (initRun s).pending = s.pending := rfl
@[simp] theorem initRun_reads : (initRun s).reads = s.reads := rfl
@[simp] theorem initRun_received : (initRun s).received = s.received := rfl
@[simp] theorem initRun_freeCount : (initRun s).freeCount = s.freeCount := rfl

/-! ### `enterRun` -/
@[simp] theorem enterRun_cfg : (enterRun s).cfg = s.cfg := rfl
@[simp] theorem enterRun_runState : (enterRun s).runState = if s.sampleLength = 0 then .done else .running := rfl
@[simp] theorem enterRun_truncated : (enterRun s).truncated = s.truncated := rfl
@[simp] theorem enterRun_errCause : (enterRun s).errCause = s.errCause := rfl
@[simp] theorem enterRun_sampleRate : (enterRun s).sampleRate = s.sampleRate := rfl
@[simp] theorem enterRun_sampleLength : (enterRun s).sampleLength = s.sampleLength := rfl
@[simp] theorem enterRun_mix : (enterRun s).mix = s.mix := rfl
@[simp] theorem enterRun_lfoWaveform : (enterRun s).lfoWaveform = s.lfoWaveform := rfl
@[simp] theorem enterRun_amount : (enterRun s).amount = s.amount := rfl
@[simp] theorem enterRun_rate : (enterRun s).rate = s.rate := rfl
@[simp] theorem enterRun_frequency : (enterRun s).frequency = s.frequency := rfl
@[simp] theorem enterRun_index : (enterRun s).index = s.index := rfl
@[simp] theorem enterRun_lfoPhase : (enterRun s).lfoPhase = s.lfoPhase := rfl
@[simp] theorem enterRun_carrierPhase : (enterRun s).carrierPhase = s.carrierPhase := rfl
@[simp] theorem enterRun_mixFrac : (enterRun s).mixFrac = s.mixFrac := rfl
@[simp] theorem enterRun_amountFrac : (enterRun s).amountFrac = s.amountFrac := rfl
@[simp] theorem enterRun_lfoInc : (enterRun s).lfoInc = s.lfoInc := rfl
@[simp] theorem enterRun_out : (enterRun s).out = s.out := rfl
@[simp] theorem enterRun_tmp : (enterRun s).tmp = s.tmp := rfl
@[simp] theorem enterRun_inPort : (enterRun s).inPort = s.inPort := rfl
@[simp] theorem enterRun_outReady : (enterRun s).outReady = s.outReady := rfl
@[simp] theorem enterRun_pending : (enterRun s).pending = s.pending := rfl
@[simp] theorem enterRun_reads : (enterRun s).reads = s.reads := rfl
@[simp] theorem enterRun_received : (enterRun s).received = s.received := rfl
@[simp] theorem enterRun_freeCount : (enterRun s).freeCount = s.freeCount := rfl

/-! ### `raiseConfigError` -/
@[simp] theorem raiseConfigError_cfg : (raiseConfigError s).cfg = s.cfg := rfl
@[simp] theorem raiseConfigError_runState : (raiseConfigError s).runState = .error := rfl
@[simp] theorem raiseConfigError_truncated : (raiseConfigError s).truncated = s.truncated := rfl
@[simp] theorem raiseConfigError_errCause : (raiseConfigError s).errCause = s.errCause := rfl
@[simp] theorem raiseConfigError_sampleRate : (raiseConfigError s).sampleRate = s.sampleRate := rfl
@[simp] theorem raiseConfigError_sampleLength : (raiseConfigError s).sampleLength = s.sampleLength := rfl
@[simp] theorem raiseConfigError_mix : (raiseConfigError s).mix = s.mix := rfl
@[simp] theorem raiseConfigError_lfoWaveform : (raiseConfigError s).lfoWaveform = s.lfoWaveform := rfl
@[simp] theorem raiseConfigError_amount : (raiseConfigError s).amount = s.amount := rfl
@[simp] theorem raiseConfigError_rate : (raiseConfigError s).rate = s.rate := rfl
@[simp] theorem raiseConfigError_frequency : (raiseConfigError s).frequency = s.frequency := rfl
@[simp] theorem raiseConfigError_index : (raiseConfigError s).index = s.index := rfl
@[simp] theorem raiseConfigError_lfoPhase : (raiseConfigError s).lfoPhase = s.lfoPhase := rfl
@[simp] theorem raiseConfigError_carrierPhase : (raiseConfigError s).carrierPhase = s.carrierPhase := rfl
@[simp] theorem raiseConfigError_mixFrac : (raiseConfigError s).mixFrac = s.mixFrac := rfl
@[simp] theorem raiseConfigError_amountFrac : (raiseConfigError s).amountFrac = s.amountFrac := rfl
@[simp] theorem raiseConfigError_lfoInc : (raiseConfigError s).lfoInc = s.lfoInc := rfl
@[simp] theorem raiseConfigError_out : (raiseConfigError s).out = s.out := rfl
@[simp] theorem raiseConfigError_tmp : (raiseConfigError s).tmp = s.tmp := rfl
@[simp] theorem raiseConfigError_inPort : (raiseConfigError s).inPort = s.inPort := rfl
@[simp] theorem raiseConfigError_outReady : (raiseConfigError s).outReady = s.outReady := rfl
@[simp] theorem raiseConfigError_pending : (raiseConfigError s).pending = s.pending := rfl
@[simp] theorem raiseConfigError_reads : (raiseConfigError s).reads = s.reads := rfl
@[simp] theorem raiseConfigError_received : (raiseConfigError s).received = s.received := rfl
@[simp] theorem raiseConfigError_freeCount : (raiseConfigError s).freeCount = s.freeCount := rfl

/-! ### `memWriteOut` -/
@[simp] theorem memWriteOut_cfg (v : Sample) : (memWriteOut v s).cfg = s.cfg := rfl
@[simp] theorem memWriteOut_runState (v : Sample) : (memWriteOut v s).runState = s.runState := rfl
@[simp] theorem memWriteOut_truncated (v : Sample) : (memWriteOut v s).truncated = s.truncated := rfl
@[simp] theorem memWriteOut_errCause (v : Sample) : (memWriteOut v s).errCause = s.errCause := rfl
@[simp] theorem memWriteOut_sampleRate (v : Sample) : (memWriteOut v s).sampleRate = s.sampleRate := rfl
@[simp] theorem memWriteOut_sampleLength (v : Sample) : (memWriteOut v s).sampleLength = s.sampleLength := rfl
@[simp] theorem memWriteOut_mix (v : Sample) : (memWriteOut v s).mix = s.mix := rfl
@[simp] theorem memWriteOut_lfoWaveform (v : Sample) : (memWriteOut v s).lfoWaveform = s.lfoWaveform := rfl
@[simp] theorem memWriteOut_amount (v : Sample) : (memWriteOut v s).amount = s.amount := rfl
@[simp] theorem memWriteOut_rate (v : Sample) : (memWriteOut v s).rate = s.rate := rfl
@[simp] theorem memWriteOut_frequency (v : Sample) : (memWriteOut v s).frequency = s.frequency := rfl
@[simp] theorem memWriteOut_index (v : Sample) : (memWriteOut v s).index = s.index := rfl
@[simp] theorem memWriteOut_lfoPhase (v : Sample) : (memWriteOut v s).lfoPhase = s.lfoPhase := rfl
@[simp] theorem memWriteOut_carrierPhase (v : Sample) : (memWriteOut v s).carrierPhase = s.carrierPhase := rfl
@[simp] theorem memWriteOut_mixFrac (v : Sample) : (memWriteOut v s).mixFrac = s.mixFrac := rfl
@[simp] theorem memWriteOut_amountFrac (v : Sample) : (memWriteOut v s).amountFrac = s.amountFrac := rfl
@[simp] theorem memWriteOut_lfoInc (v : Sample) : (memWriteOut v s).lfoInc = s.lfoInc := rfl
@[simp] theorem memWriteOut_out (v : Sample) : (memWriteOut v s).out = s.out ++ [v] := rfl
@[simp] theorem memWriteOut_tmp (v : Sample) : (memWriteOut v s).tmp = s.tmp := rfl
@[simp] theorem memWriteOut_inPort (v : Sample) : (memWriteOut v s).inPort = s.inPort := rfl
@[simp] theorem memWriteOut_outReady (v : Sample) : (memWriteOut v s).outReady = s.outReady := rfl
@[simp] theorem memWriteOut_pending (v : Sample) : (memWriteOut v s).pending = s.pending := rfl
@[simp] theorem memWriteOut_reads (v : Sample) : (memWriteOut v s).reads = s.reads := rfl
@[simp] theorem memWriteOut_received (v : Sample) : (memWriteOut v s).received = s.received ++ [v] := rfl
@[simp] theorem memWriteOut_freeCount (v : Sample) : (memWriteOut v s).freeCount = s.freeCount := rfl

/-! ### `returnRead` -/
@[simp] theorem returnRead_cfg (d : RegData) : (returnRead d s).cfg = s.cfg := rfl
@[simp] theorem returnRead_runState (d : RegData) : (returnRead d s).runState = s.runState := rfl
@[simp] theorem returnRead_truncated (d : RegData) : (returnRead d s).truncated = s.truncated := rfl
@[simp] theorem returnRead_errCause (d : RegData) : (returnRead d s).errCause = s.errCause := rfl
@[simp] theorem returnRead_sampleRate (d : RegData) : (returnRead d s).sampleRate = s.sampleRate := rfl
@[simp] theorem returnRead_sampleLength (d : RegData) : (returnRead d s).sampleLength = s.sampleLength := rfl
@[simp] theorem returnRead_mix (d : RegData) : (returnRead d s).mix = s.mix := rfl
@[simp] theorem returnRead_lfoWaveform (d : RegData) : (returnRead d s).lfoWaveform = s.lfoWaveform := rfl
@[simp] theorem returnRead_amount (d : RegData) : (returnRead d s).amount = s.amount := rfl
@[simp] theorem returnRead_rate (d : RegData) : (returnRead d s).rate = s.rate := rfl
@[simp] theorem returnRead_frequency (d : RegData) : (returnRead d s).frequency = s.frequency := rfl
@[simp] theorem returnRead_index (d : RegData) : (returnRead d s).index = s.index := rfl
@[simp] theorem returnRead_lfoPhase (d : RegData) : (returnRead d s).lfoPhase = s.lfoPhase := rfl
@[simp] theorem returnRead_carrierPhase (d : RegData) : (returnRead d s).carrierPhase = s.carrierPhase := rfl
@[simp] theorem returnRead_mixFrac (d : RegData) : (returnRead d s).mixFrac = s.mixFrac := rfl
@[simp] theorem returnRead_amountFrac (d : RegData) : (returnRead d s).amountFrac = s.amountFrac := rfl
@[simp] theorem returnRead_lfoInc (d : RegData) : (returnRead d s).lfoInc = s.lfoInc := rfl
@[simp] theorem returnRead_out (d : RegData) : (returnRead d s).out = s.out := rfl
@[simp] theorem returnRead_tmp (d : RegData) : (returnRead d s).tmp = s.tmp := rfl
@[simp] theorem returnRead_inPort (d : RegData) : (returnRead d s).inPort = s.inPort := rfl
@[simp] theorem returnRead_outReady (d : RegData) : (returnRead d s).outReady = s.outReady := rfl
@[simp] theorem returnRead_pending (d : RegData) : (returnRead d s).pending = s.pending := rfl
@[simp] theorem returnRead_reads (d : RegData) : (returnRead d s).reads = s.reads ++ [d] := rfl
@[simp] theorem returnRead_received (d : RegData) : (returnRead d s).received = s.received := rfl
@[simp] theorem returnRead_freeCount (d : RegData) : (returnRead d s).freeCount = s.freeCount := rfl

/-! ### `resetBlock` -/
@[simp] theorem resetBlock_cfg : (resetBlock s).cfg = s.cfg := rfl
@[simp] theorem resetBlock_runState : (resetBlock s).runState = .idle := rfl
@[simp] theorem resetBlock_truncated : (resetBlock s).truncated = false := rfl
@[simp] theorem resetBlock_errCause : (resetBlock s).errCause = 0 := rfl
@[simp] theorem resetBlock_sampleRate : (resetBlock s).sampleRate = 0 := rfl
@[simp] theorem resetBlock_sampleLength : (resetBlock s).sampleLength = 0 := rfl
@[simp] theorem resetBlock_mix : (resetBlock s).mix = 0 := rfl
@[simp] theorem resetBlock_lfoWaveform : (resetBlock s).lfoWaveform = 0 := rfl
@[simp] theorem resetBlock_amount : (resetBlock s).amount = 0 := rfl
@[simp] theorem resetBlock_rate : (resetBlock s).rate = 0 := rfl
@[simp] theorem resetBlock_frequency : (resetBlock s).frequency = 0 := rfl
@[simp] theorem resetBlock_index : (resetBlock s).index = 0 := rfl
@[simp] theorem resetBlock_lfoPhase : (resetBlock s).lfoPhase = 0 := rfl
@[simp] theorem resetBlock_carrierPhase : (resetBlock s).carrierPhase = 0 := rfl
@[simp] theorem resetBlock_mixFrac : (resetBlock s).mixFrac = Config.freeF64 s.freeCount := rfl
@[simp] theorem resetBlock_amountFrac : (resetBlock s).amountFrac = Config.freeF64 (s.freeCount + 1) := rfl
@[simp] theorem resetBlock_lfoInc : (resetBlock s).lfoInc = Config.freeF64 (s.freeCount + 2) := rfl
@[simp] theorem resetBlock_out : (resetBlock s).out = [] := rfl
@[simp] theorem resetBlock_tmp : (resetBlock s).tmp = Temps.idle := rfl
@[simp] theorem resetBlock_inPort : (resetBlock s).inPort = s.inPort := rfl
@[simp] theorem resetBlock_outReady : (resetBlock s).outReady = s.outReady := rfl
@[simp] theorem resetBlock_pending : (resetBlock s).pending = s.pending := rfl
@[simp] theorem resetBlock_reads : (resetBlock s).reads = s.reads := rfl
@[simp] theorem resetBlock_received : (resetBlock s).received = s.received := rfl
@[simp] theorem resetBlock_freeCount : (resetBlock s).freeCount = s.freeCount + 3 := rfl

/-! ### `lfoShapeOp` -/
@[simp] theorem lfoShapeOp_cfg : (lfoShapeOp s).cfg = s.cfg := by unfold lfoShapeOp; split <;> rfl
@[simp] theorem lfoShapeOp_runState : (lfoShapeOp s).runState = s.runState := by unfold lfoShapeOp; split <;> rfl
@[simp] theorem lfoShapeOp_truncated : (lfoShapeOp s).truncated = s.truncated := by unfold lfoShapeOp; split <;> rfl
@[simp] theorem lfoShapeOp_errCause : (lfoShapeOp s).errCause = s.errCause := by unfold lfoShapeOp; split <;> rfl
@[simp] theorem lfoShapeOp_sampleRate : (lfoShapeOp s).sampleRate = s.sampleRate := by unfold lfoShapeOp; split <;> rfl
@[simp] theorem lfoShapeOp_sampleLength : (lfoShapeOp s).sampleLength = s.sampleLength := by unfold lfoShapeOp; split <;> rfl
@[simp] theorem lfoShapeOp_mix : (lfoShapeOp s).mix = s.mix := by unfold lfoShapeOp; split <;> rfl
@[simp] theorem lfoShapeOp_lfoWaveform : (lfoShapeOp s).lfoWaveform = s.lfoWaveform := by unfold lfoShapeOp; split <;> rfl
@[simp] theorem lfoShapeOp_amount : (lfoShapeOp s).amount = s.amount := by unfold lfoShapeOp; split <;> rfl
@[simp] theorem lfoShapeOp_rate : (lfoShapeOp s).rate = s.rate := by unfold lfoShapeOp; split <;> rfl
@[simp] theorem lfoShapeOp_frequency : (lfoShapeOp s).frequency = s.frequency := by unfold lfoShapeOp; split <;> rfl
@[simp] theorem lfoShapeOp_index : (lfoShapeOp s).index = s.index := by unfold lfoShapeOp; split <;> rfl
@[simp] theorem lfoShapeOp_lfoPhase : (lfoShapeOp s).lfoPhase = s.lfoPhase := by unfold lfoShapeOp; split <;> rfl
@[simp] theorem lfoShapeOp_carrierPhase : (lfoShapeOp s).carrierPhase = s.carrierPhase := by unfold lfoShapeOp; split <;> rfl
@[simp] theorem lfoShapeOp_mixFrac : (lfoShapeOp s).mixFrac = s.mixFrac := by unfold lfoShapeOp; split <;> rfl
@[simp] theorem lfoShapeOp_amountFrac : (lfoShapeOp s).amountFrac = s.amountFrac := by unfold lfoShapeOp; split <;> rfl
@[simp] theorem lfoShapeOp_lfoInc : (lfoShapeOp s).lfoInc = s.lfoInc := by unfold lfoShapeOp; split <;> rfl
@[simp] theorem lfoShapeOp_out : (lfoShapeOp s).out = s.out := by unfold lfoShapeOp; split <;> rfl
@[simp] theorem lfoShapeOp_inPort : (lfoShapeOp s).inPort = s.inPort := by unfold lfoShapeOp; split <;> rfl
@[simp] theorem lfoShapeOp_outReady : (lfoShapeOp s).outReady = s.outReady := by unfold lfoShapeOp; split <;> rfl
@[simp] theorem lfoShapeOp_pending : (lfoShapeOp s).pending = s.pending := by unfold lfoShapeOp; split <;> rfl
@[simp] theorem lfoShapeOp_reads : (lfoShapeOp s).reads = s.reads := by unfold lfoShapeOp; split <;> rfl
@[simp] theorem lfoShapeOp_received : (lfoShapeOp s).received = s.received := by unfold lfoShapeOp; split <;> rfl
@[simp] theorem lfoShapeOp_freeCount : (lfoShapeOp s).freeCount = s.freeCount := by unfold lfoShapeOp; split <;> rfl

/-! ### `inTakeOp` -/
@[simp] theorem inTakeOp_cfg : (inTakeOp s).cfg = s.cfg := by unfold inTakeOp; split <;> rfl
@[simp] theorem inTakeOp_runState : (inTakeOp s).runState = s.runState := by unfold inTakeOp; split <;> rfl
@[simp] theorem inTakeOp_truncated : (inTakeOp s).truncated = s.truncated := by unfold inTakeOp; split <;> rfl
@[simp] theorem inTakeOp_errCause : (inTakeOp s).errCause = s.errCause := by unfold inTakeOp; split <;> rfl
@[simp] theorem inTakeOp_sampleRate : (inTakeOp s).sampleRate = s.sampleRate := by unfold inTakeOp; split <;> rfl
@[simp] theorem inTakeOp_sampleLength : (inTakeOp s).sampleLength = s.sampleLength := by unfold inTakeOp; split <;> rfl
@[simp] theorem inTakeOp_mix : (inTakeOp s).mix = s.mix := by unfold inTakeOp; split <;> rfl
@[simp] theorem inTakeOp_lfoWaveform : (inTakeOp s).lfoWaveform = s.lfoWaveform := by unfold inTakeOp; split <;> rfl
@[simp] theorem inTakeOp_amount : (inTakeOp s).amount = s.amount := by unfold inTakeOp; split <;> rfl
@[simp] theorem inTakeOp_rate : (inTakeOp s).rate = s.rate := by unfold inTakeOp; split <;> rfl
@[simp] theorem inTakeOp_frequency : (inTakeOp s).frequency = s.frequency := by unfold inTakeOp; split <;> rfl
@[simp] theorem inTakeOp_index : (inTakeOp s).index = s.index := by unfold inTakeOp; split <;> rfl
@[simp] theorem inTakeOp_lfoPhase : (inTakeOp s).lfoPhase = s.lfoPhase := by unfold inTakeOp; split <;> rfl
@[simp] theorem inTakeOp_carrierPhase : (inTakeOp s).carrierPhase = s.carrierPhase := by unfold inTakeOp; split <;> rfl
@[simp] theorem inTakeOp_mixFrac : (inTakeOp s).mixFrac = s.mixFrac := by unfold inTakeOp; split <;> rfl
@[simp] theorem inTakeOp_amountFrac : (inTakeOp s).amountFrac = s.amountFrac := by unfold inTakeOp; split <;> rfl
@[simp] theorem inTakeOp_lfoInc : (inTakeOp s).lfoInc = s.lfoInc := by unfold inTakeOp; split <;> rfl
@[simp] theorem inTakeOp_out : (inTakeOp s).out = s.out := by unfold inTakeOp; split <;> rfl
@[simp] theorem inTakeOp_outReady : (inTakeOp s).outReady = s.outReady := by unfold inTakeOp; split <;> rfl
@[simp] theorem inTakeOp_pending : (inTakeOp s).pending = s.pending := by unfold inTakeOp; split <;> rfl
@[simp] theorem inTakeOp_reads : (inTakeOp s).reads = s.reads := by unfold inTakeOp; split <;> rfl
@[simp] theorem inTakeOp_received : (inTakeOp s).received = s.received := by unfold inTakeOp; split <;> rfl
@[simp] theorem inTakeOp_freeCount : (inTakeOp s).freeCount = s.freeCount := by unfold inTakeOp; split <;> rfl

/-! ### `writeParam` and `takeRequest` -/
@[simp] theorem writeParam_cfg (r : Reg) (d : BitVec 64) : (writeParam r d s).cfg = s.cfg := by cases r <;> rfl
@[simp] theorem writeParam_runState (r : Reg) (d : BitVec 64) : (writeParam r d s).runState = s.runState := by cases r <;> rfl
@[simp] theorem writeParam_truncated (r : Reg) (d : BitVec 64) : (writeParam r d s).truncated = s.truncated := by cases r <;> rfl
@[simp] theorem writeParam_errCause (r : Reg) (d : BitVec 64) : (writeParam r d s).errCause = s.errCause := by cases r <;> rfl
@[simp] theorem writeParam_index (r : Reg) (d : BitVec 64) : (writeParam r d s).index = s.index := by cases r <;> rfl
@[simp] theorem writeParam_lfoPhase (r : Reg) (d : BitVec 64) : (writeParam r d s).lfoPhase = s.lfoPhase := by cases r <;> rfl
@[simp] theorem writeParam_carrierPhase (r : Reg) (d : BitVec 64) : (writeParam r d s).carrierPhase = s.carrierPhase := by cases r <;> rfl
@[simp] theorem writeParam_mixFrac (r : Reg) (d : BitVec 64) : (writeParam r d s).mixFrac = s.mixFrac := by cases r <;> rfl
@[simp] theorem writeParam_amountFrac (r : Reg) (d : BitVec 64) : (writeParam r d s).amountFrac = s.amountFrac := by cases r <;> rfl
@[simp] theorem writeParam_lfoInc (r : Reg) (d : BitVec 64) : (writeParam r d s).lfoInc = s.lfoInc := by cases r <;> rfl
@[simp] theorem writeParam_out (r : Reg) (d : BitVec 64) : (writeParam r d s).out = s.out := by cases r <;> rfl
@[simp] theorem writeParam_tmp (r : Reg) (d : BitVec 64) : (writeParam r d s).tmp = s.tmp := by cases r <;> rfl
@[simp] theorem writeParam_inPort (r : Reg) (d : BitVec 64) : (writeParam r d s).inPort = s.inPort := by cases r <;> rfl
@[simp] theorem writeParam_outReady (r : Reg) (d : BitVec 64) : (writeParam r d s).outReady = s.outReady := by cases r <;> rfl
@[simp] theorem writeParam_pending (r : Reg) (d : BitVec 64) : (writeParam r d s).pending = s.pending := by cases r <;> rfl
@[simp] theorem writeParam_reads (r : Reg) (d : BitVec 64) : (writeParam r d s).reads = s.reads := by cases r <;> rfl
@[simp] theorem writeParam_received (r : Reg) (d : BitVec 64) : (writeParam r d s).received = s.received := by cases r <;> rfl
@[simp] theorem writeParam_freeCount (r : Reg) (d : BitVec 64) : (writeParam r d s).freeCount = s.freeCount := by cases r <;> rfl
@[simp] theorem takeRequest_cfg (r : Request) (rest : List Request) : (takeRequest r rest s).cfg = s.cfg := by cases r <;> rfl
@[simp] theorem takeRequest_runState (r : Request) (rest : List Request) : (takeRequest r rest s).runState = s.runState := by cases r <;> rfl
@[simp] theorem takeRequest_truncated (r : Request) (rest : List Request) : (takeRequest r rest s).truncated = s.truncated := by cases r <;> rfl
@[simp] theorem takeRequest_errCause (r : Request) (rest : List Request) : (takeRequest r rest s).errCause = s.errCause := by cases r <;> rfl
@[simp] theorem takeRequest_sampleRate (r : Request) (rest : List Request) : (takeRequest r rest s).sampleRate = s.sampleRate := by cases r <;> rfl
@[simp] theorem takeRequest_sampleLength (r : Request) (rest : List Request) : (takeRequest r rest s).sampleLength = s.sampleLength := by cases r <;> rfl
@[simp] theorem takeRequest_mix (r : Request) (rest : List Request) : (takeRequest r rest s).mix = s.mix := by cases r <;> rfl
@[simp] theorem takeRequest_lfoWaveform (r : Request) (rest : List Request) : (takeRequest r rest s).lfoWaveform = s.lfoWaveform := by cases r <;> rfl
@[simp] theorem takeRequest_amount (r : Request) (rest : List Request) : (takeRequest r rest s).amount = s.amount := by cases r <;> rfl
@[simp] theorem takeRequest_rate (r : Request) (rest : List Request) : (takeRequest r rest s).rate = s.rate := by cases r <;> rfl
@[simp] theorem takeRequest_frequency (r : Request) (rest : List Request) : (takeRequest r rest s).frequency = s.frequency := by cases r <;> rfl
@[simp] theorem takeRequest_index (r : Request) (rest : List Request) : (takeRequest r rest s).index = s.index := by cases r <;> rfl
@[simp] theorem takeRequest_lfoPhase (r : Request) (rest : List Request) : (takeRequest r rest s).lfoPhase = s.lfoPhase := by cases r <;> rfl
@[simp] theorem takeRequest_carrierPhase (r : Request) (rest : List Request) : (takeRequest r rest s).carrierPhase = s.carrierPhase := by cases r <;> rfl
@[simp] theorem takeRequest_mixFrac (r : Request) (rest : List Request) : (takeRequest r rest s).mixFrac = s.mixFrac := by cases r <;> rfl
@[simp] theorem takeRequest_amountFrac (r : Request) (rest : List Request) : (takeRequest r rest s).amountFrac = s.amountFrac := by cases r <;> rfl
@[simp] theorem takeRequest_lfoInc (r : Request) (rest : List Request) : (takeRequest r rest s).lfoInc = s.lfoInc := by cases r <;> rfl
@[simp] theorem takeRequest_out (r : Request) (rest : List Request) : (takeRequest r rest s).out = s.out := by cases r <;> rfl
@[simp] theorem takeRequest_tmp (r : Request) (rest : List Request) : (takeRequest r rest s).tmp = s.tmp := by cases r <;> rfl
@[simp] theorem takeRequest_pending (r : Request) (rest : List Request) : (takeRequest r rest s).pending = rest := by cases r <;> rfl
@[simp] theorem takeRequest_reads (r : Request) (rest : List Request) : (takeRequest r rest s).reads = s.reads := by cases r <;> rfl
@[simp] theorem takeRequest_received (r : Request) (rest : List Request) : (takeRequest r rest s).received = s.received := by cases r <;> rfl
@[simp] theorem takeRequest_freeCount (r : Request) (rest : List Request) : (takeRequest r rest s).freeCount = s.freeCount := by cases r <;> rfl
@[simp] theorem takeRequest_stream_inPort (sel : BitVec 2) (d : BitVec 32) (b : Bool) (rest : List Request) :
    (takeRequest (.stream sel d b) rest s).inPort = offerOf sel d := rfl
@[simp] theorem takeRequest_stream_outReady (sel : BitVec 2) (d : BitVec 32) (b : Bool) (rest : List Request) :
    (takeRequest (.stream sel d b) rest s).outReady = b := rfl
theorem takeRequest_of_not_stream {r : Request} (rest : List Request) (h : ∀ sel d b, r ≠ .stream sel d b) :
    takeRequest r rest s = { s with pending := rest } := by
  cases r <;> first | rfl | exact absurd rfl (h _ _ _)

end Sys2Proof.Machine
end

