-- ==== Sys2Proof/Laws/Ops.lean ====
section
/-! SUPPORT. What each shared operation can do, said once: the two halves of a STEP, START, the commands, host writes,
the taking of a request, and one step of the machine. -/

namespace Sys2Proof.Machine

/-! ### The halves of a STEP -/

/-- The LFO value of a STEP whose advanced phase is `p` (R79, R80). -/
def lfoValue (w : Bool) (p : F64) : F64 := if w then (if ge0 (fsin p) then f64One else f64Zero) else fsin p

/-- Slot 1 writes `lfo` by the waveform bit. -/
theorem lfoShapeOp_eq (s : State) :
    lfoShapeOp s = { s with tmp := { s.tmp with lfo := lfoValue (waveBit s) s.lfoPhase, slot := 2 } } := by
  unfold lfoShapeOp lfoValue
  cases waveBit s
  · rw [if_neg Bool.false_ne_true, if_neg Bool.false_ne_true, lfoSinOp]
  · rw [if_pos rfl, if_pos rfl, lfoSqrOp]

/-- Slots 0 to 5 write the two phases and temporaries, and nothing else. -/
theorem oscillators_eq (s : State) :
    let p := wrap (fadd s.lfoPhase s.lfoInc)
    let lfo := lfoValue (waveBit s) p
    let exc := excursion lfo s.frequency s.amountFrac
    let cinc := carrierIncrement s.frequency exc (rateOperand s)
    let c := wrap (fadd s.carrierPhase cinc)
    oscillators s = { s with lfoPhase := p, carrierPhase := c,
                             tmp := { s.tmp with lfo := lfo, exc := exc, cinc := cinc, car := fsin c, slot := 6 } } := by
  simp only [oscillators, lfoShapeOp_eq, carSinOp, carAdvOp, carIncOp, excOp, lfoAdvOp, waveBit, rateOperand]

/-- Slots 7 to 11 write temporaries, and nothing else. -/
theorem mixer_eq (s : State) :
    let dry := dryProduct s.tmp.sf s.mixFrac
    let ring := fmul s.tmp.sf s.tmp.car
    let wet := fmul ring s.mixFrac
    let mixed := fadd dry wet
    mixer s = { s with tmp := { s.tmp with dry := dry, ring := ring, wet := wet, mixed := mixed,
                                           v := f2i s.cfg.sampleBits mixed, slot := 12 } } := by
  simp only [mixer, truncOp, xfadeOp, wetOp, ringOp, dryOp]

theorem inTakeOp_sample {s : State} {d : BitVec 32} (h : s.inPort = .sample d) :
    inTakeOp s = { s with inPort := .nothing, tmp := { s.tmp with sf := sampleOperand s d, slot := 7 } } := by
  rw [inTakeOp, h]

theorem inTakeOp_endOfInput {s : State} (h : s.inPort = .endOfInput) :
    inTakeOp s = { s with tmp := { s.tmp with slot := 13 } } := by
  rw [inTakeOp, h]

/-- The oscillators leave what the input port presents to IN_TAKE. -/
theorem oscillators_inPort (s : State) : (oscillators s).inPort = s.inPort := by
  rw [oscillators_eq]

/-! ### The two STEPs and the ports -/

/-- Slots 0 to 11 write the two phases and temporaries, `v` among them, and consume the offered sample. -/
theorem computeResult_eq (d : BitVec 32) (s : State) :
    let p := wrap (fadd s.lfoPhase s.lfoInc)
    let exc := excursion (lfoValue (waveBit s) p) s.frequency s.amountFrac
    let c := wrap (fadd s.carrierPhase (carrierIncrement s.frequency exc (rateOperand s)))
    let sf := sampleOperand s d
    let wet := fmul (fmul sf (fsin c)) s.mixFrac
    ∃ k : Temps, k.v = f2i s.cfg.sampleBits (fadd (dryProduct sf s.mixFrac) wet) ∧
      computeResult d s = { s with lfoPhase := p, carrierPhase := c, inPort := .nothing, tmp := k } := by
  rw [computeResult, inTakeOp_sample (s := oscillators (beginStep (.sample d) s)) (d := d)
    (by rw [oscillators_inPort]; rfl), mixer_eq, oscillators_eq]
  exact ⟨_, rfl, rfl⟩

/-- STEP.TAKE runs slots 0 to 12, or waits. -/
theorem execStepTake_cases (d : BitVec 32) (s : State) :
    (takeEnabled s = true ∧ execStepTake d s = .next (endStep (outPutOp (computeResult d s)))) ∨
    (takeEnabled s = false ∧ execStepTake d s = .next s) := by
  cases h : takeEnabled s <;> simp [execStepTake, h]

/-- STEP.END runs slots 0 to 6 and 13, or waits. -/
theorem execStepEnd_cases (s : State) :
    (endEnabled s = true ∧
      execStepEnd s = .next (endStep (stopExhOp (inTakeOp (oscillators (beginStep .endOfInput s)))))) ∨
    (endEnabled s = false ∧ execStepEnd s = .next s) := by
  cases h : endEnabled s <;> simp [execStepEnd, h]

theorem takeEnabled_iff (s : State) : takeEnabled s = true ↔ s.runState = .running ∧ s.outReady = true := by
  simp [takeEnabled]

theorem endEnabled_iff (s : State) : endEnabled s = true ↔ s.runState = .running := by
  simp [endEnabled]

/-- The engine by itself waits unless `in_ready` is high. -/
theorem engineStep_waits {s : State} (h : inReady s = false) : engineStep s = .next s := by
  unfold inReady at h
  unfold engineStep
  split
  · rfl
  · rename_i hp; rw [hp] at h; simp [execStepTake, show takeEnabled s = false from h]
  · rename_i hp; rw [hp] at h; simp [execStepEnd, show endEnabled s = false from h]

/-- The engine by itself takes the standing offer as the operation of the opcode table does. -/
theorem engineStep_cases (s : State) :
    (s.inPort = .nothing ∧ engineStep s = .next s) ∨
    (∃ d, s.inPort = .sample d ∧ engineStep s = exec (.stepTake d) s) ∨
    (s.inPort = .endOfInput ∧ engineStep s = exec .stepEnd s) := by
  unfold engineStep
  cases h : s.inPort with
  | nothing => exact .inl ⟨rfl, rfl⟩
  | sample d => exact .inr (.inl ⟨d, rfl, rfl⟩)
  | endOfInput => exact .inr (.inr ⟨rfl, rfl⟩)

/-! ### START and the commands -/

/-- START does one of three things. -/
theorem startRun_cases (s : State) :
    (s.runState = .running ∧ startRun s = s) ∨
    (s.runState ≠ .running ∧ checkMask s ≠ 0 ∧
      startRun s = { s with index := 0, truncated := false, out := [], errCause := checkMask s, runState := .error }) ∨
    (s.runState ≠ .running ∧ checkMask s = 0 ∧
      startRun s = { s with index := 0, truncated := false, out := [], errCause := 0,
                            mixFrac := mixFraction s, amountFrac := amountFraction s, lfoPhase := f64Zero,
                            carrierPhase := f64Zero, lfoInc := lfoIncrement s,
                            runState := if s.sampleLength = 0 then .done else .running }) := by
  by_cases hr : s.runState = .running
  · exact .inl ⟨hr, by rw [startRun, if_pos hr]⟩
  · have hc : (recordCheck (clearRun s)).errCause = checkMask s := rfl
    by_cases hm : checkMask s = 0
    · refine .inr (.inr ⟨hr, hm, ?_⟩)
      rw [startRun, if_neg hr]; simp only [hc]; rw [if_neg (by simpa using hm), ← hm]; rfl
    · refine .inr (.inl ⟨hr, hm, ?_⟩)
      rw [startRun, if_neg hr]; simp only [hc]; rw [if_pos hm]; rfl

/-- Only the code 01 does anything. -/
theorem runCommand_cases (c : BitVec 2) (s : State) :
    (c = 1#2 ∧ runCommand c s = startRun s) ∨ (c ≠ 1#2 ∧ runCommand c s = s) := by
  by_cases h : c = 1#2
  · exact .inl ⟨h, by rw [runCommand, if_pos h]⟩
  · exact .inr ⟨h, by rw [runCommand, if_neg h]⟩

/-- A host write stores or is dropped. -/
theorem hostWrite_cases (r : Reg) (d : BitVec 64) (s : State) :
    (s.runState = .running ∧ hostWrite r d s = s) ∨ (s.runState ≠ .running ∧ hostWrite r d s = writeParam r d s) := by
  by_cases h : s.runState = .running
  · exact .inl ⟨h, by rw [hostWrite, if_pos h]⟩
  · exact .inr ⟨h, by rw [hostWrite, if_neg h]⟩

/-! ### One step -/

/-- Every operation answers a next state (60_exceptions R122). -/
theorem exec_answers_next (i : Instr) (s : State) : ∃ t, exec i s = .next t := by
  cases i with
  | wrreg num data => cases num <;> exact ⟨_, rfl⟩
  | stepTake d => simp only [exec, execStepTake]; split <;> exact ⟨_, rfl⟩
  | stepEnd => simp only [exec, execStepEnd]; split <;> exact ⟨_, rfl⟩
  | _ => exact ⟨_, rfl⟩

/-- What one step can do. -/
theorem step_cases (s : State) :
    (s.pending = [] ∧ step s = engineStep s) ∨
    (∃ r rest i, s.pending = r :: rest ∧ decode r = .ok i ∧ step s = exec i (takeRequest r rest s)) ∨
    (∃ r rest e, s.pending = r :: rest ∧ decode r = .error e ∧ step s = rejectRequest e (takeRequest r rest s)) := by
  cases hp : s.pending with
  | nil => exact .inl ⟨rfl, by rw [step, hp]⟩
  | cons r rest =>
    right
    cases hd : decode r with
    | ok i => exact .inl ⟨r, rest, i, rfl, hd, by rw [step, hp]; simp only [hd]⟩
    | error e => exact .inr ⟨r, rest, e, rfl, hd, by rw [step, hp]; simp only [hd]⟩

end Sys2Proof.Machine

namespace Sys2Proof

/-! ### Register numbers and access data -/

theorem numOfReg_regOfNum (n : BitVec 4) : numOfReg (regOfNum n) = n := by
  revert n; decide

theorem regOfNum_numOfReg (r : Reg) : regOfNum (numOfReg r) = r := by
  cases r with
  | reserved k => revert k; decide
  | _ => rfl

theorem dataFits_dataOfWidth (r : Reg) (d : BitVec 64) : dataFits r (dataOfWidth r d) = true := by
  unfold dataFits dataOfWidth
  split
  · simp [*]
  · rename_i h
    have : ((d.setWidth 32).setWidth 64).toNat < 2 ^ 32 := by
      simp only [BitVec.toNat_setWidth]; omega
    rw [decide_eq_true this, Bool.or_true]

theorem dataOfWidth_of_fits {r : Reg} {d : BitVec 64} (h : dataFits r d = true) : dataOfWidth r d = d := by
  unfold dataOfWidth
  split
  · rfl
  · rename_i hw
    have hlt : d.toNat < 2 ^ 32 := by simpa [dataFits, hw] using h
    apply BitVec.eq_of_toNat_eq
    simp only [BitVec.toNat_setWidth]
    omega

end Sys2Proof
end

