-- ==== Sys2Proof/Laws/PerInstr.lean ====
section
/-! SUPPORT. Statements made per operation, one lemma per constructor of `Instr`. -/

namespace Sys2Proof.Laws.EncodedFormat

/-- The word that selects an operation is one the host can present exactly when the operation is the host's
(30_encoding R44): the µops' words are all `UOP` words. -/
def Statement (i : Instr) : Prop := ∀ r, encode i = some r → Machine.isHostRequest r = Machine.isHostOp i

theorem reset : Statement .reset := by intro r h; cases h; rfl
theorem wrreg (num : Reg) (data : BitVec 64) : Statement (.wrreg num data) := by intro r h; cases h; rfl
theorem rdreg (num : Reg) : Statement (.rdreg num) := by intro r h; cases h; rfl
theorem nop : Statement .nop := by intro r h; cases h; rfl
theorem start : Statement .start := by intro r h; cases h; rfl
theorem cmdRsvd2 : Statement .cmdRsvd2 := by intro r h; cases h; rfl
theorem cmdRsvd3 : Statement .cmdRsvd3 := by intro r h; cases h; rfl
theorem check : Statement .check := by intro r h; cases h
theorem init : Statement .init := by intro r h; cases h
theorem stepTake (inData : BitVec 32) : Statement (.stepTake inData) := by intro r h; cases h; rfl
theorem stepEnd : Statement .stepEnd := by intro r h; cases h; rfl
theorem lfoAdv : Statement .lfoAdv := by intro r h; cases h; rfl
theorem lfoSin : Statement .lfoSin := by intro r h; cases h; rfl
theorem lfoSqr : Statement .lfoSqr := by intro r h; cases h; rfl
theorem exc : Statement .exc := by intro r h; cases h; rfl
theorem carInc : Statement .carInc := by intro r h; cases h; rfl
theorem carAdv : Statement .carAdv := by intro r h; cases h; rfl
theorem carSin : Statement .carSin := by intro r h; cases h; rfl
theorem inTake : Statement .inTake := by intro r h; cases h; rfl
theorem dry : Statement .dry := by intro r h; cases h; rfl
theorem ring : Statement .ring := by intro r h; cases h; rfl
theorem wet : Statement .wet := by intro r h; cases h; rfl
theorem xfade : Statement .xfade := by intro r h; cases h; rfl
theorem trunc : Statement .trunc := by intro r h; cases h; rfl
theorem outPut : Statement .outPut := by intro r h; cases h; rfl
theorem stopExh : Statement .stopExh := by intro r h; cases h; rfl

end Sys2Proof.Laws.EncodedFormat
end

