-- ==== Sys2Proof/Laws/Sine.lean ====
section
/-! SUPPORT. The polynomial behind `SIN` against the real sine: the error is below `2^-320` on the whole domain. -/

namespace Sys2Proof.Machine

open Finset

/-- The partial sum of the series of `sin x / x`. -/
noncomputable def sincSum (x : ℝ) (k : Nat) : ℝ := ∑ i ∈ range k, (-1) ^ i * x ^ (2 * i) / (2 * i + 1).factorial

theorem sinHornerStep_value (n k : Nat) (pq : Int × Nat) (hq : 0 < pq.2) (hk : 0 < k) :
    0 < (sinHornerStep (n * n) k pq).2 ∧
    ((sinHornerStep (n * n) k pq).1 : ℝ) / (sinHornerStep (n * n) k pq).2
      = 1 - ((n : ℝ) / 2 ^ 1074) ^ 2 / ((2 * k) * (2 * k + 1)) * ((pq.1 : ℝ) / pq.2) := by
  have hq' : (0 : ℝ) < pq.2 := by exact_mod_cast hq
  have hk' : (0 : ℝ) < k := by exact_mod_cast hk
  refine ⟨by simp only [sinHornerStep]; positivity, ?_⟩
  have h2 : (2 : ℝ) ^ 2148 = 2 ^ 1074 * 2 ^ 1074 := by rw [← pow_add]
  have hD : (2 : ℝ) ^ 1074 ≠ 0 := by positivity
  simp only [sinHornerStep]
  push_cast
  rw [h2]
  generalize (2 : ℝ) ^ 1074 = D at *
  field_simp

theorem sinHorner_succ (sq k : Nat) (pq : Int × Nat) :
    sinHorner sq (k + 1) pq = sinHorner sq k (sinHornerStep sq (k + 1) pq) := rfl

theorem sinHorner_value (n k : Nat) (pq : Int × Nat) (hq : 0 < pq.2) :
    0 < (sinHorner (n * n) k pq).2 ∧
    ((sinHorner (n * n) k pq).1 : ℝ) / (sinHorner (n * n) k pq).2
      = sincSum ((n : ℝ) / 2 ^ 1074) k
        + (-1) ^ k * ((n : ℝ) / 2 ^ 1074) ^ (2 * k) / (2 * k + 1).factorial * ((pq.1 : ℝ) / pq.2) := by
  induction k generalizing pq with
  | zero => simpa [sinHorner, sincSum] using hq
  | succ k ih =>
    have hs := sinHornerStep_value n (k + 1) pq hq (Nat.succ_pos k)
    have hr := ih (sinHornerStep (n * n) (k + 1) pq) hs.1
    rw [sinHorner_succ]
    refine And.intro hr.1 ?_
    rw [hr.2, hs.2, sincSum, sincSum, sum_range_succ]
    have hf : ((2 * (k + 1) + 1).factorial : ℝ) = (2 * (k + 1) + 1) * (2 * (k + 1)) * (2 * k + 1).factorial := by
      rw [show 2 * (k + 1) + 1 = (2 * k + 1) + 1 + 1 by ring, Nat.factorial_succ, Nat.factorial_succ]
      push_cast; ring
    rw [hf]
    have : ((2 * k + 1).factorial : ℝ) ≠ 0 := by positivity
    have h3 : ((k : ℝ) + 1) ≠ 0 := by positivity
    have h4 : (2 * ((k : ℝ) + 1) + 1) ≠ 0 := by positivity
    push_cast
    rw [show 2 * (k + 1) = 2 * k + 2 by ring, pow_add _ (2 * k) 2, pow_succ (-1 : ℝ) k]
    generalize ((pq.1 : ℝ) / pq.2) = r
    generalize ((n : ℝ) / 2 ^ 1074) = x
    field_simp
    ring

/-- `1/2^321` bounds the first omitted term for `x <= 7`. -/
theorem seven_pow_div_factorial : (7 : ℝ) ^ (2 * 61 + 1) / ((2 * 61 + 1).factorial : ℝ) ≤ 1 / 2 ^ 321 := by
  have h : 2 ^ 321 * 7 ^ (2 * 61 + 1) ≤ (2 * 61 + 1).factorial := by decide +kernel
  generalize (2 * 61 + 1).factorial = f at h
  have hf : (0 : ℝ) < f := by exact_mod_cast (by positivity : 0 < 2 ^ 321 * 7 ^ (2 * 61 + 1)).trans_le h
  rw [div_le_div_iff₀ hf (by positivity), mul_comm, one_mul]
  exact_mod_cast h

theorem sin_ratio_bound (i : Nat) : (7 : ℝ) ^ 2 / ((2 * (i + 61) + 3) * (2 * (i + 61) + 2)) ≤ 1 / 2 := by
  rw [div_le_div_iff₀ (by positivity) (by norm_num)]
  nlinarith [(Nat.cast_nonneg i : (0 : ℝ) ≤ i)]

theorem sin_ratio_nonneg (i : Nat) : (0 : ℝ) ≤ 7 ^ 2 / ((2 * (i + 61) + 3) * (2 * (i + 61) + 2)) := by positivity

/-- Each later term is at most half the one before. -/
theorem sin_term_bound (i : Nat) :
    (7 : ℝ) ^ (2 * (i + 61) + 1) / ((2 * (i + 61) + 1).factorial : ℝ)
      ≤ ((7 : ℝ) ^ (2 * 61 + 1) / ((2 * 61 + 1).factorial : ℝ)) * (1 / 2) ^ i := by
  induction i with
  | zero => rw [Nat.zero_add, pow_zero, mul_one]
  | succ i ih =>
    have e : ((2 * (i + 1 + 61) + 1).factorial : ℝ)
        = ((2 * (i + 61) + 1).factorial : ℝ) * ((2 * (i + 61) + 3) * (2 * (i + 61) + 2)) := by
      rw [show 2 * (i + 1 + 61) + 1 = (2 * (i + 61) + 1) + 1 + 1 by ring, Nat.factorial_succ, Nat.factorial_succ]
      push_cast; ring
    rw [e, show 2 * (i + 1 + 61) + 1 = (2 * (i + 61) + 1) + 2 by ring, pow_add, mul_div_mul_comm]
    have hl : (0 : ℝ) ≤ 7 ^ (2 * (i + 61) + 1) / ((2 * (i + 61) + 1).factorial : ℝ) :=
      div_nonneg (pow_nonneg (by norm_num) _) (Nat.cast_nonneg _)
    refine (mul_le_mul ih (sin_ratio_bound i) (sin_ratio_nonneg i) (hl.trans ih)).trans (le_of_eq ?_)
    rw [pow_succ (1 / 2 : ℝ) i, mul_assoc]

/-- A term of the series against the bound of the last lemma, with one factor `x` kept. -/
theorem sin_norm_term_le {x : ℝ} (h0 : 0 ≤ x) (h7 : x ≤ 7) (i : Nat) :
    ‖(-1 : ℝ) ^ (i + 61) * x ^ (2 * (i + 61) + 1) / ((2 * (i + 61) + 1).factorial : ℝ)‖
      ≤ x * ((7 : ℝ) ^ (2 * 61 + 1) / ((2 * 61 + 1).factorial : ℝ)) * (1 / 2) ^ i := by
  rw [norm_div, norm_mul, norm_pow, norm_pow, norm_neg, norm_one, one_pow, one_mul, Real.norm_of_nonneg h0,
    Real.norm_of_nonneg (Nat.cast_nonneg _)]
  have hx : x ^ (2 * (i + 61) + 1) ≤ x * 7 ^ (2 * (i + 61) + 1) := by
    rw [pow_succ, mul_comm]
    refine mul_le_mul_of_nonneg_left ((pow_le_pow_left₀ h0 h7 _).trans ?_) h0
    exact pow_le_pow_right₀ (by norm_num) (Nat.le_succ _)
  refine (div_le_div_of_nonneg_right hx (Nat.cast_nonneg _)).trans ?_
  rw [mul_div_assoc, mul_assoc]
  exact mul_le_mul_of_nonneg_left (sin_term_bound i) h0

/-- The polynomial of degree 121 against the real sine. -/
theorem sin_series_error {x : ℝ} (h0 : 0 ≤ x) (h7 : x ≤ 7) :
    |x * (sincSum x 61) - Real.sin x| ≤ x / 2 ^ 320 := by
  have hs := Real.hasSum_sin x
  have hsum : x * sincSum x 61 = ∑ i ∈ range 61, (-1) ^ i * x ^ (2 * i + 1) / ((2 * i + 1).factorial : ℝ) := by
    rw [sincSum, mul_sum]
    refine sum_congr rfl fun i _ => ?_
    rw [pow_succ]; ring
  have htail := tsum_of_norm_bounded
    ((hasSum_geometric_of_lt_one (r := (1 / 2 : ℝ)) (by norm_num) (by norm_num)).mul_left
      (x * ((7 : ℝ) ^ (2 * 61 + 1) / ((2 * 61 + 1).factorial : ℝ)))) (sin_norm_term_le h0 h7)
  have hsplit := hs.summable.sum_add_tsum_nat_add 61
  rw [hs.tsum_eq] at hsplit
  rw [hsum, abs_sub_comm, ← hsplit, add_sub_cancel_left, ← Real.norm_eq_abs]
  refine htail.trans ((mul_le_mul_of_nonneg_right
    (mul_le_mul_of_nonneg_left seven_pow_div_factorial h0) (by norm_num)).trans ?_)
  rw [pow_succ (2 : ℝ) 320]
  generalize hD : (2 : ℝ) ^ 320 = D
  have : 0 < D := by rw [← hD]; positivity
  refine le_of_eq ?_
  field_simp
  norm_num

/-- The fraction that `SIN` rounds is the real sine to a relative error of `2^-320` of its operand. -/
theorem sinFactor_error {n : Nat} (hn : (n : ℝ) / 2 ^ 1074 ≤ 7) :
    0 < (sinFactor n).2 ∧
    |(n : ℝ) / 2 ^ 1074 * ((sinFactor n).1 / (sinFactor n).2) - Real.sin ((n : ℝ) / 2 ^ 1074)|
      ≤ (n : ℝ) / 2 ^ 1074 / 2 ^ 320 := by
  have hs := sinHorner_value n sinTerms (1, 1) Nat.one_pos
  have h61 : sincSum ((n : ℝ) / 2 ^ 1074) sinTerms + (-1) ^ sinTerms * ((n : ℝ) / 2 ^ 1074) ^ (2 * sinTerms)
      / (2 * sinTerms + 1).factorial * ((((1, 1) : Int × Nat).1 : ℝ) / ((1, 1) : Int × Nat).2)
      = sincSum ((n : ℝ) / 2 ^ 1074) (sinTerms + 1) := by
    rw [sincSum, sincSum, sum_range_succ _ sinTerms, Int.cast_one, Nat.cast_one, div_one, mul_one]
  rw [sinFactor]
  refine And.intro hs.1 ?_
  rw [hs.2, h61]
  exact sin_series_error (by positivity) hn

/-! ### Phases -/

theorem lt_of_inPhase {a : F64} (h : inPhase a = true) : a.toNat < 2 ^ 63 := by
  have : a.toNat < twoPi.toNat := by simpa [inPhase] using h
  exact this.trans (by decide)

theorem signBit_of_inPhase {a : F64} (h : inPhase a = true) : signBit a = false := by
  simpa [signBit] using lt_of_inPhase h

theorem magBits_of_inPhase {a : F64} (h : inPhase a = true) : magBits a = a.toNat :=
  Nat.mod_eq_of_lt (lt_of_inPhase h)

theorem magBits_lt_twoPi {a : F64} (h : inPhase a = true) : magBits a < magBits twoPi := by
  rw [magBits_of_inPhase h]
  have : a.toNat < twoPi.toNat := by simpa [inPhase] using h
  exact this.trans_eq (by decide)

theorem isFinite_of_inPhase {a : F64} (h : inPhase a = true) : isFinite a = true :=
  isFinite_of_magBits_le (magBits_lt_twoPi h).le (by decide)

/-- A phase is below 7. -/
theorem units_of_inPhase {a : F64} (h : inPhase a = true) : (units a : ℝ) / 2 ^ 1074 ≤ 7 := by
  have h1 : units a ≤ units twoPi := (unitsOfBits_strictMono (magBits_lt_twoPi h)).le
  have h2 : units twoPi ≤ 7 * 2 ^ 1074 := by decide +kernel
  rw [div_le_iff₀ (pow_pos two_pos _)]
  exact_mod_cast h1.trans h2

/-- `SIN` on its domain, as a rounded fraction. -/
theorem fsin_of_inPhase {a : F64} (h : inPhase a = true) :
    fsin a = packF64 (decide ((sinFactor (units a)).1 < 0))
      (roundBits (units a * (sinFactor (units a)).1.natAbs) (sinFactor (units a)).2) := by
  rw [fsin, if_pos h]

theorem one_plus_error_lt_half_ulp :
    (2 : ℝ) * ((1 + 7 / 2 ^ 320) * 2 ^ 1074) < 2 * 2 ^ 1074 + 2 ^ 1022 := by
  have e1 : (2 : ℝ) ^ 1074 = 2 ^ 52 * 2 ^ 1022 := by rw [← pow_add]
  have e2 : (0 : ℝ) < 2 ^ 1022 := pow_pos two_pos _
  have e3 : (7 : ℝ) / 2 ^ 320 ≤ 1 / 2 ^ 60 := by
    rw [div_le_div_iff₀ (pow_pos two_pos _) (pow_pos two_pos _), one_mul, show (320 : Nat) = 3 + (60 + 257) by rfl, pow_add,
      pow_add]
    have h60 : (0 : ℝ) < 2 ^ 60 := pow_pos two_pos _
    have h257 : (1 : ℝ) ≤ 2 ^ 257 := one_le_pow₀ one_le_two
    generalize (2 : ℝ) ^ 257 = D at *
    nlinarith [mul_le_mul_of_nonneg_left h257 h60.le]
  rw [e1]
  generalize (2 : ℝ) ^ 1022 = D at *
  generalize (7 : ℝ) / 2 ^ 320 = ε at *
  have h5 := mul_le_mul_of_nonneg_right e3 e2.le
  have h6 : 2 * ((1 + ε) * (2 ^ 52 * D)) = 2 * (2 ^ 52 * D) + 2 ^ 53 * (ε * D) := by ring
  rw [h6]
  clear e1 h6
  norm_num at h5 ⊢
  linarith

/-- The magnitude of `SIN` is at most 1. -/
theorem magBits_fsin_le {a : F64} (h : inPhase a = true) : magBits (fsin a) ≤ magBits f64One := by
  have hs := sinFactor_error (units_of_inPhase h)
  have h7 := units_of_inPhase h
  rw [fsin_of_inPhase h, magBits_packF64 _ ((roundBits_le_infBits _ _).trans_lt infBits_lt)]
  generalize units a = n at hs h7
  obtain ⟨hq, he⟩ := hs
  generalize sinFactor n = pq at hq he
  obtain ⟨p, q⟩ := pq
  simp only at hq he ⊢
  refine roundBits_le_of_near hq ?_
  have hU : unitsOfBits (magBits f64One) + unitsOfBits (magBits f64One + 1) = 2 * 2 ^ 1074 + 2 ^ 1022 := by
    decide +kernel
  rw [hU]
  have hq' : (0 : ℝ) < q := by exact_mod_cast hq
  have h320 : (n : ℝ) / 2 ^ 1074 / 2 ^ 320 ≤ 7 / 2 ^ 320 := div_le_div_of_nonneg_right h7 (by positivity)
  have habs : |(n : ℝ) / 2 ^ 1074 * (p / q)| ≤ 1 + 7 / 2 ^ 320 := by
    have h1 := Real.abs_sin_le_one ((n : ℝ) / 2 ^ 1074)
    have h2 := abs_sub_abs_le_abs_sub ((n : ℝ) / 2 ^ 1074 * (p / q)) (Real.sin ((n : ℝ) / 2 ^ 1074))
    linarith
  have hval : ((n * p.natAbs : Nat) : ℝ) = |(n : ℝ) / 2 ^ 1074 * (p / q)| * (2 ^ 1074 * q) := by
    have hD : (0 : ℝ) < 2 ^ 1074 := by positivity
    rw [abs_mul, abs_div, abs_div, abs_of_pos hq', abs_of_pos hD, Nat.abs_cast, Nat.cast_mul, Nat.cast_natAbs,
      Int.cast_abs]
    field_simp
  have : (2 : ℝ) * ((n * p.natAbs : Nat) : ℝ) < (2 * 2 ^ 1074 + 2 ^ 1022) * (q : ℝ) := by
    rw [hval]
    refine lt_of_le_of_lt ?_ (mul_lt_mul_of_pos_right one_plus_error_lt_half_ulp hq')
    have hD : (0 : ℝ) ≤ 2 ^ 1074 * (q : ℝ) := mul_nonneg (pow_nonneg zero_le_two _) hq'.le
    calc (2 : ℝ) * (|(n : ℝ) / 2 ^ 1074 * (p / q)| * (2 ^ 1074 * (q : ℝ)))
        ≤ 2 * ((1 + 7 / 2 ^ 320) * (2 ^ 1074 * (q : ℝ))) :=
          mul_le_mul_of_nonneg_left (mul_le_mul_of_nonneg_right habs hD) zero_le_two
      _ = 2 * ((1 + 7 / 2 ^ 320) * 2 ^ 1074) * (q : ℝ) := by
          rw [← mul_assoc (1 + 7 / 2 ^ 320 : ℝ), ← mul_assoc (2 : ℝ)]
  exact_mod_cast this

theorem isFinite_fsin {a : F64} (h : inPhase a = true) : isFinite (fsin a) = true :=
  isFinite_of_magBits_le (magBits_fsin_le h) (by decide)

end Sys2Proof.Machine
end

