-- ==== Sys2Proof/Tests/Slice0.lean ====
section
/-! SUPPORT. Tests. Expected results are those of spec/95_test_vectors.md (Parts B and C, cited by name) or are written
out from the encoding tables of spec/30_encoding.md; the theorems named `witness_…` show, for each statement with
hypotheses, values that meet all of them. -/

namespace Sys2Proof.Tests

open Sys2Proof Sys2Proof.Machine

-- one theorem after the other: as tasks, the kernel evaluations would each hold a thread's stack
set_option Elab.async false

/-! ### Helpers -/

/-- The next state, if there is one. -/
def after : Host.Outcome State Fault Refusal → Option State
  | .next s => some s
  | .fault _ => none
  | .refused _ => none

/-- One field of the state after an operation. -/
def get {α : Type} (i : Instr) (s : State) (f : State → α) : Option α := (after (exec i s)).map f

/-- The parameters of program P1, not yet started, with the host able to accept a result. -/
def p1 : State :=
  { State.reset with sampleRate := 44100, sampleLength := 3, mix := 71, lfoWaveform := 1,
                     amount := 0x401ACCCCCCCCCCCD, rate := 0x3FC70A3D70A3D70A, frequency := 0x4063800000000000,
                     outReady := true }

/-- P1 after START, with the constants of B5. -/
def p1Run : State :=
  { p1 with runState := .running, mixFrac := 0x3FE6B851EB851EB8, amountFrac := 0x3FE570A3D70A3D71,
            lfoInc := 0x3EFAE433F1F0CA76 }

/-- P1 before its last STEP: two samples are out. -/
def p1Last : State :=
  { p1Run with index := 2, out := [337, -384], received := [337, -384], lfoPhase := 0x3F0AE433F1F0CA76,
               carrierPhase := 0x3FC1206BEA8BBAF2 }

/-- P1 after its last STEP. -/
def p1Done : State :=
  { p1Last with runState := .done, index := 3, out := [337, -384, 215], received := [337, -384, 215] }

/-- A run that was truncated after two samples (P4). -/
def p4Done : State := { p1Last with sampleLength := 5, runState := .done, truncated := true }

/-- The parameters after a refused START (B5, first row). -/
def refused : State := { State.reset with runState := .error, errCause := 0x19 }

/-! ### WellFormed: the one check refuses -/

theorem test_wellFormed_narrow_data : (Instr.wrreg .mix 0x100000000).wellFormed = false := by decide
theorem test_wellFormed_reserved_narrow_data : (Instr.wrreg (.reserved 4) 0x100000000).wellFormed = false := by decide
theorem test_wellFormed_largest_narrow_data : (Instr.wrreg .mix 0xFFFFFFFF).wellFormed = true := by decide
theorem test_wellFormed_wide_data : (Instr.wrreg .amount 0xFFFFFFFFFFFFFFFF).wellFormed = true := by decide

/-! ### Decoding: a word of each constructor, from R44, R48, R49, R51 -/

theorem test_decode_reset : decode (.sig 0b1) = .ok .reset := by decide
theorem test_decode_wrreg : decode (.reg 0b11001 0x4063800000000000) = .ok (.wrreg .frequency 0x4063800000000000) := by
  decide
theorem test_decode_wrreg_takes_its_width : decode (.reg 0b10011 0xFFFFFFFF0000AC44) = .ok (.wrreg .sampleRate 0xAC44) := by
  decide
theorem test_decode_wrreg_reserved : decode (.reg 0b11111 5) = .ok (.wrreg (.reserved 4) 5) := by decide
theorem test_decode_rdreg : decode (.reg 0b00010 0) = .ok (.rdreg .errCause) := by decide
theorem test_decode_nop : decode (.cmd 0xFFFFFFFC) = .ok .nop := by decide
theorem test_decode_start : decode (.cmd 0xFFFFFFFD) = .ok .start := by decide
theorem test_decode_cmdRsvd2 : decode (.cmd 0b10) = .ok .cmdRsvd2 := by decide
theorem test_decode_cmdRsvd3 : decode (.cmd 0b11) = .ok .cmdRsvd3 := by decide
theorem test_decode_stepTake : decode (.stream 0b10 0xFFFFFC18 true) = .ok (.stepTake 0xFFFFFC18) := by decide
theorem test_decode_stepEnd : decode (.stream 0b01 0 false) = .ok .stepEnd := by decide
theorem test_decode_lfoAdv : decode (.uop 0b00000) = .ok .lfoAdv := by decide
theorem test_decode_lfoAdv_any_w : decode (.uop 0b00001) = .ok .lfoAdv := by decide
theorem test_decode_lfoSin : decode (.uop 0b00010) = .ok .lfoSin := by decide
theorem test_decode_lfoSqr : decode (.uop 0b00011) = .ok .lfoSqr := by decide
theorem test_decode_exc : decode (.uop 0b00100) = .ok .exc := by decide
theorem test_decode_carInc : decode (.uop 0b00110) = .ok .carInc := by decide
theorem test_decode_carAdv : decode (.uop 0b01000) = .ok .carAdv := by decide
theorem test_decode_carSin : decode (.uop 0b01010) = .ok .carSin := by decide
theorem test_decode_inTake : decode (.uop 0b01100) = .ok .inTake := by decide
theorem test_decode_dry : decode (.uop 0b01110) = .ok .dry := by decide
theorem test_decode_ring : decode (.uop 0b10000) = .ok .ring := by decide
theorem test_decode_wet : decode (.uop 0b10010) = .ok .wet := by decide
theorem test_decode_xfade : decode (.uop 0b10100) = .ok .xfade := by decide
theorem test_decode_trunc : decode (.uop 0b10110) = .ok .trunc := by decide
theorem test_decode_outPut : decode (.uop 0b11000) = .ok .outPut := by decide
theorem test_decode_stopExh : decode (.uop 0b11011) = .ok .stopExh := by decide
theorem test_decode_slot_14 : decode (.uop 0b11100) = .error .reservedSlot := by decide
theorem test_decode_offer_and_end : decode (.stream 0b11 0 true) = .error .offerAndEnd := by decide
/-- CHECK and INIT are phases of START: the words of their rows are START's (R76, R77). -/
theorem test_decodeTableWord_cmd : decodeTableWord 32 1 = some .start := by decide
theorem test_decodeTableWord_uop : decodeTableWord 8 0b11010 = some .stopExh := by decide

/-! ### Numbers: B1 to B4 -/

theorem test_fdiv_rounds : fdiv 0x4051C00000000000 f64Hundred = 0x3FE6B851EB851EB8 := by decide +kernel
theorem test_fsub_rounds : fsub f64One 0x3FE6B851EB851EB8 = 0x3FD28F5C28F5C290 := by decide +kernel
theorem test_fsub_exact_zero : fsub f64One f64One = 0 := by decide +kernel
theorem test_fmul_rounds : fmul 0x408F400000000000 0x3FD28F5C28F5C290 = 0x4072200000000001 := by decide +kernel
theorem test_fmul_negative_zero : fmul 0xC08F400000000000 0 = 0x8000000000000000 := by decide +kernel
theorem test_fadd_rounds : fadd 0xC07F400000000000 0xBD313BB84EA10000 = 0xC07F400000000001 := by decide +kernel
theorem test_fadd_zeros : fadd 0 0x8000000000000000 = 0 := by decide +kernel
theorem test_fle_zeros : fle 0 0x8000000000000000 = true := by decide +kernel
theorem test_fle_below_a_tenth : fle f64Tenth 0x3FB9999999999999 = false := by decide +kernel
theorem test_ge0_negative_zero : ge0 0x8000000000000000 = true := by decide +kernel
theorem test_i2f_negative : i2f (-32768) = 0xC0E0000000000000 := by decide +kernel
theorem test_i2f_largest : i2f 4294967295 = 0x41EFFFFFFFE00000 := by decide +kernel
theorem test_wrap_negative_zero : wrap 0x8000000000000000 = 0 := by decide +kernel
theorem test_wrap_many_turns : wrap 0x4063A28C59D5433B = 0x3D00000000000000 := by decide +kernel
theorem test_wrap_negative : wrap 0xC01C000000000000 = 0x401643F6A8885A30 := by decide +kernel
theorem test_wrap_tiny_negative : wrap 0xBC670EF54646D497 = 0 := by decide +kernel
theorem test_sin_just_below_two_pi : fsin 0x401921FB54442D17 = 0xBCD469898CC51702 := by decide +kernel
theorem test_sin_pi : fsin piF64 = 0x3CA1A62633145C07 := by decide +kernel
theorem test_f2i_toward_zero : f2i 16 0xC0780B7564813040 = -384 := by decide +kernel
theorem test_f2i_saturates : f2i 16 0x40E0000000000000 = 32767 := by decide +kernel
theorem test_f2i_smallest : f2i 16 0xC0E0000000000000 = -32768 := by decide +kernel

/-! ### Run control: B5, P1, P4, P13 -/

theorem test_reset_in_a_run : get .reset p1Last (fun t => (statusWord t, t.sampleRate, t.index, t.out, t.received))
    = some (0, 0, 0, [], [337, -384]) := by decide +kernel
theorem test_wrreg_in_idle : get (.wrreg .lfoWaveform 0xFFFFFFFE) State.reset (·.lfoWaveform) = some 0xFFFFFFFE := by
  decide +kernel
theorem test_wrreg_in_running : get (.wrreg .mix 5) p1Run (·.mix) = some 71 := by decide +kernel
theorem test_rdreg_status : get (.rdreg .status) p4Done (·.reads) = some [.w32 6] := by decide +kernel
theorem test_rdreg_reserved : get (.rdreg (.reserved 1)) p1 (·.reads) = some [.w32 0] := by decide +kernel
theorem test_nop : after (exec .nop p1Run) = some p1Run := by decide +kernel
theorem test_cmdRsvd2 : after (exec .cmdRsvd2 p1) = some p1 := by decide +kernel
theorem test_cmdRsvd3 : after (exec .cmdRsvd3 p1) = some p1 := by decide +kernel
theorem test_start_at_reset : after (exec .start State.reset) = some refused := by decide +kernel
theorem test_start_p1 : after (exec .start p1) = some p1Run := by decide +kernel
theorem test_start_length_zero : get .start { p1 with sampleLength := 0 } statusWord = some 2 := by decide +kernel
theorem test_check_all : get .check { State.reset with
    mix := 101, amount := 0xBFF0000000000000, rate := 0x403A000000000000, frequency := 0x3FE0000000000000,
    lfoWaveform := 2 } (·.errCause) = some 0x3F := by decide +kernel
theorem test_check_limits : checkMask { p1 with
    sampleRate := 1, mix := 100, amount := f64Ten, rate := f64TwentyFive, frequency := f64FourThousand } = 0 := by
  decide +kernel
theorem test_init : get .init { p1 with sampleRate := 1, rate := f64TwentyFive } (·.lfoInc)
    = some 0x4063A28C59D5433B := by decide +kernel

/-! ### The STEP: P1, P4 -/

theorem test_stepTake_first : get (.stepTake 1000) p1Run (fun t => (t.out, t.index, statusWord t, t.carrierPhase))
    = some ([337], 1, 1, 0x3FB1206BEA8BBAF2) := by decide +kernel
theorem test_stepTake_last : get (.stepTake 500) p1Last (fun t => (t.out, t.index, statusWord t, t.lfoPhase))
    = some ([337, -384, 215], 3, 2, 0x3F142B26F57497D8) := by decide +kernel
theorem test_stepEnd : get .stepEnd p1Last (fun t => (t.out, t.index, statusWord t, t.carrierPhase))
    = some ([337, -384], 2, 6, 0x3FC9B0A1DFD1986B) := by decide +kernel

/-! ### The ports: R35, R98, R135; the samples are those of P1 -/

theorem test_offer_outside_RUNNING_stands :
    (after (step { p1Done with pending := [.stream 0b10#2 1000 true] })).map (fun t => (t.inPort, t.index, t.pending))
    = some (.sample 1000, 3, []) := by decide +kernel
theorem test_offer_withdrawn :
    (after (step { p1 with inPort := .sample 7, pending := [.stream 0b00#2 0 false] })).map
      (fun t => (t.inPort, t.outReady)) = some (.nothing, false) := by decide +kernel
theorem test_standing_offer_is_taken :
    (after (step { p1Run with inPort := .sample 1000 })).map (fun t => (t.out, t.index, t.inPort))
    = some ([337], 1, .nothing) := by decide +kernel
theorem test_port_signals_of_a_transfer :
    (outData { p1Run with inPort := .sample 1000 }, inReady { p1Run with inPort := .sample 1000 }) = (some 337, true) := by
  decide +kernel
theorem test_port_signals_host_not_ready :
    (outData { p1Run with inPort := .sample 1000, outReady := false },
     inReady { p1Run with inPort := .sample 1000, outReady := false }) = (some 337, false) := by decide +kernel

/-! ### The µops: B6 -/

theorem test_lfoAdv_to_zero : get .lfoAdv { p1 with lfoPhase := 0x4012D97C7F3321D2, lfoInc := 0x3FF921FB54442D18 }
    (·.lfoPhase) = some 0 := by decide +kernel
theorem test_lfoSin : get .lfoSin { p1 with lfoPhase := 0x4012D97C7F3321D2 } (·.tmp.lfo)
    = some 0xBFF0000000000000 := by decide +kernel
theorem test_lfoSqr_at_pi : get .lfoSqr { p1 with lfoPhase := piF64 } (·.tmp.lfo) = some f64One := by decide +kernel
theorem test_lfoSqr_above_pi : get .lfoSqr { p1 with lfoPhase := piF64 + 1 } (·.tmp.lfo) = some 0 := by decide +kernel
theorem test_exc : get .exc { p1Run with tmp := { Temps.idle with lfo := 0x3EFAE433F1E42161 } } (·.tmp.exc)
    = some 0x3F807809550A1790 := by decide +kernel
theorem test_carInc : get .carInc { p1Run with tmp := { Temps.idle with exc := 0x407398F5C28F5C29 } } (·.tmp.cinc)
    = some 0x3FB1206BEA8BBAF2 := by decide +kernel
theorem test_carInc_negative : get .carInc { p1 with
    sampleRate := 100, frequency := f64Ten, tmp := { Temps.idle with exc := 0xC03E000000000000 } } (·.tmp.cinc)
    = some 0xBFF41B2F769CF0E0 := by decide +kernel
theorem test_carAdv_negative : get .carAdv { p1 with
    carrierPhase := 0x3FE0000000000000, tmp := { Temps.idle with cinc := 0xBFF41B2F769CF0E0 } } (·.carrierPhase)
    = some 0x40161B2F769CF0E0 := by decide +kernel
theorem test_carSin : get .carSin { p1 with carrierPhase := 0x401921FB54441118 } (·.tmp.car)
    = some 0xBD9C00469898CC51 := by decide +kernel
theorem test_inTake_negative : get .inTake { p1Run with inPort := .sample 0x0000FC18 }
    (fun t => (t.tmp.sf, t.tmp.slot, t.inPort)) = some (0xC08F400000000000, 7, .nothing) := by decide +kernel
theorem test_inTake_end : get .inTake { p1Run with inPort := .endOfInput } (fun t => (t.tmp.slot, t.inPort))
    = some (13, .endOfInput) := by decide +kernel
theorem test_dry : get .dry { p1Run with tmp := { Temps.idle with sf := 0x408F400000000000 } } (·.tmp.dry)
    = some 0x4072200000000001 := by decide +kernel
theorem test_dry_full_wet : get .dry { p1Run with
    mixFrac := f64One, tmp := { Temps.idle with sf := 0xC08F400000000000 } } (·.tmp.dry)
    = some 0x8000000000000000 := by decide +kernel
theorem test_ring : get .ring { p1Run with
    tmp := { Temps.idle with sf := 0xC08F400000000000, car := 0x3FC11359D4BEEBCD } } (·.tmp.ring)
    = some 0xC060ACE5B9C27246 := by decide +kernel
theorem test_wet : get .wet { p1Run with tmp := { Temps.idle with ring := 0xC060ACE5B9C27246 } } (·.tmp.wet)
    = some 0xC057ADD59204C0FD := by decide +kernel
theorem test_xfade : get .xfade { p1Run with
    tmp := { Temps.idle with dry := 0xC072200000000001, wet := 0xC057ADD59204C0FD } } (·.tmp.mixed)
    = some 0xC0780B7564813040 := by decide +kernel
theorem test_trunc : get .trunc { p1Run with tmp := { Temps.idle with mixed := 0xC0780B7564813040 } } (·.tmp.v)
    = some (-384) := by decide +kernel
theorem test_outPut_last : get .outPut { p1Last with tmp := { Temps.idle with v := 215 } }
    (fun t => (t.out, t.index, statusWord t)) = some ([337, -384, 215], 3, 2) := by decide +kernel
theorem test_outPut_first : get .outPut { p1Run with tmp := { Temps.idle with v := 337 } }
    (fun t => (t.out, t.index, statusWord t)) = some ([337], 1, 1) := by decide +kernel
theorem test_stopExh : get .stopExh { p1Last with sampleLength := 5 } (fun t => (t.out, t.index, statusWord t))
    = some ([337, -384], 2, 6) := by decide +kernel

/-! ### Witnesses: encoding and the step -/

theorem witness_DecodeAndEncodeAgree :
    (Instr.wrreg .mix 71).wellFormed = true ∧ decode (.reg 0b10101 71) = .ok (.wrreg .mix 71) := by decide

theorem witness_OnlyNamedWordsAreRejected :
    decode (.sig 0) = .error .resetNotAsserted ∧ decode (.stream 0b00 7 true) = .error .nothingOffered ∧
    decode (.stream 0b11 7 true) = .error .offerAndEnd ∧ decode (uopWord 14 false) = .error .reservedSlot ∧
    decode (uopWord 15 true) = .error .reservedSlot := by decide

theorem witness_StepRunsTheDecodedOperation :
    ({ p1Run with pending := [.stream 0b10#2 1000 true] } : State).pending = .stream 0b10#2 1000 true :: [] ∧
    decode (.stream 0b10#2 1000 true) = .ok (.stepTake 1000) := by decide

theorem witness_StepWithoutAnOperation :
    State.reset.pending = [] ∧ State.reset.inPort = .nothing ∧
    ({ State.reset with pending := [.sig 0] } : State).pending = .sig 0 :: [] ∧
    ({ State.reset with pending := [.stream 0b00#2 0 true] } : State).pending = .stream 0b00#2 0 true :: [] ∧
    ({ State.reset with pending := [.stream 0b11#2 0 true] } : State).pending = .stream 0b11#2 0 true :: [] ∧
    14 ≤ (14#4).toNat ∧ 14 ≤ (15#4).toNat ∧
    ({ State.reset with pending := [uopWord 14 false] } : State).pending = uopWord 14 false :: [] := by decide

theorem witness_HostDrivenMachineNeverStops :
    hostDriven { p1Run with pending := [.stream 0b10#2 1000 true] } = true ∧
    ∀ d b rest, ({ p1Run with pending := [.stream 0b10#2 1000 true] } : State).pending ≠ .stream 0b11#2 d b :: rest := by
  refine ⟨by decide, fun d b rest h => ?_⟩
  simp at h

/-! ### Witnesses: register access and START -/

theorem witness_RegisterWriteFollowsItsRule :
    State.reset.runState ≠ .running ∧ p1Done.runState ≠ .running ∧ refused.runState ≠ .running ∧
    Reg.status ≠ .control ∧ Reg.errCause ≠ .control ∧ Reg.index ≠ .control ∧ Reg.reserved 0 ≠ .control ∧
    Reg.reserved 4 ≠ .control ∧ Reg.sampleRate ≠ .control ∧ Reg.frequency ≠ .control ∧ p1Run.runState = .running := by
  decide

theorem witness_NopAndReservedCommandsChangeNothing :
    (0xFFFFFFFC : Word32).extractLsb' 0 2 = 0#2 ∧ (2 : Word32).extractLsb' 0 2 = 2#2 ∧
    (0xFFFFFFFF : Word32).extractLsb' 0 2 = 3#2 := by decide

theorem witness_WrittenParameterReadsBack :
    State.reset.runState ≠ .running ∧ dataFits .mix 0xFFFFFFFF = true ∧
    Reg.mix ∈ [Reg.sampleRate, .sampleLength, .mix, .lfoWaveform, .amount, .rate, .frequency] ∧
    ∃ t u, exec (.wrreg .mix 0xFFFFFFFF) State.reset = .next t ∧ exec (.rdreg .mix) t = .next u :=
  ⟨by decide, by decide, by decide, _, _, rfl, rfl⟩

theorem witness_StartFollowsItsRule :   -- StartIsCheckThenInit
    (0xFFFFFFFD : Word32).extractLsb' 0 2 = 1#2 ∧ p1Run.runState = .running ∧
    p1Done.runState ≠ .running ∧ checkMask { p1Done with lfoWaveform := 2 } ≠ 0 ∧ checkMask State.reset ≠ 0 ∧
    p1.runState ≠ .running ∧ checkMask p1 = 0 ∧ p4Done.runState ≠ .running ∧ checkMask p4Done = 0 ∧
    checkMask { p1 with sampleLength := 0 } = 0 := by decide +kernel

/-- Each range of CHECK at both of its ends (B5): inside, and just outside. -/
theorem witness_CheckFindsValuesOutOfRange :
    (checkMask { p1 with sampleRate := 1 }, checkMask { p1 with sampleRate := 0 }) = (0, 0x01) ∧
    (checkMask { p1 with mix := 0 }, checkMask { p1 with mix := 0xFFFFFFFF }) = (0, 0x02) ∧
    (checkMask { p1 with mix := 100 }, checkMask { p1 with mix := 101 }) = (0, 0x02) ∧
    (checkMask { p1 with amount := 0x8000000000000000 }, checkMask { p1 with amount := 0x8000000000000001 }) = (0, 0x04) ∧
    (checkMask { p1 with amount := f64Ten }, checkMask { p1 with amount := 0x4024000000000001 }) = (0, 0x04) ∧
    (checkMask { p1 with rate := f64Tenth }, checkMask { p1 with rate := 0x3FB9999999999999 }) = (0, 0x08) ∧
    (checkMask { p1 with rate := f64TwentyFive }, checkMask { p1 with rate := 0x4039000000000001 }) = (0, 0x08) ∧
    (checkMask { p1 with frequency := f64SixTenths }, checkMask { p1 with frequency := 0x3FE3333333333332 }) = (0, 0x10) ∧
    (checkMask { p1 with frequency := f64FourThousand }, checkMask { p1 with frequency := 0x7FF0000000000000 }) = (0, 0x10) ∧
    (checkMask { p1 with lfoWaveform := 0 }, checkMask { p1 with lfoWaveform := 2 }) = (0, 0x20) ∧
    checkMask { p1 with amount := 0x7FF8000000000000 } = 0x04 := by decide +kernel

/-! ### Witnesses: the STEP and the µops -/

theorem witness_StepFollowsItsRule :   -- StepIsTheSequenceOfItsMicroOps
    p1Run.runState = .running ∧ p1Run.outReady = true ∧ p1Last.runState = .running ∧ p1Last.outReady = true := by decide

theorem witness_StepWaitsUnlessEnabled :
    ¬ (p1.runState = .running ∧ p1.outReady = true) ∧
    ¬ (({ p1Run with outReady := false } : State).runState = .running ∧
       ({ p1Run with outReady := false } : State).outReady = true) ∧
    p1Done.runState ≠ .running := by decide

theorem witness_OfferStandsUntilTaken :
    ({ p1 with pending := [.stream 0b10#2 7 true] } : State).pending = .stream 0b10#2 7 true :: [] ∧
    ¬ (p1.runState = .running ∧ true = true) ∧ ¬ (p1Run.runState = .running ∧ false = true) ∧
    ({ p1 with pending := [.stream 0b01#2 0 true] } : State).pending = .stream 0b01#2 0 true :: [] ∧
    p1.runState ≠ .running ∧ isHostOp .start = true ∧ (∀ d, Instr.start ≠ .stepTake d) ∧ Instr.start ≠ .stepEnd ∧
    (∃ t, exec .start { p1 with inPort := .sample 7 } = .next t) ∧ p1Run.pending = [] ∧
    ({ p1Run with inPort := .sample 7 } : State).inPort = .sample 7 ∧
    ({ p1Run with inPort := .endOfInput } : State).inPort = .endOfInput :=
  ⟨by decide, by decide, by decide, by decide, by decide, by decide, fun _ h => (by cases h), by decide,
    exec_answers_next _ _, by decide, by decide, by decide⟩

theorem witness_StaleOfferIsPendingInTheNextRun :
    ({ p1Done with pending := [.cmd 1], inPort := .sample 7 } : State).pending = [.cmd 1] ∧
    ({ p1Done with pending := [.cmd 1], inPort := .sample 7 } : State).runState ≠ .running ∧
    checkMask { p1Done with pending := [.cmd 1], inPort := .sample 7 } = 0 ∧ p1Done.sampleLength ≠ 0 ∧
    p1Done.outReady = true ∧ checkMask { p1Done with pending := [.cmd 1], inPort := .endOfInput } = 0 := by
  decide +kernel

theorem witness_PortSignalsSayWhatTransfers :
    inReady { p1Run with inPort := .sample 7 } = true ∧ inReady { p1 with inPort := .sample 7 } = false ∧
    inReady { p1Run with inPort := .sample 7, outReady := false } = false ∧
    ({ p1Run with inPort := .endOfInput } : State).inPort = .endOfInput ∧ p1Run.inPort = .nothing := by decide +kernel

theorem witness_InTakeConsumesAnOfferedSample :
    ({ p1Run with inPort := .sample 0xFC18 } : State).inPort = .sample 0xFC18 ∧
    ({ p1Run with inPort := .endOfInput } : State).inPort = .endOfInput ∧
    p1Run.inPort = .nothing := by decide

theorem witness_SquareLevelSwitchesAtPi :   -- SineHasItsRangeAndSign, SineIsNearestTheRealSine
    inPhase 0 = true ∧ inPhase 1 = true ∧ inPhase piF64 = true ∧ inPhase (piF64 + 1) = true ∧
    inPhase 0x401921FB54442D17 = true ∧ isFinite 0x3FF0000000000000 = true := by decide +kernel

/-! ### Witnesses: numbers -/

theorem witness_SumAndDifferenceAreNearest :
    isFinite 0x7FEFFFFFFFFFFFFF = true ∧ isFinite 0x7C90000000000000 = true ∧ isFinite 0xFFEFFFFFFFFFFFFF = true ∧
    |scaled 0x7FEFFFFFFFFFFFFF + scaled 0x7C80000000000000| < overflowUnits ∧
    |scaled 0x7FEFFFFFFFFFFFFF - scaled 0x7FEFFFFFFFFFFFFF| < overflowUnits ∧
    scaled 0x7FEFFFFFFFFFFFFF + scaled 0xFFEFFFFFFFFFFFFF = 0 ∧
    scaled 0x8000000000000000 + scaled 0x8000000000000000 = 0 := by decide +kernel

theorem witness_ProductIsNearest :
    isFinite 0xC08F400000000000 = true ∧ isFinite 0x7FE0000000000000 = true ∧
    |scaled 0xBFE0000000000000 * scaled 0x7FE0000000000000| < overflowUnits * 2 ^ 1074 := by decide +kernel

theorem witness_QuotientIsNearest :
    isFinite 0xC051C00000000000 = true ∧ isFinite f64Hundred = true ∧ scaled f64Hundred ≠ 0 ∧
    |scaled 0xC051C00000000000| * 2 ^ 1074 < overflowUnits * |scaled f64Hundred| := by decide +kernel

theorem witness_ComparisonsFollowTheValues :
    isFinite 0x8000000000000000 = true ∧ isFinite 0x7FEFFFFFFFFFFFFF = true ∧ isNaN 0x7FF0000000000001 = true ∧
    isNaN 0xFFFFFFFFFFFFFFFF = true := by decide +kernel

theorem witness_IntegersConvertExactly :
    (-2 ^ 31 : Int) ≤ -2147483648 ∧ (-2147483648 : Int) ≤ 2 ^ 32 - 1 ∧ (4294967295 : Int) ≤ 2 ^ 32 - 1 := by decide

theorem witness_ConversionTruncatesTowardZero :
    2 ≤ 2 ∧ isNaN 0x7FF8000000000000 = true ∧ isFinite 0x40E0000000000000 = true ∧
    isFinite 0xC0E0002000000000 = true := by decide +kernel

/-- Each clause of WRAP (B2): not negative; negative with remainder 0; negative otherwise; and the corner in which the
remainder's complement rounds to `TWO_PI`. -/
theorem witness_WrapReducesToOneTurn :
    isFinite 0x4059000000000000 = true ∧ 0 ≤ scaled 0x4059000000000000 ∧ 0 ≤ scaled 0x8000000000000000 ∧
    isFinite 0xC01921FB54442D18 = true ∧ scaled 0xC01921FB54442D18 < 0 ∧
    (-scaled 0xC01921FB54442D18) % scaled twoPi = 0 ∧
    isFinite 0xC01C000000000000 = true ∧ scaled 0xC01C000000000000 < 0 ∧
    (-scaled 0xC01C000000000000) % scaled twoPi ≠ 0 ∧
    isFinite 0xBC670EF54646D497 = true ∧ (-scaled 0xBC670EF54646D497) % scaled twoPi ≠ 0 := by decide +kernel

/-! ### Witnesses: oscillators, mixer and runs -/

theorem witness_SquareGivesTwoCarrierFrequencies :
    legalParams p1Run ∧ p1Run.amountFrac = amountFraction p1Run ∧
    ∃ t u, exec .lfoSqr p1Run = .next t ∧ exec .exc t = .next u := by
  refine ⟨?_, ?_, _, _, rfl, rfl⟩
  · unfold legalParams; decide +kernel
  · decide +kernel

theorem witness_ResultIsNoLargerThanTheSample : PhaseBounds p1Last ∧ p1Last.runState = .running ∧
    p1Last.outReady = true ∧ ∃ t, exec (.stepTake 0xFC18) p1Last = .next t := by
  refine ⟨?_, by decide, by decide, exec_answers_next _ _⟩
  unfold PhaseBounds legalParams; decide +kernel

theorem witness_FullWetIsSampleTimesCarrier :
    ({ p1Run with mix := 100, mixFrac := f64One } : State).mix = 100 ∧
    ({ p1Run with mix := 100, mixFrac := f64One } : State).mixFrac
      = mixFraction { p1Run with mix := 100, mixFrac := f64One } ∧
    ∃ t, exec (.stepTake 1000) { p1Run with mix := 100, mixFrac := f64One } = .next t :=
  ⟨by decide, by decide +kernel, exec_answers_next _ _⟩

/-- Legal parameters for the laws of a run: P1, P2 (`MIX = 0`), and P3's kind (`MIX = 100`, `AMOUNT` a zero of either
sign). -/
theorem witness_runs :   -- RunLengthIsTheSmaller, DryRunPassesTheInputThrough, FullWetRunWithoutExcursion
    p1.runState ≠ .running ∧ p1.outReady = true ∧ checkMask p1 = 0 ∧ checkMask { p1 with sampleLength := 0 } = 0 ∧
    checkMask { p1 with mix := 0 } = 0 ∧
    checkMask { p1 with mix := 100, amount := 0 } = 0 ∧ scaled 0 = 0 ∧
    checkMask { p1 with mix := 100, amount := 0x8000000000000000 } = 0 ∧ scaled 0x8000000000000000 = 0 := by
  decide +kernel

theorem witness_ZeroAmountIgnoresTheWaveform :
    ({ p1 with amount := 0x8000000000000000 } : State).runState ≠ .running ∧ p1.outReady = true ∧
    scaled ({ p1 with amount := 0x8000000000000000 } : State).amount = 0 ∧
    checkMask { p1 with amount := 0x8000000000000000 } = 0 := by decide +kernel

theorem witness_RunIsDetermined : p1.runState ≠ .running ∧ p1Done.runState ≠ .running ∧ p1 ≠ p1Done ∧
    p1.outReady = true ∧ p1Done.outReady = true ∧ p1.cfg = p1Done.cfg ∧ p1.sampleRate = p1Done.sampleRate ∧
    p1.sampleLength = p1Done.sampleLength ∧ p1.mix = p1Done.mix ∧ p1.lfoWaveform = p1Done.lfoWaveform ∧
    p1.amount = p1Done.amount ∧ p1.rate = p1Done.rate ∧ p1.frequency = p1Done.frequency := by decide +kernel

/-! ### Witnesses: invariants and whole-machine rules -/

/-- P1 before its last STEP, the sample offered. -/
def p1Offered : State := { p1Last with pending := [.stream 0b10#2 500 true] }

theorem step_p1Offered : ∃ t, step p1Offered = .next t := exec_answers_next (.stepTake 500) p1Last

theorem witness_EveryStepKeepsTheRunBooks :
    hostDriven p1Offered = true ∧ RunBooks p1Offered ∧ ∃ t, step p1Offered = .next t := by
  refine ⟨by decide, ?_, step_p1Offered⟩
  unfold RunBooks; decide +kernel

theorem witness_EveryStepKeepsThePhasesBounded :
    hostDriven p1Offered = true ∧ PhaseBounds p1Offered ∧ ∃ t, step p1Offered = .next t := by
  refine ⟨by decide, ?_, step_p1Offered⟩
  unfold PhaseBounds legalParams; decide +kernel

/-- A START with nothing presented, and STREAM words in a run. -/
theorem witness_DisciplinedHostLeavesNoStaleOffer :
    keepsInputDiscipline { p1 with pending := [.cmd 1] } = true ∧ hostDriven { p1 with pending := [.cmd 1] } = true ∧
    NoStaleOffer { p1 with pending := [.cmd 1] } ∧ (∃ t, step { p1 with pending := [.cmd 1] } = .next t) ∧
    keepsInputDiscipline p1Offered = true ∧ hostDriven p1Offered = true ∧ NoStaleOffer p1Offered ∧
    keepsInputDiscipline { p1 with pending := [.cmd 1], inPort := .sample 7 } = false ∧
    NoStaleOffer { p1Run with inPort := .sample 7, outReady := false } ∧ p1Run.pending = [] := by
  refine ⟨by decide, by decide, ?_, exec_answers_next .start p1, by decide, by decide, ?_, by decide, ?_, by decide⟩ <;>
    unfold NoStaleOffer <;> decide

theorem witness_OnlyStepsAndResetActInARun : p1Run.runState = .running ∧ isHostOp (.wrreg .control 1) = true ∧
    Instr.wrreg .control 1 ≠ .reset ∧ (∀ d, Instr.wrreg .control 1 ≠ .stepTake d) ∧
    Instr.wrreg .control 1 ≠ .stepEnd := ⟨by decide, by decide, by decide, fun _ h => (by cases h), by decide⟩

theorem witness_ParametersAreFrozenInARun : p1Run.runState = .running ∧ Instr.wrreg .mix 5 ≠ .reset ∧
    ∃ t, exec (.wrreg .mix 5) p1Run = .next t := ⟨by decide, by decide, _, rfl⟩

theorem witness_RunStateFollowsTheTable : isHostOp (.stepTake 500) = true ∧ isHostOp (.wrreg .control 1) = true := by decide

theorem witness_RunConstantsKeepTheirValue :
    Instr.start ≠ .reset ∧ Instr.start ≠ .init ∧
    ¬ (isStart .start = true ∧ refused.runState ≠ .running ∧ checkMask refused = 0) ∧
    ∃ t, exec .start refused = .next t := ⟨by decide, by decide, by decide +kernel, exec_answers_next _ _⟩

theorem witness_OutputIsOnlyAppended : (∃ t, exec (.stepTake 500) p1Last = .next t) ∧
    Instr.stepTake 500 ≠ .reset ∧ isStart (.stepTake 500) = false := ⟨exec_answers_next _ _, by decide, by decide⟩

theorem witness_OutputsCopyTheStatusBits : ∃ t,
    exec (.rdreg .status) p4Done = .next t ∧ t.reads = p4Done.reads ++ [.w32 6] :=
  ⟨_, rfl, by decide +kernel⟩

theorem witness_ReadsDoNotShowHiddenRegisters :
    ∃ t u, exec (.rdreg .amount) p1Last = .next t ∧
      exec (.rdreg .amount) { p1Last with
        lfoPhase := 1, carrierPhase := 2, mixFrac := 3, amountFrac := 4, lfoInc := 5 } = .next u :=
  ⟨_, _, rfl, rfl⟩

end Sys2Proof.Tests
end

