-- ==== Sys2Proof/Proofs/StepDecoded.lean ====
section
/-! PROOFS. A step with a request that decodes is `exec` of the operation after `takeRequest` (45_step R98, log 8); here
`offerOf` and `takeRequest` are given in the closed form the obligation about the step uses. -/

namespace Sys2Proof.Machine

/-- With a request that decodes, only the executing case of `step_cases` is left. -/
theorem step_of_decode_ok {s : State} {r : Request} {rest : List Request} {i : Instr}
    (hp : s.pending = r :: rest) (hd : decode r = .ok i) : step s = exec i (takeRequest r rest s) := by
  obtain ⟨hnil, -⟩ | ⟨r', rest', i', hp', hd', hstep⟩ | ⟨r', rest', e, hp', hd', -⟩ := step_cases s
  · simp [hp] at hnil
  · obtain ⟨rfl, rfl⟩ : r = r' ∧ rest = rest' := by simpa [hp] using hp'
    obtain rfl : i = i' := by simpa [hd] using hd'
    exact hstep
  · obtain ⟨rfl, rfl⟩ : r = r' ∧ rest = rest' := by simpa [hp] using hp'
    simp [hd] at hd'

/-- The offer by the levels `in_valid ++ in_end` (20_memory R33). -/
theorem offerOf_eq_ite (sel : BitVec 2) (d : BitVec 32) :
    offerOf sel d = if sel = 0b10#2 then .sample d else if sel = 0b01#2 then .endOfInput else .nothing := by
  have levels : sel = 0b00#2 ∨ sel = 0b01#2 ∨ sel = 0b10#2 ∨ sel = 0b11#2 := by revert sel; decide
  rcases levels with rfl | rfl | rfl | rfl <;> rfl

/-- Taking a STREAM word sets the levels of the host's port signals and nothing else (70_reset_and_hazards R135). -/
theorem takeRequest_stream (sel : BitVec 2) (d : BitVec 32) (ready : Bool) (rest : List Request) (s : State) :
    takeRequest (.stream sel d ready) rest s =
      { s with pending := rest,
               inPort := if sel = 0b10#2 then .sample d else if sel = 0b01#2 then .endOfInput else .nothing,
               outReady := ready } := by
  rw [← offerOf_eq_ite]; rfl

end Sys2Proof.Machine

namespace Sys2Proof.Proofs

open Sys2Proof Sys2Proof.Machine

/-- Settles O4: `step_of_decode_ok`, with the effect of `takeRequest` spelt out for a STREAM word and for the others. -/
theorem stepRunsTheDecodedOperation : Obligations.StepRunsTheDecodedOperation := by
  intro s r rest i hp hd
  rw [step_of_decode_ok hp hd]
  cases r with
  | stream sel d ready => rw [takeRequest_stream]
  | sig _ | reg _ _ | cmd _ | uop _ => rw [takeRequest_of_not_stream s rest (by simp)]

end Sys2Proof.Proofs
end

