-- ==== Sys2Proof/Proofs/HostEffect.lean ====
section
/-! PROOFS. What one operation of the host can do to the state, said once (`HostEffect`, `exec_hostEffect`), with the two
STEPs in closed form: the invariants below are case analyses on it. -/

namespace Sys2Proof.Machine

/-! ### The two STEPs in closed form -/

/-- Zero is in the range of `iW`. -/
theorem zero_mem_range (w : Nat) : minSample w ≤ 0 ∧ 0 ≤ maxSample w := by
  have hpos : (0 : Int) < 2 ^ (w - 1) := by positivity
  unfold minSample maxSample
  omega

theorem saturate_mem_range (w : Nat) (x : Int) : minSample w ≤ saturate w x ∧ saturate w x ≤ maxSample w := by
  obtain ⟨hmin, hmax⟩ := zero_mem_range w
  unfold saturate
  split_ifs with hover hunder
  · exact ⟨hmin.trans hmax, le_rfl⟩
  · exact ⟨le_rfl, hmin.trans hmax⟩
  · exact ⟨not_lt.1 hunder, not_lt.1 hover⟩

/-- `F2I` gives a value in the range of `iW`, whatever its operand (40_numerics R67). -/
theorem f2i_mem_range (w : Nat) (a : F64) : minSample w ≤ f2i w a ∧ f2i w a ≤ maxSample w := by
  obtain ⟨hmin, hmax⟩ := zero_mem_range w
  unfold f2i
  split_ifs
  · exact ⟨hmin, hmax⟩
  · exact ⟨le_rfl, hmin.trans hmax⟩
  · exact ⟨hmin.trans hmax, le_rfl⟩
  · exact saturate_mem_range w _

/-- STEP.TAKE moves the two phases, appends one value in the range of `iW` to the output, counts it, and leaves no
temporary (45_step R97). -/
theorem takeStep_eq (d : BitVec 32) (s : State) :
    ∃ (p c : F64) (v : Sample), minSample s.cfg.sampleBits ≤ v ∧ v ≤ maxSample s.cfg.sampleBits ∧
      endStep (outPutOp (computeResult d s)) =
        { s with lfoPhase := p, carrierPhase := c, index := s.index + 1,
                 runState := stateAfterPut s.index s.sampleLength s.runState,
                 out := s.out ++ [v], received := s.received ++ [v], inPort := .nothing, tmp := Temps.idle } := by
  obtain ⟨k, hv, hk⟩ := computeResult_eq d s
  obtain ⟨hlow, hhigh⟩ := f2i_mem_range s.cfg.sampleBits _
  rw [← hv] at hlow hhigh
  exact ⟨_, _, k.v, hlow, hhigh, by rw [hk]; rfl⟩

/-- STEP.END moves the two phases, ends the run as truncated, and leaves no temporary (45_step R95, R97). -/
theorem endOfInputStep_eq (s : State) :
    ∃ p c : F64, endStep (stopExhOp (inTakeOp (oscillators (beginStep .endOfInput s)))) =
      { s with lfoPhase := p, carrierPhase := c, truncated := true, runState := .done, inPort := .nothing,
               tmp := Temps.idle } := by
  have hport : (oscillators (beginStep .endOfInput s)).inPort = .endOfInput := by rw [oscillators_inPort]; rfl
  rw [inTakeOp_endOfInput hport, oscillators_eq]
  exact ⟨_, _, rfl⟩

/-! ### The effect of a host operation -/

/-- The states an operation of the host can lead to from `s`: it may change nothing, and a change it makes is one of these,
under the condition named. -/
inductive HostEffect (s : State) : Instr → State → Prop
  | unchanged (i : Instr) : HostEffect s i s
  | reset : HostEffect s .reset (resetBlock s)
  | start {i : Instr} (h : isStart i = true) : HostEffect s i (startRun s)
  | write (r : Reg) (d : BitVec 64) (h : s.runState ≠ .running) : HostEffect s (.wrreg r d) (writeParam r d s)
  | read (r : Reg) : HostEffect s (.rdreg r) (returnRead (readReg r s) s)
  | take (d : BitVec 32) (h : s.runState = .running) :
      HostEffect s (.stepTake d) (endStep (outPutOp (computeResult d s)))
  | endOfInput (h : s.runState = .running) :
      HostEffect s .stepEnd (endStep (stopExhOp (inTakeOp (oscillators (beginStep .endOfInput s)))))

/-- A host write stores outside RUNNING and changes nothing in it (20_memory R42). -/
theorem hostEffect_hostWrite (r : Reg) (d : BitVec 64) (s : State) :
    HostEffect s (.wrreg r d) (hostWrite r d s) := by
  obtain ⟨-, hw⟩ | ⟨hr, hw⟩ := hostWrite_cases r d s
  · rw [hw]; exact .unchanged _
  · rw [hw]; exact .write r d hr

/-- A write to `CONTROL` is START when its code is 01 and changes nothing otherwise (10_state R12). -/
theorem hostEffect_wrregControl (d : BitVec 64) (s : State) :
    HostEffect s (.wrreg .control d) (runCommand (d.extractLsb' 0 2) s) := by
  obtain ⟨hc, hrun⟩ | ⟨-, hrun⟩ := runCommand_cases (d.extractLsb' 0 2) s
  · rw [hrun]; exact .start (by rw [isStart, hc]; rfl)
  · rw [hrun]; exact .unchanged _

/-- Every operation of the host has one of the effects listed. -/
theorem exec_hostEffect {i : Instr} {s t : State} (hi : isHostOp i = true) (h : exec i s = .next t) :
    HostEffect s i t := by
  cases i with
  | reset => cases h; exact .reset
  | rdreg r => cases h; exact .read r
  | start => cases h; exact .start rfl
  | nop | cmdRsvd2 | cmdRsvd3 => cases h; exact .unchanged _
  | wrreg r d =>
    cases r with
    | control => cases h; exact hostEffect_wrregControl d s
    | _ => cases h; exact hostEffect_hostWrite _ d s
  | stepTake d =>
    obtain ⟨hen, ht⟩ | ⟨-, ht⟩ := execStepTake_cases d s
    · cases ht.symm.trans h; exact .take d ((takeEnabled_iff s).1 hen).1
    · cases ht.symm.trans h; exact .unchanged _
  | stepEnd =>
    obtain ⟨hen, ht⟩ | ⟨-, ht⟩ := execStepEnd_cases s
    · cases ht.symm.trans h; exact .endOfInput ((endEnabled_iff s).1 hen)
    · cases ht.symm.trans h; exact .unchanged _
  | _ => cases hi

/-- What a word of the host decodes to is an operation of the host (30_encoding R44). -/
theorem isHostOp_of_decode {r : Request} {i : Instr} (hr : isHostRequest r = true) (hd : decode r = .ok i) :
    isHostOp i = true := by
  cases r with
  | uop sel => cases hr
  | sig level => rw [decode] at hd; split at hd <;> cases hd; rfl
  | reg sel d => cases hd; unfold decodeReg; dsimp only; split <;> rfl
  | cmd v => cases hd; unfold decodeCmd; split <;> rfl
  | stream sel d ready => rw [decode, decodeStream] at hd; split at hd <;> cases hd <;> rfl

end Sys2Proof.Machine
end

