-- ==== Sys2Proof/Proofs/RunBooks.lean ====
section
/-! PROOFS. The bookkeeping of a run is kept by every effect of a host operation, hence by every step of a host-driven
machine (10_state R21 to R23; 45_step R99, R100). -/

namespace Sys2Proof.Machine

variable {s : State}

/-- The books do not speak of the requests and the port. -/
theorem runBooks_takeRequest (r : Request) (rest : List Request) : RunBooks (takeRequest r rest s) ↔ RunBooks s := by
  simp [RunBooks]

/-- The books do not speak of what the host has read. -/
theorem runBooks_returnRead (v : RegData) : RunBooks (returnRead v s) ↔ RunBooks s := by
  simp [RunBooks]

theorem runBooks_resetBlock (s : State) : RunBooks (resetBlock s) := by
  simp [RunBooks]

/-- `SAMPLE_LENGTH` is the one parameter the books speak of, and they do so only in RUNNING. -/
theorem runBooks_writeParam (h : RunBooks s) (hr : s.runState ≠ .running) (r : Reg) (d : BitVec 64) :
    RunBooks (writeParam r d s) := by
  simpa [RunBooks, hr] using h

theorem RunBooks.tmp_eq_idle (h : RunBooks s) : s.tmp = Temps.idle := by
  obtain ⟨-, -, -, -, -, -, htmp⟩ := h
  exact htmp

/-- START leaves an empty output; it is refused with the cause CHECK found, and accepted with none. -/
theorem runBooks_startRun (h : RunBooks s) : RunBooks (startRun s) := by
  have htmp := h.tmp_eq_idle
  obtain ⟨-, heq⟩ | ⟨-, hmask, heq⟩ | ⟨-, -, heq⟩ := startRun_cases s
  · rwa [heq]
  · rw [heq]; simpa [RunBooks, htmp] using hmask
  · rw [heq]
    by_cases hlen : s.sampleLength = 0
    · rw [if_pos hlen]; simp [RunBooks, htmp]
    · have hpos : 0 < s.sampleLength.toNat := by bv_omega
      rw [if_neg hlen]; simp [RunBooks, hpos, htmp]

/-- The books in RUNNING: no error, no truncation, and the index counts the elements of the output below the length. -/
theorem runBooks_of_running (h : s.runState = .running) :
    RunBooks s ↔ s.index.toNat < s.sampleLength.toNat ∧ s.out.length = s.index.toNat ∧ s.errCause = 0 ∧
      s.truncated = false ∧ (∀ v ∈ s.out, minSample s.cfg.sampleBits ≤ v ∧ v ≤ maxSample s.cfg.sampleBits) ∧
      s.out <:+ s.received ∧ s.tmp = Temps.idle := by
  simp [RunBooks, h]

theorem stateAfterPut_running_eq_running_iff (i length : Word32) :
    stateAfterPut i length .running = .running ↔ i + 1 ≠ length := by
  simp [stateAfterPut]

theorem stateAfterPut_running_ne_error (i length : Word32) : stateAfterPut i length .running ≠ .error := by
  unfold stateAfterPut
  split <;> simp

/-- In a run `INDEX + 1` does not wrap, so the count stays the length of the output, and a run that goes on is still below
its length (44_ringmod_mixer R94). -/
theorem runBooks_takeStep (h : RunBooks s) (hr : s.runState = .running) (d : BitVec 32) :
    RunBooks (endStep (outPutOp (computeResult d s))) := by
  obtain ⟨hlt, hlen, hcause, htrunc, hrange, hsuffix, -⟩ := (runBooks_of_running hr).1 h
  obtain ⟨p, c, v, hlow, hhigh, heq⟩ := takeStep_eq d s
  rw [heq, hr]
  have hnext : (s.index + 1).toNat = s.index.toNat + 1 := by bv_omega
  have hlen' : (s.out ++ [v]).length = (s.index + 1).toNat := by
    rw [hnext, List.length_append, hlen, List.length_singleton]
  have hsuffix' : s.out ++ [v] <:+ s.received ++ [v] := by
    obtain ⟨l, hl⟩ := hsuffix
    exact ⟨l, by rw [← hl, List.append_assoc]⟩
  have hrange' : ∀ x ∈ s.out ++ [v], minSample s.cfg.sampleBits ≤ x ∧ x ≤ maxSample s.cfg.sampleBits := by
    simpa [or_imp, forall_and, hlow, hhigh] using hrange
  refine ⟨fun hruns => ?_, hlen', ?_, by simp [htrunc], hrange', hsuffix', rfl⟩
  · have hne := (stateAfterPut_running_eq_running_iff _ _).1 hruns
    show (s.index + 1).toNat < s.sampleLength.toNat
    bv_omega
  · simp [stateAfterPut_running_ne_error, hcause]

/-- A STEP.END ends the run in DONE, where TRUNCATED may be set, and touches no element of the output. -/
theorem runBooks_endOfInputStep (h : RunBooks s) (hr : s.runState = .running) :
    RunBooks (endStep (stopExhOp (inTakeOp (oscillators (beginStep .endOfInput s))))) := by
  obtain ⟨-, hlen, hcause, -, hrange, hsuffix, -⟩ := (runBooks_of_running hr).1 h
  obtain ⟨p, c, heq⟩ := endOfInputStep_eq s
  rw [heq]
  exact ⟨by simp, hlen, by simp [hcause], by simp, hrange, hsuffix, rfl⟩

/-- Every operation of the host keeps the books. -/
theorem runBooks_exec {i : Instr} {t : State} (h : RunBooks s) (hi : isHostOp i = true) (ht : exec i s = .next t) :
    RunBooks t := by
  cases exec_hostEffect hi ht with
  | unchanged => exact h
  | reset => exact runBooks_resetBlock s
  | start => exact runBooks_startRun h
  | write r d hr => exact runBooks_writeParam h hr r d
  | read r => exact (runBooks_returnRead _).2 h
  | take d hr => exact runBooks_takeStep h hr d
  | endOfInput hr => exact runBooks_endOfInputStep h hr

/-- So does the STEP the engine takes by itself. -/
theorem runBooks_engineStep {t : State} (h : RunBooks s) (ht : engineStep s = .next t) : RunBooks t := by
  obtain ⟨-, heq⟩ | ⟨d, -, heq⟩ | ⟨-, heq⟩ := engineStep_cases s
  · cases heq.symm.trans ht; exact h
  · exact runBooks_exec h rfl (heq.symm.trans ht)
  · exact runBooks_exec h rfl (heq.symm.trans ht)

/-- A word that selects no operation changes nothing, where it gives a step at all. -/
theorem eq_of_rejectRequest {e : DecodeError} {t : State} (h : rejectRequest e s = .next t) : t = s := by
  cases e <;> cases h <;> rfl

end Sys2Proof.Machine

namespace Sys2Proof.Proofs

open Sys2Proof Sys2Proof.Machine

/-- Settles O46: a step is the engine's own move, an operation a host's word decodes to, or a word that selects none, and
each keeps the books. -/
theorem everyStepKeepsTheRunBooks : Obligations.EveryStepKeepsTheRunBooks := by
  intro s t hhost hbooks hstep
  obtain ⟨-, heq⟩ | ⟨r, rest, i, hp, hd, heq⟩ | ⟨r, rest, e, -, -, heq⟩ := step_cases s
  · exact runBooks_engineStep hbooks (heq.symm.trans hstep)
  · have hr : isHostRequest r = true := by
      rw [hostDriven, hp, List.all_cons, Bool.and_eq_true] at hhost
      exact hhost.1
    exact runBooks_exec ((runBooks_takeRequest r rest).2 hbooks) (isHostOp_of_decode hr hd) (heq.symm.trans hstep)
  · rw [eq_of_rejectRequest (heq.symm.trans hstep)]
    exact (runBooks_takeRequest r rest).2 hbooks

end Sys2Proof.Proofs
end

