-- ==== Sys2Proof/Proofs/HiddenRegisters.lean ====
section
/-! PROOFS. The hidden registers (10_state R24): what writes the three per-run constants, and that no read shows any. -/

namespace Sys2Proof.Machine

variable {s : State}

/-! ### The per-run constants -/

/-- The three per-run constants of `t` are those of `s` (10_state R27). -/
def SameRunConstants (s t : State) : Prop :=
  t.mixFrac = s.mixFrac ∧ t.amountFrac = s.amountFrac ∧ t.lfoInc = s.lfoInc

theorem SameRunConstants.refl (s : State) : SameRunConstants s s := ⟨rfl, rfl, rfl⟩

/-- A START that is ignored or refused leaves the per-run constants (41_run_control R75). -/
theorem sameRunConstants_startRun (h : ¬ (s.runState ≠ .running ∧ checkMask s = 0)) :
    SameRunConstants s (startRun s) := by
  obtain ⟨-, heq⟩ | ⟨-, -, heq⟩ | ⟨hr, hmask, -⟩ := startRun_cases s
  · rw [heq]; exact .refl s
  · rw [heq]; exact ⟨rfl, rfl, rfl⟩
  · exact absurd ⟨hr, hmask⟩ h

theorem sameRunConstants_takeStep (d : BitVec 32) (s : State) :
    SameRunConstants s (endStep (outPutOp (computeResult d s))) := by
  obtain ⟨p, c, v, -, -, heq⟩ := takeStep_eq d s
  rw [heq]; exact ⟨rfl, rfl, rfl⟩

theorem sameRunConstants_endOfInputStep (s : State) :
    SameRunConstants s (endStep (stopExhOp (inTakeOp (oscillators (beginStep .endOfInput s))))) := by
  obtain ⟨p, c, heq⟩ := endOfInputStep_eq s
  rw [heq]; exact ⟨rfl, rfl, rfl⟩

/-- An operation of the host other than RESET and an accepted START leaves the per-run constants. -/
theorem HostEffect.sameRunConstants {i : Instr} {t : State} (h : HostEffect s i t) (hreset : i ≠ .reset)
    (hstart : ¬ (isStart i = true ∧ s.runState ≠ .running ∧ checkMask s = 0)) : SameRunConstants s t := by
  cases h with
  | unchanged => exact .refl s
  | reset => exact absurd rfl hreset
  | start hi => exact sameRunConstants_startRun fun hacc => hstart ⟨hi, hacc⟩
  | write r d => exact ⟨writeParam_mixFrac s r d, writeParam_amountFrac s r d, writeParam_lfoInc s r d⟩
  | read => exact ⟨rfl, rfl, rfl⟩
  | take d => exact sameRunConstants_takeStep d s
  | endOfInput => exact sameRunConstants_endOfInputStep s

/-- CHECK and the µops, run by themselves, read the per-run constants and write none. -/
theorem sameRunConstants_of_not_hostOp {i : Instr} {t : State} (hi : isHostOp i = false) (hinit : i ≠ .init)
    (h : exec i s = .next t) : SameRunConstants s t := by
  cases i with
  | init => exact absurd rfl hinit
  | inTake => cases h; exact ⟨inTakeOp_mixFrac s, inTakeOp_amountFrac s, inTakeOp_lfoInc s⟩
  | check | lfoAdv | lfoSin | lfoSqr | exc | carInc | carAdv | carSin | dry | ring | wet | xfade | trunc | outPut
  | stopExh => cases h; exact ⟨rfl, rfl, rfl⟩
  | _ => cases hi

/-! ### Reads -/

/-- RDREG appends the register's value to what the host has read (41_run_control R73). -/
theorem reads_of_exec_rdreg {num : Reg} {t : State} (h : exec (.rdreg num) s = .next t) :
    t.reads = s.reads ++ [readReg num s] := by
  cases h; rfl

/-- No register number is a hidden register's. -/
theorem readReg_with_hidden (num : Reg) (s : State) (lp cp mf af li : F64) :
    readReg num { s with lfoPhase := lp, carrierPhase := cp, mixFrac := mf, amountFrac := af, lfoInc := li }
      = readReg num s := by
  cases num <;> rfl

end Sys2Proof.Machine

namespace Sys2Proof.Proofs

open Sys2Proof Sys2Proof.Machine

/-- Settles O53: a host operation by its effect, CHECK and the µops one by one. -/
theorem runConstantsKeepTheirValue : Obligations.RunConstantsKeepTheirValue := by
  intro i s t hreset hinit hstart h
  cases hi : isHostOp i with
  | true => exact (exec_hostEffect hi h).sameRunConstants hreset hstart
  | false => exact sameRunConstants_of_not_hostOp hi hinit h

/-- Settles O56: both reads append `readReg num`, which no hidden register enters. -/
theorem readsDoNotShowHiddenRegisters : Obligations.ReadsDoNotShowHiddenRegisters := by
  intro s t u num lp cp mf af li ht hu
  rw [reads_of_exec_rdreg ht, reads_of_exec_rdreg hu, readReg_with_hidden]

end Sys2Proof.Proofs
end

