-- ==== Sys2Proof/Proofs/RejectedWords.lean ====
section
/-! PROOFS. Which words of each format select no operation, and under which name they are rejected (20_memory R33,
30_encoding R51, R55; 45_step R98). -/

namespace Sys2Proof

variable {e : DecodeError}

theorem decode_sig_eq_error_iff (level : BitVec 1) :
    decode (.sig level) = .error e ↔ level = 0#1 ∧ e = .resetNotAsserted := by
  have levels : level = 0#1 ∨ level = 1#1 := by revert level; decide
  rcases levels with rfl | rfl <;> simp [decode, eq_comm]

theorem decodeStream_eq_error_iff (sel : BitVec 2) (d : BitVec 32) :
    decodeStream sel d = .error e ↔
      (sel = 0b00#2 ∧ e = .nothingOffered) ∨ (sel = 0b11#2 ∧ e = .offerAndEnd) := by
  have levels : sel = 0b00#2 ∨ sel = 0b01#2 ∨ sel = 0b10#2 ∨ sel = 0b11#2 := by revert sel; decide
  rcases levels with rfl | rfl | rfl | rfl <;> simp [decodeStream, eq_comm]

theorem decodeUop_eq_error_iff (slot : BitVec 4) (w : Bool) :
    decodeUop slot w = .error e ↔ e = .reservedSlot ∧ 14 ≤ slot.toNat := by
  revert slot w
  cases e <;> decide

/-- The slot and the waveform bit are all there is to a `UOP` word. -/
theorem eq_uopWord (sel : BitVec 5) : .uop sel = uopWord (sel.extractLsb' 1 4) (sel.getLsbD 0) := by
  rw [uopWord, Request.uop.injEq]
  revert sel
  decide

theorem decode_uopWord (slot : BitVec 4) (w : Bool) : decode (uopWord slot w) = decodeUop slot w := by
  have fields : ∀ (slot : BitVec 4) (w : Bool),
      (slot ++ BitVec.ofBool w).extractLsb' 1 4 = slot ∧ (slot ++ BitVec.ofBool w).getLsbD 0 = w := by decide
  obtain ⟨hslot, hw⟩ := fields slot w
  show decodeUop _ _ = _
  rw [hslot, hw]

theorem decode_uop_eq_error_iff (sel : BitVec 5) :
    decode (.uop sel) = .error e ↔
      (∃ slot w, .uop sel = uopWord slot w ∧ 14 ≤ slot.toNat) ∧ e = .reservedSlot := by
  constructor
  · intro h
    rw [eq_uopWord, decode_uopWord, decodeUop_eq_error_iff] at h
    obtain ⟨he, hslot⟩ := h
    exact ⟨⟨_, _, eq_uopWord sel, hslot⟩, he⟩
  · rintro ⟨⟨slot, w, hword, hslot⟩, he⟩
    rw [hword, decode_uopWord, decodeUop_eq_error_iff]
    exact ⟨he, hslot⟩

/-- Every rejection, by the format of the word. -/
theorem decode_eq_error_iff (r : Request) :
    decode r = .error e ↔
      (r = .sig 0 ∧ e = .resetNotAsserted) ∨
      ((∃ d b, r = .stream 0b00#2 d b) ∧ e = .nothingOffered) ∨
      ((∃ d b, r = .stream 0b11#2 d b) ∧ e = .offerAndEnd) ∨
      ((∃ slot w, r = uopWord slot w ∧ 14 ≤ slot.toNat) ∧ e = .reservedSlot) := by
  cases r with
  | sig level => simp [decode_sig_eq_error_iff, uopWord]
  | reg sel d => simp [decode, uopWord]
  | cmd v => simp [decode, uopWord]
  | stream sel d ready => simp [decode, decodeStream_eq_error_iff, uopWord]
  | uop sel => simp [decode_uop_eq_error_iff]

end Sys2Proof

namespace Sys2Proof.Proofs

open Sys2Proof Sys2Proof.Machine

/-- Settles O2: the words rejected under each of the four names are a case of
`decode_eq_error_iff`. -/
theorem onlyNamedWordsAreRejected : Obligations.OnlyNamedWordsAreRejected := by
  intro r
  simp [decode_eq_error_iff]

end Sys2Proof.Proofs
end

