-- ==== Sys2Proof/Proofs/StatusOutputs.lean ====
section
/-! PROOFS. The level outputs against the `STATUS` word (60_exceptions R115). -/

namespace Sys2Proof.Machine

theorem statusWord_state (s : State) : (statusWord s).extractLsb' 0 2 = runStateCode s.runState := by
  unfold statusWord
  generalize runStateCode s.runState = c
  generalize s.truncated = b
  revert b c
  decide

theorem statusWord_truncated (s : State) : (statusWord s).getLsbD 2 = s.truncated := by
  unfold statusWord
  generalize runStateCode s.runState = c
  generalize s.truncated = b
  revert b c
  decide

theorem doneOut_iff (s : State) : doneOut s = true ↔ runStateCode s.runState = 0b10#2 := by
  unfold doneOut
  cases s.runState <;> decide

theorem errorOut_iff (s : State) : errorOut s = true ↔ runStateCode s.runState = 0b11#2 := by
  unfold errorOut
  cases s.runState <;> decide

end Sys2Proof.Machine

namespace Sys2Proof.Proofs

open Sys2Proof Sys2Proof.Machine

/-- Settles O55: the value read is `statusWord`, whose fields are the run state's code and TRUNCATED. -/
theorem outputsCopyTheStatusBits : Obligations.OutputsCopyTheStatusBits := by
  intro s t v hread hv
  obtain rfl : v = statusWord s := by
    simpa [reads_of_exec_rdreg hread, readReg, eq_comm] using hv
  rw [statusWord_state, statusWord_truncated]
  exact ⟨doneOut_iff s, errorOut_iff s, rfl⟩

end Sys2Proof.Proofs
end

