-- ==== Sys2Proof/Proofs/PortSignals.lean ====
section
/-! PROOFS. The port signals by what stands on the input port (20_memory R33, R35), and the transfer STEP.TAKE makes. -/

namespace Sys2Proof.Machine

variable {s : State} {d : BitVec 32}

/-! ### The signals -/

theorem outData_of_sample (h : s.inPort = .sample d) :
    outData s = if s.runState = .running then some (computeResult d s).tmp.v else none := by
  rw [outData, h]

theorem outValid_of_sample (h : s.inPort = .sample d) : outValid s = (s.runState == .running) := by
  rw [outValid, outData_of_sample h]
  by_cases hr : s.runState = .running <;> simp [hr]

/-- Without a sample on the port no result is offered. -/
theorem outValid_of_not_sample (h : ∀ d, s.inPort ≠ .sample d) : outValid s = false := by
  cases hp : s.inPort with
  | sample d => exact absurd hp (h d)
  | nothing | endOfInput => rw [outValid, outData, hp]; rfl

theorem inReady_of_sample (h : s.inPort = .sample d) : inReady s = takeEnabled s := by
  rw [inReady, h]

theorem inReady_of_endOfInput (h : s.inPort = .endOfInput) : inReady s = endEnabled s := by
  rw [inReady, h]

theorem inReady_of_nothing (h : s.inPort = .nothing) : inReady s = false := by
  rw [inReady, h]

/-! ### The transfer -/

/-- The result of a sample is in the range of `iW` (40_numerics R67). -/
theorem computeResult_v_mem_range (d : BitVec 32) (s : State) :
    minSample s.cfg.sampleBits ≤ (computeResult d s).tmp.v ∧
      (computeResult d s).tmp.v ≤ maxSample s.cfg.sampleBits := by
  obtain ⟨k, hv, hk⟩ := computeResult_eq d s
  have hresult : (computeResult d s).tmp.v = k.v := by rw [hk]
  rw [hresult, hv]
  exact f2i_mem_range _ _

/-- Slots 0 to 11 transfer nothing. -/
@[simp] theorem computeResult_out (d : BitVec 32) (s : State) : (computeResult d s).out = s.out := by
  obtain ⟨k, -, hk⟩ := computeResult_eq d s
  rw [hk]

@[simp] theorem computeResult_received (d : BitVec 32) (s : State) :
    (computeResult d s).received = s.received := by
  obtain ⟨k, -, hk⟩ := computeResult_eq d s
  rw [hk]

theorem exec_stepTake_of_enabled (h : takeEnabled s = true) (d : BitVec 32) :
    exec (.stepTake d) s = .next (endStep (outPutOp (computeResult d s))) := by
  show execStepTake d s = _
  rw [execStepTake, if_pos h]

theorem exec_stepTake_of_not_enabled (h : takeEnabled s = false) (d : BitVec 32) :
    exec (.stepTake d) s = .next s := by
  show execStepTake d s = _
  rw [execStepTake, h]; rfl

/-- When the sample on the port can be taken, the value STEP.TAKE appends is the one `out_data` shows. -/
theorem exec_stepTake_transfers_outData (hp : s.inPort = .sample d) (h : takeEnabled s = true) :
    ∃ v t, outData s = some v ∧ exec (.stepTake d) s = .next t ∧ t.inPort = .nothing ∧
      t.received = s.received ++ [v] ∧ t.out = s.out ++ [v] ∧
      minSample s.cfg.sampleBits ≤ v ∧ v ≤ maxSample s.cfg.sampleBits := by
  obtain ⟨hr, -⟩ := (takeEnabled_iff s).1 h
  exact ⟨(computeResult d s).tmp.v, endStep (outPutOp (computeResult d s)),
    by rw [outData_of_sample hp, if_pos hr], exec_stepTake_of_enabled h d, endStep_inPort _, by simp, by simp,
    computeResult_v_mem_range d s⟩

end Sys2Proof.Machine

namespace Sys2Proof.Proofs

open Sys2Proof Sys2Proof.Machine

/-- Settles O21, by what stands on the input port. -/
theorem portSignalsSayWhatTransfers : Obligations.PortSignalsSayWhatTransfers := by
  intro s
  refine ⟨fun d hp => ⟨?_, ?_, fun h => ?_, fun h => ?_⟩, fun hp => ⟨?_, ?_⟩, fun hp => ⟨?_, ?_⟩⟩
  · rw [outValid_of_sample hp, beq_iff_eq]
  · rw [inReady_of_sample hp, outValid_of_sample hp, takeEnabled]
  · exact exec_stepTake_transfers_outData hp (inReady_of_sample hp ▸ h)
  · exact exec_stepTake_of_not_enabled (inReady_of_sample hp ▸ h) d
  · exact outValid_of_not_sample (by simp [hp])
  · rw [inReady_of_endOfInput hp, endEnabled_iff]
  · exact outValid_of_not_sample (by simp [hp])
  · exact inReady_of_nothing hp

end Sys2Proof.Proofs
end

