-- ==== Sys2Proof/Proofs/MemoryFrames.lean ====
section
/-! PROOFS. What a run leaves alone: everything, for an operation of the host that is no STEP and no RESET; the parameter
and size registers, for every operation but RESET (20_memory R42); and what is only ever appended to (R34). -/

namespace Sys2Proof.Machine

variable {s t : State} {i : Instr}

/-- START is ignored in RUNNING (41_run_control R75). -/
theorem startRun_of_running (h : s.runState = .running) : startRun s = s := by
  rw [startRun, if_pos h]

/-! ### The host's operations in a run -/

/-- In a run START is ignored and a write is dropped, so only a read leaves a trace: the value returned. -/
theorem HostEffect.appends_reads_of_running (h : HostEffect s i t) (hr : s.runState = .running) (hreset : i ≠ .reset)
    (htake : ∀ d, i ≠ .stepTake d) (hend : i ≠ .stepEnd) : ∃ r, t = { s with reads := s.reads ++ r } := by
  cases h with
  | unchanged => exact ⟨[], by rw [List.append_nil]⟩
  | reset => exact absurd rfl hreset
  | start => exact ⟨[], by rw [startRun_of_running hr, List.append_nil]⟩
  | write r d hnr => exact absurd hr hnr
  | read r => exact ⟨[readReg r s], rfl⟩
  | take d => exact absurd rfl (htake d)
  | endOfInput => exact absurd rfl hend

/-! ### The parameter and size registers -/

/-- The seven parameter and size registers of `t` are those of `s` (20_memory R42). -/
def SameParams (s t : State) : Prop :=
  t.sampleRate = s.sampleRate ∧ t.sampleLength = s.sampleLength ∧ t.mix = s.mix ∧ t.lfoWaveform = s.lfoWaveform ∧
  t.amount = s.amount ∧ t.rate = s.rate ∧ t.frequency = s.frequency

theorem SameParams.refl (s : State) : SameParams s s := ⟨rfl, rfl, rfl, rfl, rfl, rfl, rfl⟩

/-- Of the host's operations only a write and RESET change a parameter, and a run admits no write. -/
theorem HostEffect.sameParams_of_running (h : HostEffect s i t) (hr : s.runState = .running) (hreset : i ≠ .reset) :
    SameParams s t := by
  cases h with
  | unchanged => exact .refl s
  | reset => exact absurd rfl hreset
  | start => rw [startRun_of_running hr]; exact .refl s
  | write r d hnr => exact absurd hr hnr
  | read => exact .refl s
  | take d => obtain ⟨p, c, v, -, -, heq⟩ := takeStep_eq d s; rw [heq]; exact .refl s
  | endOfInput => obtain ⟨p, c, heq⟩ := endOfInputStep_eq s; rw [heq]; exact .refl s

/-- CHECK, INIT and the µops, run by themselves, write no parameter. -/
theorem sameParams_of_not_hostOp (hi : isHostOp i = false) (h : exec i s = .next t) : SameParams s t := by
  cases i with
  | inTake => cases h; simp [SameParams]
  | check | init | lfoAdv | lfoSin | lfoSqr | exc | carInc | carAdv | carSin | dry | ring | wet | xfade | trunc
  | outPut | stopExh => cases h; exact .refl s
  | _ => cases hi

/-! ### What is only appended to -/

/-- No sample the host has received is taken back, and `W` stays (20_memory R34; 00_scope R7). -/
def KeepsReceived (s t : State) : Prop := s.received <+: t.received ∧ t.cfg = s.cfg

theorem KeepsReceived.refl (s : State) : KeepsReceived s s := ⟨List.prefix_rfl, rfl⟩

theorem keepsReceived_startRun (s : State) : KeepsReceived s (startRun s) := by
  obtain ⟨-, heq⟩ | ⟨-, -, heq⟩ | ⟨-, -, heq⟩ := startRun_cases s <;> rw [heq] <;> exact .refl s

theorem HostEffect.keepsReceived (h : HostEffect s i t) : KeepsReceived s t := by
  cases h with
  | unchanged | reset | read => exact .refl s
  | start => exact keepsReceived_startRun s
  | write r d => simp [KeepsReceived]
  | take d =>
    obtain ⟨p, c, v, -, -, heq⟩ := takeStep_eq d s
    rw [heq]; exact ⟨List.prefix_append _ _, rfl⟩
  | endOfInput => obtain ⟨p, c, heq⟩ := endOfInputStep_eq s; rw [heq]; exact .refl s

/-- RESET and START empty the output sequence; a STEP.TAKE appends to it. -/
theorem HostEffect.appends_out (h : HostEffect s i t) (hreset : i ≠ .reset) (hstart : isStart i = false) :
    s.out <+: t.out := by
  cases h with
  | unchanged | read => exact List.prefix_rfl
  | reset => exact absurd rfl hreset
  | start hi => simp [hi] at hstart
  | write r d => simp
  | take d =>
    obtain ⟨p, c, v, -, -, heq⟩ := takeStep_eq d s
    rw [heq]; exact List.prefix_append _ _
  | endOfInput => obtain ⟨p, c, heq⟩ := endOfInputStep_eq s; simp [heq]

/-- Of CHECK, INIT and the µops, only OUT_PUT touches the output, and it appends one element (44_ringmod_mixer R94). -/
theorem appends_of_not_hostOp (hi : isHostOp i = false) (h : exec i s = .next t) :
    KeepsReceived s t ∧ s.out <+: t.out := by
  cases i with
  | outPut => cases h; exact ⟨⟨List.prefix_append _ _, rfl⟩, List.prefix_append _ _⟩
  | inTake => cases h; simp [KeepsReceived]
  | check | init | lfoAdv | lfoSin | lfoSqr | exc | carInc | carAdv | carSin | dry | ring | wet | xfade | trunc
  | stopExh => cases h; exact ⟨.refl s, List.prefix_rfl⟩
  | _ => cases hi

end Sys2Proof.Machine

namespace Sys2Proof.Proofs

open Sys2Proof Sys2Proof.Machine

/-- Settles O50: every operation answers a state, and its effect in a run is on the log of reads alone. -/
theorem onlyStepsAndResetActInARun : Obligations.OnlyStepsAndResetActInARun := by
  intro i s hr hi hreset htake hend
  obtain ⟨t, ht⟩ := exec_answers_next i s
  obtain ⟨r, rfl⟩ := (exec_hostEffect hi ht).appends_reads_of_running hr hreset htake hend
  exact ⟨r, ht⟩

/-- Settles O51: a host operation by its effect in a run, CHECK, INIT and the µops one by one. -/
theorem parametersAreFrozenInARun : Obligations.ParametersAreFrozenInARun := by
  intro i s t hr hreset h
  cases hi : isHostOp i with
  | true => exact (exec_hostEffect hi h).sameParams_of_running hr hreset
  | false => exact sameParams_of_not_hostOp hi h

/-- Settles O54: a host operation by its effect, CHECK, INIT and the µops one by one. -/
theorem outputIsOnlyAppended : Obligations.OutputIsOnlyAppended := by
  intro i s t h
  cases hi : isHostOp i with
  | true =>
    have heff := exec_hostEffect hi h
    obtain ⟨hreceived, hcfg⟩ := heff.keepsReceived
    exact ⟨hreceived, hcfg, heff.appends_out⟩
  | false =>
    obtain ⟨⟨hreceived, hcfg⟩, hout⟩ := appends_of_not_hostOp hi h
    exact ⟨hreceived, hcfg, fun _ _ => hout⟩

end Sys2Proof.Proofs
end

