-- ==== Sys2Proof/Proofs/Codec.lean ====
section
/-! PROOFS. Decoding and encoding agree (30_encoding R44, R48, R49, R51): the word an operation is encoded to decodes to it
(`decode_of_encode`), what a word decodes to is encoded to that word's canonical form (`encode_of_decode`), and the two
forms decode alike (`decode_canonical`). -/

namespace Sys2Proof

variable {r : Request} {i : Instr}

/-! ### The fields of a word -/

theorem dataOfWidth_idem (num : Reg) (d : BitVec 64) :
    dataOfWidth num (dataOfWidth num d) = dataOfWidth num d :=
  dataOfWidth_of_fits (dataFits_dataOfWidth num d)

theorem dataFits_of_dataOfWidth_eq {num : Reg} {d : BitVec 64} (h : dataOfWidth num d = d) : dataFits num d = true :=
  h ▸ dataFits_dataOfWidth num d

/-- Every `REG` word selects a write or a read of some register (R49). -/
theorem regSel_cases (sel : BitVec 5) : ∃ num, sel = 1#1 ++ numOfReg num ∨ sel = 0#1 ++ numOfReg num := by
  refine ⟨regOfNum (sel.extractLsb' 0 4), ?_⟩
  rw [numOfReg_regOfNum]
  revert sel
  decide

theorem regSel_fields (wr : BitVec 1) (num : Reg) :
    (wr ++ numOfReg num).getLsbD 4 = wr.getLsbD 0 ∧ regOfNum ((wr ++ numOfReg num).extractLsb' 0 4) = num := by
  have fields : ∀ (wr : BitVec 1) (n : BitVec 4),
      (wr ++ n).getLsbD 4 = wr.getLsbD 0 ∧ (wr ++ n).extractLsb' 0 4 = n := by decide
  obtain ⟨hwr, hnum⟩ := fields wr (numOfReg num)
  exact ⟨hwr, by rw [hnum, regOfNum_numOfReg]⟩

theorem canonical_wrregWord (num : Reg) (d : BitVec 64) :
    canonical (.reg (1#1 ++ numOfReg num) d) = .reg (1#1 ++ numOfReg num) (dataOfWidth num d) := by
  obtain ⟨hwr, hnum⟩ := regSel_fields 1#1 num
  rw [canonical, hwr, if_pos (by decide), hnum]

theorem canonical_rdregWord (num : Reg) (d : BitVec 64) :
    canonical (.reg (0#1 ++ numOfReg num) d) = .reg (0#1 ++ numOfReg num) 0 := by
  obtain ⟨hwr, -⟩ := regSel_fields 0#1 num
  rw [canonical, hwr, if_neg (by decide)]

/-- The levels `in_valid ++ in_end` of a `STREAM` word (20_memory R33). -/
theorem streamSel_cases (sel : BitVec 2) : sel = 0b00#2 ∨ sel = 0b01#2 ∨ sel = 0b10#2 ∨ sel = 0b11#2 := by
  revert sel; decide

/-! ### The words of an operation decode to it -/

theorem decode_wrregWord (num : Reg) (d : BitVec 64) :
    decode (.reg (1#1 ++ numOfReg num) d) = .ok (.wrreg num (dataOfWidth num d)) := by
  obtain ⟨hwr, hnum⟩ := regSel_fields 1#1 num
  rw [decode, decodeReg, hnum, hwr, if_pos (by decide)]

theorem decode_rdregWord (num : Reg) (d : BitVec 64) :
    decode (.reg (0#1 ++ numOfReg num) d) = .ok (.rdreg num) := by
  obtain ⟨hwr, hnum⟩ := regSel_fields 0#1 num
  rw [decode, decodeReg, hnum, hwr, if_neg (by decide)]

/-- A well-formed operation comes back from its own word. -/
theorem decode_of_encode (hi : i.wellFormed = true) (h : encode i = some r) : decode r = .ok i := by
  cases i with
  | wrreg num d => cases h; rw [decode_wrregWord, dataOfWidth_of_fits hi]
  | rdreg num => cases h; exact decode_rdregWord num 0
  | check | init => cases h
  | _ => cases h; rfl

/-- CHECK and INIT have no word (41_run_control R76, R77). -/
theorem encodable_of_encode (h : encode i = some r) : i.encodable = true := by
  cases i with
  | check | init => cases h
  | _ => rfl

/-! ### A word is its operation's word up to the ignored bits -/

theorem encode_of_decode_reg {sel : BitVec 5} {d : BitVec 64} (h : decode (.reg sel d) = .ok i) :
    encode i = some (canonical (.reg sel d)) := by
  obtain ⟨num, rfl | rfl⟩ := regSel_cases sel
  · rw [decode_wrregWord] at h; cases h; rw [canonical_wrregWord]; rfl
  · rw [decode_rdregWord] at h; cases h; rw [canonical_rdregWord]; rfl

theorem encode_decodeCmd (v : Word32) : encode (decodeCmd v) = some (canonical (.cmd v)) := by
  rw [decodeCmd, canonical]
  generalize v.extractLsb' 0 2 = code
  clear v
  revert code; decide

theorem encode_of_decode_stream {sel : BitVec 2} {d : BitVec 32} {ready : Bool}
    (h : decode (.stream sel d ready) = .ok i) : encode i = some (canonical (.stream sel d ready)) := by
  rcases streamSel_cases sel with rfl | rfl | rfl | rfl <;> cases h <;> rfl

theorem encode_of_decode_uop {sel : BitVec 5} (h : decode (.uop sel) = .ok i) :
    encode i = some (canonical (.uop sel)) := by
  have allWords : ∀ sel : BitVec 5, ∀ i ∈ (decode (.uop sel)).toOption, encode i = some (canonical (.uop sel)) := by
    decide
  exact allWords sel i (by rw [h]; rfl)

/-- What a word decodes to has the word's canonical form as its own word. -/
theorem encode_of_decode (h : decode r = .ok i) : encode i = some (canonical r) := by
  cases r with
  | sig level => rw [decode] at h; split at h <;> cases h; subst level; rfl
  | reg sel d => exact encode_of_decode_reg h
  | cmd v => cases h; exact encode_decodeCmd v
  | stream sel d ready => exact encode_of_decode_stream h
  | uop sel => exact encode_of_decode_uop h

/-! ### The ignored bits select nothing -/

theorem decode_canonical_reg (sel : BitVec 5) (d : BitVec 64) :
    decode (canonical (.reg sel d)) = decode (.reg sel d) := by
  obtain ⟨num, rfl | rfl⟩ := regSel_cases sel
  · rw [canonical_wrregWord, decode_wrregWord, decode_wrregWord, dataOfWidth_idem]
  · rw [canonical_rdregWord, decode_rdregWord, decode_rdregWord]

theorem decode_canonical_cmd (v : Word32) : decode (canonical (.cmd v)) = decode (.cmd v) := by
  have code : ∀ c : BitVec 2, (c.setWidth 32).extractLsb' 0 2 = c := by decide
  simp only [canonical, decode, decodeCmd, code]

theorem decode_canonical_stream (sel : BitVec 2) (d : BitVec 32) (ready : Bool) :
    decode (canonical (.stream sel d ready)) = decode (.stream sel d ready) := by
  rcases streamSel_cases sel with rfl | rfl | rfl | rfl <;> rfl

/-- A word and its canonical form ask for the same operation, or are rejected alike. -/
theorem decode_canonical (r : Request) : decode (canonical r) = decode r := by
  cases r with
  | sig level => rfl
  | reg sel d => exact decode_canonical_reg sel d
  | cmd v => exact decode_canonical_cmd v
  | stream sel d ready => exact decode_canonical_stream sel d ready
  | uop sel => revert sel; decide

/-! ### Agreement -/

theorem decode_eq_ok_iff (hi : i.wellFormed = true) : decode r = .ok i ↔ encode i = some (canonical r) := by
  constructor
  · exact encode_of_decode
  · intro h
    rw [← decode_canonical]
    exact decode_of_encode hi h

/-- Only a write carries data that could be too wide: its canonical word decodes to data cut to the register's width. -/
theorem wellFormed_of_decode (h : decode r = .ok i) : i.wellFormed = true := by
  cases i with
  | wrreg num d =>
    have hword : canonical r = .reg (1#1 ++ numOfReg num) d := (Option.some.inj (encode_of_decode h)).symm
    rw [← decode_canonical, hword, decode_wrregWord] at h
    exact dataFits_of_dataOfWidth_eq (by simpa using h)
  | _ => rfl

end Sys2Proof

namespace Sys2Proof.Proofs

open Sys2Proof Sys2Proof.Machine

/-- Settles O1: `decode_eq_ok_iff`, and that decoded operations are well-formed and have a word. -/
theorem decodeAndEncodeAgree : Obligations.DecodeAndEncodeAgree :=
  ⟨fun _ _ hi => decode_eq_ok_iff hi,
   fun _ _ h => ⟨wellFormed_of_decode h, encodable_of_encode (encode_of_decode h)⟩⟩

/-- Settles O3: the decoder computes each of the ten words. -/
theorem wordsOfTheTablesDecode : Obligations.WordsOfTheTablesDecode := by
  unfold Obligations.WordsOfTheTablesDecode
  decide

end Sys2Proof.Proofs
end

