-- ==== Sys2Proof/Proofs/Sequencer.lean ====
section
/-! PROOFS. The sequencer's run of a STEP, in the parts the STEP is composed of: slots 0 to 5 are `oscillators`, slots 7 to
11 `mixer`, with one µop each for slots 6, 12 and 13 (30_encoding R51; 45_step R97). -/

namespace Sys2Proof.Machine

variable {s t : State} {i : Instr}

/-! ### One slot and several -/

theorem runSlot_eq_exec {slot : BitVec 4} (hslot : s.tmp.slot = slot) (hd : decodeUop slot (waveBit s) = .ok i) :
    runSlot s = exec i s := by
  rw [runSlot, decode_uopWord, hslot, hd]

theorem runSlots_succ (k : Nat) (h : runSlot s = .next t) : runSlots (k + 1) s = runSlots k t := by
  rw [runSlots, h]

theorem runSlots_add {m : Nat} (n : Nat) (h : runSlots m s = .next t) : runSlots (m + n) s = runSlots n t := by
  induction m generalizing s with
  | zero => cases h; rw [Nat.zero_add]
  | succ m ih =>
    rw [runSlots] at h
    split at h
    next u hu => rw [Nat.succ_add, runSlots_succ _ hu, ih h]
    all_goals cases h

/-! ### The µops by slot -/

/-- Slot 1 runs the µop of the waveform bit (42_lfo R81). -/
theorem runSlot_lfoShape (hslot : s.tmp.slot = 1) : runSlot s = .next (lfoShapeOp s) := by
  cases hw : waveBit s
  · rw [runSlot_eq_exec (i := .lfoSin) hslot (by rw [hw]; rfl), lfoShapeOp, hw]; rfl
  · rw [runSlot_eq_exec (i := .lfoSqr) hslot (by rw [hw]; rfl), lfoShapeOp, hw]; rfl

theorem lfoShapeOp_slot (s : State) : (lfoShapeOp s).tmp.slot = 2 := by rw [lfoShapeOp_eq]

theorem runSlots_oscillators (hslot : s.tmp.slot = 0) : runSlots 6 s = .next (oscillators s) := by
  rw [runSlots_succ 5 (runSlot_eq_exec (i := .lfoAdv) hslot rfl), runSlots_succ 4 (runSlot_lfoShape rfl),
    runSlots_succ 3 (runSlot_eq_exec (i := .exc) (lfoShapeOp_slot _) rfl),
    runSlots_succ 2 (runSlot_eq_exec (i := .carInc) rfl rfl),
    runSlots_succ 1 (runSlot_eq_exec (i := .carAdv) rfl rfl),
    runSlots_succ 0 (runSlot_eq_exec (i := .carSin) rfl rfl)]
  rfl

theorem runSlots_mixer (hslot : s.tmp.slot = 7) : runSlots 5 s = .next (mixer s) := by
  rw [runSlots_succ 4 (runSlot_eq_exec (i := .dry) hslot rfl), runSlots_succ 3 (runSlot_eq_exec (i := .ring) rfl rfl),
    runSlots_succ 2 (runSlot_eq_exec (i := .wet) rfl rfl), runSlots_succ 1 (runSlot_eq_exec (i := .xfade) rfl rfl),
    runSlots_succ 0 (runSlot_eq_exec (i := .trunc) rfl rfl)]
  rfl

theorem runSlot_inTake (hslot : s.tmp.slot = 6) : runSlot s = .next (inTakeOp s) :=
  runSlot_eq_exec (i := .inTake) hslot rfl

theorem runSlot_outPut (hslot : s.tmp.slot = 12) : runSlot s = .next (outPutOp s) :=
  runSlot_eq_exec (i := .outPut) hslot rfl

theorem runSlot_stopExh (hslot : s.tmp.slot = 13) : runSlot s = .next (stopExhOp s) :=
  runSlot_eq_exec (i := .stopExh) hslot rfl

/-! ### The two STEPs -/

theorem oscillators_slot (s : State) : (oscillators s).tmp.slot = 6 := by rw [oscillators_eq]

theorem mixer_slot (s : State) : (mixer s).tmp.slot = 12 := by rw [mixer_eq]

/-- Slots 0 to 6 of a STEP: the oscillators, then IN_TAKE. -/
theorem runSlots_through_inTake (o : Offer) (n : Nat) (s : State) :
    runSlots (7 + n) (beginStep o s) = runSlots n (inTakeOp (oscillators (beginStep o s))) := by
  rw [show 7 + n = 6 + (n + 1) by omega, runSlots_add (n + 1) (runSlots_oscillators rfl),
    runSlots_succ n (runSlot_inTake (oscillators_slot _))]

/-- With a sample on the port the thirteen slots compute the result and put it out. -/
theorem runSlots_takeStep (d : BitVec 32) (s : State) :
    runSlots 13 (beginStep (.sample d) s) = .next (outPutOp (computeResult d s)) := by
  have hport : (oscillators (beginStep (.sample d) s)).inPort = .sample d := by rw [oscillators_inPort]; rfl
  have hslot : (inTakeOp (oscillators (beginStep (.sample d) s))).tmp.slot = 7 := by rw [inTakeOp_sample hport]
  rw [runSlots_through_inTake (.sample d) 6, runSlots_add 1 (runSlots_mixer hslot),
    runSlots_succ 0 (runSlot_outPut (mixer_slot _))]
  rfl

/-- With the end on the port IN_TAKE goes on at slot 13, the eighth of the run. -/
theorem runSlots_endOfInputStep (s : State) :
    runSlots 8 (beginStep .endOfInput s) =
      .next (stopExhOp (inTakeOp (oscillators (beginStep .endOfInput s)))) := by
  have hport : (oscillators (beginStep .endOfInput s)).inPort = .endOfInput := by rw [oscillators_inPort]; rfl
  have hslot : (inTakeOp (oscillators (beginStep .endOfInput s))).tmp.slot = 13 := by rw [inTakeOp_endOfInput hport]
  rw [runSlots_through_inTake .endOfInput 1, runSlots_succ 0 (runSlot_stopExh hslot)]
  rfl

theorem exec_stepEnd_of_running (h : s.runState = .running) :
    exec .stepEnd s = .next (endStep (stopExhOp (inTakeOp (oscillators (beginStep .endOfInput s))))) := by
  show execStepEnd s = _
  rw [execStepEnd, if_pos ((endEnabled_iff s).2 h)]

end Sys2Proof.Machine

namespace Sys2Proof.Proofs

open Sys2Proof Sys2Proof.Machine

/-- Settles O18: `runSlots_takeStep` and `runSlots_endOfInputStep` against the enabled STEPs. -/
theorem stepIsTheSequenceOfItsMicroOps : Obligations.StepIsTheSequenceOfItsMicroOps := by
  intro s d
  constructor
  · intro hr hready
    exact ⟨_, runSlots_takeStep d s, exec_stepTake_of_enabled ((takeEnabled_iff s).2 ⟨hr, hready⟩) d⟩
  · intro hr
    exact ⟨_, runSlots_endOfInputStep s, exec_stepEnd_of_running hr⟩

end Sys2Proof.Proofs
end

