-- ==== Sys2Proof/Proofs/NearestRounding.lean ====
section
/-! PROOFS. The rounding of 40_numerics R58: the result is the binary64 number nearest the exact quotient, ties to even,
and it is finite short of overflow. -/

namespace Sys2Proof.Machine

/-- The rounded magnitude is at least as near as every other, and even when another one is as near. -/
theorem roundBits_nearest {num den : Nat} (hden : 0 < den) (hfin : roundBits num den < infBits) (m : Nat) :
    |(unitsOfBits (roundBits num den) * den : Int) - num| ≤ |(unitsOfBits m * den : Int) - num| ∧
    (m ≠ roundBits num den →
      |(unitsOfBits m * den : Int) - num| = |(unitsOfBits (roundBits num den) * den : Int) - num| →
      roundBits num den % 2 = 0) := by
  have hmono : StrictMono fun i => unitsOfBits i * den := unitsOfBits_strictMono.mul_const hden
  obtain ⟨b, hlo, hhi, he⟩ := roundBits_spec num hden
  rw [min_eq_left (by by_contra h; omega), Nat.sub_mul] at he
  simp only [Int.abs_eq_natAbs, ← Nat.cast_mul]
  have heven : num - unitsOfBits b * den = unitsOfBits (b + 1) * den - num → roundBits num den % 2 = 0 := by
    split_ifs at he <;> omega
  have hbest : roundBits num den = b ∧ num - unitsOfBits b * den ≤ unitsOfBits (b + 1) * den - num ∨
      roundBits num den = b + 1 ∧ unitsOfBits (b + 1) * den - num ≤ num - unitsOfBits b * den := by
    split_ifs at he <;> omega
  have hside : unitsOfBits m * den ≤ unitsOfBits b * den ∨ unitsOfBits (b + 1) * den ≤ unitsOfBits m * den :=
    (Nat.lt_or_ge b m).symm.imp (hmono.monotone ·) (hmono.monotone ·)
  have hne : m ≠ roundBits num den → unitsOfBits m * den ≠ unitsOfBits (roundBits num den) * den := hmono.injective.ne
  obtain ⟨hr, hnear⟩ | ⟨hr, hnear⟩ := hbest
  · rw [hr] at hne heven ⊢
    exact ⟨by omega, fun hm htie => heven (by have := hne hm; omega)⟩
  · rw [hr] at hne heven ⊢
    exact ⟨by omega, fun hm htie => heven (by have := hne hm; omega)⟩

/-- Short of overflow the rounded magnitude is finite. -/
theorem roundBits_lt_infBits {num den : Nat} (hden : 0 < den) (h : (num : Int) < overflowUnits * den) :
    roundBits num den < infBits := by
  have hU : unitsOfBits (infBits - 1) + unitsOfBits (infBits - 1 + 1) = 2 * ((2 ^ 54 - 1) * 2 ^ 2044) := by
    decide +kernel
  have hnum : num < (2 ^ 54 - 1) * 2 ^ 2044 * den := by
    have hover : overflowUnits = (((2 ^ 54 - 1) * 2 ^ 2044 : Nat) : Int) := by decide +kernel
    rw [hover] at h
    exact_mod_cast h
  have hle : roundBits num den ≤ infBits - 1 := by
    refine roundBits_le_of_near hden ?_
    rw [hU, Nat.mul_assoc 2]
    exact Nat.mul_lt_mul_of_pos_left hnum two_pos
  exact hle.trans_lt (by decide)

theorem unitsOfBits_eq_zero {m : Nat} : unitsOfBits m = 0 ↔ m = 0 :=
  unitsOfBits_strictMono.injective.eq_iff' unitsOfBits_zero

theorem roundBits_zero {den : Nat} (hden : 0 < den) : roundBits 0 den = 0 :=
  Nat.le_zero.mp (roundBits_le hden (Nat.zero_le _))

/-- The value of a number times a denominator, by sign and magnitude. -/
theorem scaled_mul_natCast (a : F64) (den : Nat) :
    scaled a * den = if signBit a then -((units a * den : Nat) : Int) else ((units a * den : Nat) : Int) := by
  rw [scaled]; split <;> push_cast <;> ring

/-- The distance of two signed magnitudes: across zero it is their sum. -/
theorem abs_signed_sub_signed (s t : Bool) (x n : Nat) :
    |(if t then -(x : Int) else x) - (if s then -(n : Int) else n)| = if t = s then |(x : Int) - n| else x + n := by
  cases s <;> cases t <;>
    simp only [Int.abs_eq_natAbs, Bool.false_eq_true, Bool.true_eq_false, if_true, if_false] <;> omega

/-- The bits with sign `s` and the rounded magnitude `num / den` are the number nearest `± num / den`. -/
theorem isNearest_packF64 (s : Bool) {num den : Nat} (hden : 0 < den) (hfin : roundBits num den < infBits) :
    IsNearest (packF64 s (roundBits num den)) (if s then -(num : Int) else num) den := by
  have hbits := hfin.trans infBits_lt
  have hdist (y : F64) : |scaled y * den - (if s then -(num : Int) else num)|
      = if signBit y = s then |(units y * den : Int) - num| else units y * den + num := by
    rw [scaled_mul_natCast, abs_signed_sub_signed, Nat.cast_mul]
  have hzero : units (packF64 s (roundBits num den)) * den = 0 ∨ num = 0 → roundBits num den = 0 := by
    rw [units_packF64 s hbits]
    rintro (h | rfl)
    · exact unitsOfBits_eq_zero.mp ((Nat.mul_eq_zero.mp h).resolve_right hden.ne')
    · exact roundBits_zero hden
  have hunits (y : F64) : unitsOfBits (magBits y) = units y := rfl
  have hround (y : F64) := roundBits_nearest hden hfin (magBits y)
  simp only [← units_packF64 s hbits, hunits] at hround
  refine ⟨isFinite_packF64 s hfin, fun y _ => ?_, fun y _ hne htie => ?_⟩
  · have hnear := (hround y).1
    rw [hdist, hdist, if_pos (signBit_packF64 s hbits)]
    split
    · exact hnear
    · simp only [Int.abs_eq_natAbs, ← Nat.cast_mul] at hnear ⊢; omega
  · obtain ⟨hnear, heven⟩ := hround y
    rw [hdist, hdist, if_pos (signBit_packF64 s hbits)] at htie
    rw [magBits_packF64 s hbits]
    by_cases hsign : signBit y = s
    · rw [if_pos hsign] at htie
      refine heven (fun hm => hne (congrArg scaled (eq_of_sign_mag ?_ ?_))) htie
      · rw [hsign, signBit_packF64 s hbits]
      · rw [hm, magBits_packF64 s hbits]
    · rw [if_neg hsign] at htie
      by_cases hm : magBits y = roundBits num den
      · rw [units_packF64 s hbits, ← hm, hunits] at htie hzero
        simp only [Int.abs_eq_natAbs, ← Nat.cast_mul] at htie
        rw [← hm, hzero (by omega)]
      · refine heven hm ?_
        simp only [Int.abs_eq_natAbs, ← Nat.cast_mul] at hnear htie ⊢; omega

end Sys2Proof.Machine
end

