-- ==== Sys2Proof/Proofs/FloatArithmetic.lean ====
section
/-! PROOFS. Addition, subtraction, multiplication and division of finite numbers (40_numerics R58 to R61). -/

namespace Sys2Proof.Machine

variable {a b : F64}

theorem abs_scaled (a : F64) : |scaled a| = units a := by rw [Int.abs_eq_natAbs, scaled_natAbs]

/-- A signed quotient `num / den`, rounded, is the number nearest it. -/
theorem isNearest_roundBits_natAbs {num : Int} {den : Nat} (hden : 0 < den) (hov : |num| < overflowUnits * den) :
    IsNearest (packF64 (decide (num < 0)) (roundBits num.natAbs den)) num den := by
  have h := isNearest_packF64 (decide (num < 0)) hden
    (roundBits_lt_infBits hden (num := num.natAbs) (by rwa [← Int.abs_eq_natAbs]))
  convert h using 1
  simp only [decide_eq_true_eq]
  split <;> omega

/-- Both zeros are the number nearest 0. -/
theorem isNearest_zero (s : Bool) {den : Nat} (hden : 0 < den) : IsNearest (packF64 s 0) 0 den := by
  have hround : roundBits 0 den = 0 := roundBits_zero hden
  simpa [hround] using isNearest_packF64 s hden (hround.trans_lt (by decide))

/-! ### Sums and differences -/

theorem isNearest_addCore (op : FloatOp) (ha : isFinite a = true) (hb : isFinite b = true)
    (hov : |scaled a + scaled b| < overflowUnits) : IsNearest (addCore op a b) (scaled a + scaled b) 1 := by
  simp only [addCore, isNaN_of_isFinite ha, isNaN_of_isFinite hb, isInf_of_isFinite ha, isInf_of_isFinite hb,
    Bool.or_self, Bool.false_eq_true, if_false]
  split
  next hz => rw [hz]; exact isNearest_zero _ one_pos
  next => exact isNearest_roundBits_natAbs one_pos (by simpa using hov)

@[simp] theorem isFinite_fneg (a : F64) : isFinite (fneg a) = isFinite a := by
  rw [isFinite, fneg, magBits_packF64 _ (magBits_lt a), isFinite]

@[simp] theorem scaled_fneg (a : F64) : scaled (fneg a) = -scaled a := by
  rw [fneg, scaled_packF64 _ (magBits_lt a), scaled, units]
  cases signBit a <;> simp

theorem isNearest_fadd (ha : isFinite a = true) (hb : isFinite b = true) (hov : |scaled a + scaled b| < overflowUnits) :
    IsNearest (fadd a b) (scaled a + scaled b) 1 := by
  rw [fadd]; exact isNearest_addCore .add ha hb hov

theorem isNearest_fsub (ha : isFinite a = true) (hb : isFinite b = true) (hov : |scaled a - scaled b| < overflowUnits) :
    IsNearest (fsub a b) (scaled a - scaled b) 1 := by
  rw [fsub, sub_eq_add_neg, ← scaled_fneg]
  exact isNearest_addCore .sub ha (by rwa [isFinite_fneg]) (by rwa [scaled_fneg, ← sub_eq_add_neg])

/-- The sign of an exact zero sum (R58). -/
theorem fadd_of_sum_zero (ha : isFinite a = true) (hb : isFinite b = true) (hz : scaled a + scaled b = 0) :
    fadd a b = if signBit a && signBit b then 0x8000000000000000 else 0 := by
  rw [fadd_of_finite ha hb, if_pos hz]
  cases signBit a && signBit b <;> rfl

/-! ### Products and quotients -/

theorem scaled_mul_scaled (a b : F64) :
    scaled a * scaled b = if signBit a != signBit b then -((units a * units b : Nat) : Int)
      else ((units a * units b : Nat) : Int) := by
  rw [scaled, scaled]; cases signBit a <;> cases signBit b <;> simp

theorem isNearest_fmul (ha : isFinite a = true) (hb : isFinite b = true)
    (hov : |scaled a * scaled b| < overflowUnits * 2 ^ 1074) :
    IsNearest (fmul a b) (scaled a * scaled b) (2 ^ 1074) := by
  rw [fmul_of_finite ha hb, scaled_mul_scaled]
  rw [abs_mul, abs_scaled, abs_scaled] at hov
  refine isNearest_packF64 _ (pow_pos two_pos _) (roundBits_lt_infBits (pow_pos two_pos _) ?_)
  simpa only [Nat.cast_mul, Nat.cast_pow, Nat.cast_ofNat] using hov

theorem signBit_fmul (ha : isFinite a = true) (hb : isFinite b = true) :
    signBit (fmul a b) = (signBit a != signBit b) := by
  rw [fmul_of_finite ha hb, signBit_packF64 _ ((roundBits_le_infBits _ _).trans_lt infBits_lt)]

theorem scaled_eq_zero : scaled a = 0 ↔ magBits a = 0 := by
  rw [← Int.natAbs_eq_zero, scaled_natAbs, units, unitsOfBits_eq_zero]

theorem sign_scaled (h : scaled a ≠ 0) : (scaled a).sign = if signBit a then -1 else 1 := by
  have hpos : (0 : Int) < units a := by exact_mod_cast units_pos (mt scaled_eq_zero.2 h)
  rw [scaled]; split
  · exact Int.sign_eq_neg_one_of_neg (by omega)
  · exact Int.sign_eq_one_of_pos hpos

theorem isNearest_fdiv (ha : isFinite a = true) (hb : isFinite b = true) (h0 : scaled b ≠ 0)
    (hov : |scaled a| * 2 ^ 1074 < overflowUnits * |scaled b|) :
    IsNearest (fdiv a b) (scaled a * 2 ^ 1074 * (scaled b).sign) (scaled b).natAbs := by
  have hb0 : magBits b ≠ 0 := mt scaled_eq_zero.2 h0
  have hnum : scaled a * 2 ^ 1074 * (scaled b).sign =
      if signBit a != signBit b then -(units a * 2 ^ 1074 : Int) else (units a * 2 ^ 1074 : Int) := by
    rw [sign_scaled h0, scaled]
    generalize (2 : Int) ^ 1074 = D
    cases signBit a <;> cases signBit b <;> simp
  have hcast : ((units a * 2 ^ 1074 : Nat) : Int) = units a * 2 ^ 1074 := by
    rw [Nat.cast_mul, Nat.cast_pow, Nat.cast_ofNat]
  rw [fdiv_of_finite ha hb hb0, hnum, scaled_natAbs, ← hcast]
  rw [abs_scaled, abs_scaled, ← hcast] at hov
  exact isNearest_packF64 _ (units_pos hb0) (roundBits_lt_infBits (units_pos hb0) hov)

end Sys2Proof.Machine

namespace Sys2Proof.Proofs

open Sys2Proof Sys2Proof.Machine

/-- Settles O28: `isNearest_fadd`, `isNearest_fsub` and the sign of an exact zero sum. -/
theorem sumAndDifferenceAreNearest : Obligations.SumAndDifferenceAreNearest := fun _ _ ha hb =>
  ⟨isNearest_fadd ha hb, isNearest_fsub ha hb, fadd_of_sum_zero ha hb⟩

/-- Settles O29: the rounded product of the magnitudes under the product's sign. -/
theorem productIsNearest : Obligations.ProductIsNearest := fun _ _ ha hb =>
  ⟨isNearest_fmul ha hb, signBit_fmul ha hb⟩

/-- Settles O30: the rounded quotient of the magnitudes under the quotient's sign. -/
theorem quotientIsNearest : Obligations.QuotientIsNearest := fun _ _ ha hb => isNearest_fdiv ha hb

end Sys2Proof.Proofs
end

