-- ==== Sys2Proof/Proofs/ComparisonsAndConversions.lean ====
section
/-! PROOFS. The comparisons (40_numerics R62, R65) and the conversions between integers and binary64 (R66, R67). -/

namespace Sys2Proof.Machine

variable {a b : F64}

/-! ### Comparisons -/

/-- `orderKey` orders the numbers as their values do, the two zeros being equal. -/
theorem orderKey_le_iff (a b : F64) : orderKey a ≤ orderKey b ↔ scaled a ≤ scaled b := by
  have hle : units a ≤ units b ↔ magBits a ≤ magBits b := unitsOfBits_strictMono.le_iff_le
  have hge : units b ≤ units a ↔ magBits b ≤ magBits a := unitsOfBits_strictMono.le_iff_le
  have ha : units a = 0 ↔ magBits a = 0 := unitsOfBits_eq_zero
  have hb : units b = 0 ↔ magBits b = 0 := unitsOfBits_eq_zero
  rw [orderKey, orderKey, scaled, scaled]
  cases signBit a <;> cases signBit b <;> simp only [Bool.false_eq_true, if_true, if_false] <;> omega

theorem orderKey_lt_iff (a b : F64) : orderKey a < orderKey b ↔ scaled a < scaled b := by
  rw [← not_le, ← not_le, orderKey_le_iff]

theorem fle_iff (ha : isFinite a = true) (hb : isFinite b = true) : fle a b = true ↔ scaled a ≤ scaled b := by
  simp [fle, isNaN_of_isFinite ha, isNaN_of_isFinite hb, orderKey_le_iff]

theorem flt_iff (ha : isFinite a = true) (hb : isFinite b = true) : flt a b = true ↔ scaled a < scaled b := by
  simp [flt, isNaN_of_isFinite ha, isNaN_of_isFinite hb, orderKey_lt_iff]

theorem isFinite_f64Zero : isFinite f64Zero = true := by decide

theorem scaled_f64Zero : scaled f64Zero = 0 := by decide

theorem ge0_iff (ha : isFinite a = true) : ge0 a = true ↔ 0 ≤ scaled a := by
  rw [ge0, fge, fle_iff isFinite_f64Zero ha, scaled_f64Zero]

theorem fle_of_isNaN (h : isNaN a = true ∨ isNaN b = true) : fle a b = false := by
  obtain h | h := h <;> simp [fle, h]

theorem flt_of_isNaN (h : isNaN a = true ∨ isNaN b = true) : flt a b = false := by
  obtain h | h := h <;> simp [flt, h]

/-! ### Conversions -/

/-- Every significand of at most 53 bits, shifted, is the value of some magnitude bits. -/
theorem exists_unitsOfBits_eq (k : Nat) {m : Nat} (hm : m ≤ 2 ^ 53) : ∃ b, unitsOfBits b = m * 2 ^ k := by
  induction k generalizing m with
  | zero => exact ⟨0 * 2 ^ 52 + m, unitsOfBits_shift hm (.inl rfl)⟩
  | succ k ih =>
    rcases Nat.lt_or_ge m (2 ^ 52) with h | h
    · obtain ⟨b, hb⟩ := ih (m := m * 2) (by omega)
      exact ⟨b, by rw [hb, pow_succ']; ring⟩
    · exact ⟨_, unitsOfBits_shift hm (.inr h)⟩

/-- An integer is its sign and its magnitude, in any unit `D`. -/
theorem signed_natAbs_mul (n : Int) (D : Nat) :
    (if decide (n < 0) then -((n.natAbs * D : Nat) : Int) else ((n.natAbs * D : Nat) : Int)) = n * D := by
  simp only [decide_eq_true_eq, Nat.cast_mul, ← Int.neg_mul, ← ite_mul]
  congr 1
  split <;> omega

/-- `I2F` as a rounded fraction. -/
theorem i2f_eq (n : Int) : i2f n = packF64 (decide (n < 0)) (roundBits (n.natAbs * 2 ^ 1074) 1) := by
  unfold i2f; with_reducible rfl

/-- `I2F` is exact up to `2^53` (R66). -/
theorem i2f_exact {n : Int} (hn : n.natAbs ≤ 2 ^ 53) :
    isFinite (i2f n) = true ∧ scaled (i2f n) = n * 2 ^ 1074 := by
  obtain ⟨m, hm⟩ := exists_unitsOfBits_eq 1074 hn
  have hinf : 2 ^ 53 * 2 ^ 1074 < unitsOfBits infBits := by decide +kernel
  have hlt : m < infBits :=
    unitsOfBits_strictMono.lt_iff_lt.mp (hm.trans_le (Nat.mul_le_mul_right _ hn) |>.trans_lt hinf)
  have hround : roundBits (n.natAbs * 2 ^ 1074) 1 = m := by
    simpa only [hm, Nat.mul_one] using roundBits_exact one_pos hlt.le
  refine ⟨by rw [i2f_eq, hround]; exact isFinite_packF64 _ hlt, ?_⟩
  rw [i2f_eq, hround, scaled_packF64 _ (hlt.trans infBits_lt), hm, signed_natAbs_mul, Nat.cast_pow, Nat.cast_ofNat]

/-- The integer part is the quotient rounded toward zero (R67). -/
theorem truncToward0_eq_tdiv (a : F64) : truncToward0 a = Int.tdiv (scaled a) (2 ^ 1074) := by
  have hcast : (2 : Int) ^ 1074 = ((2 ^ 1074 : Nat) : Int) := by rw [Nat.cast_pow, Nat.cast_ofNat]
  rw [truncToward0, scaled, hcast]
  split
  · rw [Int.neg_tdiv, Int.ofNat_tdiv]
  · rw [Int.ofNat_tdiv]

theorem f2i_of_isNaN (w : Nat) (h : isNaN a = true) : f2i w a = 0 := by
  rw [f2i, if_pos h]

theorem f2i_of_finite (w : Nat) (h : isFinite a = true) : f2i w a = saturate w (Int.tdiv (scaled a) (2 ^ 1074)) := by
  rw [f2i, isNaN_of_isFinite h, isInf_of_isFinite h, truncToward0_eq_tdiv]; rfl

end Sys2Proof.Machine

namespace Sys2Proof.Proofs

open Sys2Proof Sys2Proof.Machine

/-- Settles O31: the comparisons through `orderKey`, which orders the finite numbers as their values. -/
theorem comparisonsFollowTheValues : Obligations.ComparisonsFollowTheValues := fun _ _ =>
  ⟨fun ha hb => ⟨fle_iff ha hb, flt_iff ha hb, ge0_iff ha⟩, fun h => ⟨fle_of_isNaN h, flt_of_isNaN h⟩,
    fun h => fle_of_isNaN (.inr h)⟩

/-- Settles O32: `i2f_exact`, every 32-bit integer being far below `2^53`. -/
theorem integersConvertExactly : Obligations.IntegersConvertExactly :=
  ⟨fun _ hlo hhi => i2f_exact (by omega), by decide +kernel⟩

/-- Settles O33: the integer part, saturated; the range is `f2i_mem_range`. -/
theorem conversionTruncatesTowardZero : Obligations.ConversionTruncatesTowardZero := fun w a _ =>
  ⟨f2i_of_isNaN w, f2i_of_finite w, f2i_mem_range w a⟩

end Sys2Proof.Proofs
end

