-- ==== Sys2Proof/Proofs/Wrap.lean ====
section
/-! PROOFS. The reduction of a phase to one turn (40_numerics R64). -/

namespace Sys2Proof.Machine

variable {a r : F64}

/-! ### The remainder -/

/-- A remainder of two binary64 magnitudes is one: it is below the divisor and a multiple of the divisor's last place. -/
theorem exists_unitsOfBits_mod (x : Nat) {y : Nat} (hy : y ≠ 0) :
    ∃ c, unitsOfBits c = unitsOfBits x % unitsOfBits y := by
  rcases Nat.lt_or_ge x y with h | h
  · exact ⟨x, (Nat.mod_eq_of_lt (unitsOfBits_strictMono h)).symm⟩
  · obtain ⟨k, m, rfl, hm, hk⟩ := bits_split x
    obtain ⟨l, n, rfl, hn, hl⟩ := bits_split y
    have hlk : l ≤ k := by omega
    have hmod : m * 2 ^ (k - l) % n ≤ 2 ^ 53 := ((Nat.mod_lt _ (by omega)).trans hn).le
    obtain ⟨c, hc⟩ := exists_unitsOfBits_eq l hmod
    refine ⟨c, ?_⟩
    rw [hc, unitsOfBits_shift hm.le hk, unitsOfBits_shift hn.le hl, ← Nat.mul_mod_mul_right, Nat.mul_assoc, ← pow_add,
      Nat.sub_add_cancel hlk]

theorem scaled_twoPi : scaled twoPi = units twoPi := by decide +kernel

theorem isFinite_twoPi : isFinite twoPi = true := by decide

theorem scaled_twoPi_pos : 0 < scaled twoPi := by decide +kernel

theorem fmod_twoPi_of_finite (ha : isFinite a = true) :
    fmod a twoPi = packF64 (signBit a) (roundBits (units a % units twoPi) 1) := by
  have hnan : isNaN twoPi = false := by decide
  have hinf : isInf twoPi = false := by decide
  have hzero : magBits twoPi ≠ 0 := by decide
  simp [fmod, isNaN_of_isFinite ha, isInf_of_isFinite ha, hnan, hinf, hzero]

/-- The remainder of a finite number by `TWO_PI` is exact, with the number's sign (R64). -/
theorem fmod_twoPi_exact (ha : isFinite a = true) :
    isFinite (fmod a twoPi) = true ∧ scaled (fmod a twoPi) = (scaled a).tmod (scaled twoPi) := by
  obtain ⟨c, hc⟩ : ∃ c, unitsOfBits c = units a % units twoPi :=
    exists_unitsOfBits_mod (magBits a) (by decide)
  have hlt : c < magBits twoPi := unitsOfBits_strictMono.lt_iff_lt.mp <| by
    rw [hc]; exact Nat.mod_lt _ (units_pos (by decide))
  have hfin : c < infBits := hlt.trans (by decide)
  have hround : roundBits (units a % units twoPi) 1 = c := by
    simpa only [hc, Nat.mul_one] using roundBits_exact one_pos hfin.le
  rw [fmod_twoPi_of_finite ha, hround, scaled_packF64 _ (hfin.trans infBits_lt), hc, scaled_twoPi, scaled]
  refine ⟨isFinite_packF64 _ hfin, ?_⟩
  split
  · rw [Int.neg_tmod, Int.ofNat_tmod]
  · rw [Int.ofNat_tmod]

/-! ### Closing the turn -/

/-- The last two lines of WRAP: `TWO_PI` and above become `+0`, and so does a zero. -/
def closeTurn (r : F64) : F64 :=
  let r := if fge r twoPi then f64Zero else r
  if magBits r = 0 then f64Zero else r

theorem wrap_eq_closeTurn (a : F64) :
    wrap a = closeTurn (if flt (fmod a twoPi) f64Zero then fadd (fmod a twoPi) twoPi else fmod a twoPi) := by
  unfold wrap closeTurn; with_reducible rfl

theorem closeTurn_of_lt (hr : isFinite r = true) (hlt : scaled r < scaled twoPi) :
    closeTurn r = if magBits r = 0 then f64Zero else r := by
  have hfge : fge r twoPi = false := by
    rw [Bool.eq_false_iff, ne_eq, fge, fle_iff isFinite_twoPi hr]; omega
  simp only [closeTurn, hfge, Bool.false_eq_true, if_false]

theorem closeTurn_of_ge (hr : isFinite r = true) (hge : scaled twoPi ≤ scaled r) : closeTurn r = 0 := by
  have hfge : fge r twoPi = true := by rwa [fge, fle_iff isFinite_twoPi hr]
  simp only [closeTurn, hfge, if_true]
  rfl

theorem closeTurn_of_zero (hr : isFinite r = true) (hz : scaled r = 0) : closeTurn r = 0 := by
  rw [closeTurn_of_lt hr (hz.trans_lt scaled_twoPi_pos), if_pos (scaled_eq_zero.mp hz)]; rfl

theorem closeTurn_of_mem (hr : isFinite r = true) (hpos : 0 < scaled r) (hlt : scaled r < scaled twoPi) :
    closeTurn r = r := by
  rw [closeTurn_of_lt hr hlt, if_neg (mt scaled_eq_zero.mpr hpos.ne')]

/-- A positive number is its magnitude bits. -/
theorem toNat_of_scaled_pos (hpos : 0 < scaled r) : r.toNat = magBits r := by
  have hsign : signBit r = false := by
    by_contra h
    rw [scaled, if_pos (by simpa using h)] at hpos
    omega
  rw [← packF64_self r, toNat_packF64 _ (magBits_lt r), hsign, magBits_packF64 _ (magBits_lt r)]
  simp

/-- The bits of positive numbers are ordered as their values are. -/
theorem toNat_lt_of_scaled_lt {b : F64} (hpos : 0 < scaled r) (hlt : scaled r < scaled b) : r.toNat < b.toNat := by
  rw [toNat_of_scaled_pos hpos, toNat_of_scaled_pos (hpos.trans hlt)]
  refine unitsOfBits_strictMono.lt_iff_lt.mp ?_
  have := Int.natAbs_lt_natAbs_of_nonneg_of_lt hpos.le hlt
  rwa [scaled_natAbs, scaled_natAbs] at this

theorem eq_of_scaled_eq_of_pos {b : F64} (hpos : 0 < scaled r) (h : scaled r = scaled b) : r = b := by
  apply BitVec.eq_of_toNat_eq
  rw [toNat_of_scaled_pos hpos, toNat_of_scaled_pos (hpos.trans_eq h)]
  refine unitsOfBits_strictMono.injective ?_
  have := congrArg Int.natAbs h
  rwa [scaled_natAbs, scaled_natAbs] at this

theorem closeTurn_toNat_lt (hr : isFinite r = true) (hnn : 0 ≤ scaled r) : (closeTurn r).toNat < twoPi.toNat := by
  rcases hnn.eq_or_lt with hz | hpos
  · rw [closeTurn_of_zero hr hz.symm]; decide
  · rcases lt_or_ge (scaled r) (scaled twoPi) with hlt | hge
    · rw [closeTurn_of_mem hr hpos hlt]; exact toNat_lt_of_scaled_lt hpos hlt
    · rw [closeTurn_of_ge hr hge]; decide

theorem scaled_closeTurn (hr : isFinite r = true) (hnn : 0 ≤ scaled r) (hlt : scaled r < scaled twoPi) :
    scaled (closeTurn r) = scaled r := by
  rcases hnn.eq_or_lt with hz | hpos
  · rw [closeTurn_of_zero hr hz.symm, ← hz]; exact scaled_f64Zero
  · rw [closeTurn_of_mem hr hpos hlt]

/-! ### The two signs of the remainder -/

/-- With a remainder that is not negative nothing is added. -/
theorem wrap_of_rem_nonneg (ha : isFinite a = true) (h : 0 ≤ scaled (fmod a twoPi)) :
    wrap a = closeTurn (fmod a twoPi) := by
  rw [wrap_eq_closeTurn, if_neg]
  rwa [flt_iff (fmod_twoPi_exact ha).1 isFinite_f64Zero, scaled_f64Zero, not_lt]

/-- To a negative remainder one turn is added. -/
theorem wrap_of_rem_neg (ha : isFinite a = true) (h : scaled (fmod a twoPi) < 0) :
    wrap a = closeTurn (fadd (fmod a twoPi) twoPi) := by
  rw [wrap_eq_closeTurn, if_pos]
  rwa [flt_iff (fmod_twoPi_exact ha).1 isFinite_f64Zero, scaled_f64Zero]

/-- A number nearest a positive integer of units below a finite `b` is positive and at most `b`. -/
theorem IsNearest.mem_range {n : Int} {b : F64} (h : IsNearest r n 1) (hb : isFinite b = true) (hpos : 0 < n)
    (hlt : n ≤ scaled b) : 0 < scaled r ∧ scaled r ≤ scaled b := by
  obtain ⟨-, hnear, -⟩ := h
  have hone : scaled 1 = 1 := by decide
  have h1 := hnear 1 (by decide)
  have h2 := hnear b hb
  simp only [hone, Nat.cast_one, Int.mul_one, Int.abs_eq_natAbs] at h1 h2
  omega

section Remainder

variable (ha : isFinite a = true)
include ha

theorem scaled_fmod_of_nonneg (h : 0 ≤ scaled a) : scaled (fmod a twoPi) = scaled a % scaled twoPi := by
  rw [(fmod_twoPi_exact ha).2, Int.tmod_eq_emod_of_nonneg h]

theorem scaled_fmod_of_neg (h : scaled a < 0) : scaled (fmod a twoPi) = -(-scaled a % scaled twoPi) := by
  rw [(fmod_twoPi_exact ha).2, ← Int.tmod_eq_emod_of_nonneg (by omega), Int.neg_tmod, Int.neg_neg]

/-- The sum with a turn is the number nearest the remainder's complement. -/
theorem isNearest_fadd_turn (h : scaled (fmod a twoPi) < 0) (hlow : -scaled twoPi < scaled (fmod a twoPi)) :
    IsNearest (fadd (fmod a twoPi) twoPi) (scaled (fmod a twoPi) + scaled twoPi) 1 := by
  have hov : scaled twoPi < overflowUnits := by decide +kernel
  exact isNearest_fadd (fmod_twoPi_exact ha).1 isFinite_twoPi (abs_lt.2 ⟨by omega, by omega⟩)

/-- `WRAP` of a number with a negative remainder (R64). -/
theorem wrap_of_rem_neg_cases (h : scaled (fmod a twoPi) < 0) (hlow : -scaled twoPi < scaled (fmod a twoPi)) :
    (wrap a).toNat < twoPi.toNat ∧
    (IsNearest (wrap a) (scaled (fmod a twoPi) + scaled twoPi) 1 ∨
      (IsNearest twoPi (scaled (fmod a twoPi) + scaled twoPi) 1 ∧ wrap a = 0)) := by
  have hnear := isNearest_fadd_turn ha h hlow
  obtain ⟨hpos, hle⟩ := hnear.mem_range isFinite_twoPi (by omega) (by omega)
  rw [wrap_of_rem_neg ha h]
  refine ⟨closeTurn_toNat_lt hnear.1 hpos.le, ?_⟩
  rcases hle.lt_or_eq with hlt | heq
  · rw [closeTurn_of_mem hnear.1 hpos hlt]; exact .inl hnear
  · rw [closeTurn_of_ge hnear.1 heq.ge]
    rw [eq_of_scaled_eq_of_pos hpos heq] at hnear
    exact .inr ⟨hnear, rfl⟩

end Remainder

end Sys2Proof.Machine

namespace Sys2Proof.Proofs

open Sys2Proof Sys2Proof.Machine

/-- Settles O34: by the sign of the number, and for a negative one by whether the remainder is zero. -/
theorem wrapReducesToOneTurn : Obligations.WrapReducesToOneTurn := by
  intro a ha
  have hfin := (fmod_twoPi_exact ha).1
  rcases lt_or_ge (scaled a) 0 with hneg | hnn
  · have hrem := scaled_fmod_of_neg ha hneg
    have hm0 := Int.emod_nonneg (-scaled a) scaled_twoPi_pos.ne'
    have hm1 := Int.emod_lt_of_pos (-scaled a) scaled_twoPi_pos
    rcases hm0.eq_or_lt with hz | hpos
    · have hzero : wrap a = 0 := by
        rw [wrap_of_rem_nonneg ha (by omega), closeTurn_of_zero hfin (by omega)]
      exact ⟨by rw [hzero]; decide, fun h => absurd h (by omega), fun _ => ⟨fun _ => hzero, fun h => absurd hz.symm h⟩⟩
    · obtain ⟨hlt, hcases⟩ := wrap_of_rem_neg_cases ha (by omega) (by omega)
      rw [hrem, neg_add_eq_sub] at hcases
      exact ⟨hlt, fun h => absurd h (by omega), fun _ => ⟨fun h => absurd h hpos.ne', fun _ => hcases⟩⟩
  · have hrem := scaled_fmod_of_nonneg ha hnn
    have hm0 := Int.emod_nonneg (scaled a) scaled_twoPi_pos.ne'
    have hm1 := Int.emod_lt_of_pos (scaled a) scaled_twoPi_pos
    rw [wrap_of_rem_nonneg ha (hrem ▸ hm0)]
    refine ⟨closeTurn_toNat_lt hfin (hrem ▸ hm0), fun _ => ?_, fun h => absurd h (by omega)⟩
    rw [scaled_closeTurn hfin (hrem ▸ hm0) (hrem ▸ hm1), hrem]

end Sys2Proof.Proofs
end

