-- ==== Sys2Proof/Proofs/Constants.lean ====
section
/-! PROOFS. The constants (40_numerics R68) against their literals and the real circle constant. -/

namespace Sys2Proof.Machine

/-- A finite number is nearest its own value. -/
theorem isNearest_of_scaled_eq {r : F64} {num : Int} (hr : isFinite r = true) (h : scaled r = num) :
    IsNearest r num 1 := by
  have hz : |scaled r * (1 : Nat) - num| = 0 := by simp [h]
  refine ⟨hr, fun y _ => hz ▸ abs_nonneg _, fun y _ hne htie => absurd ?_ hne⟩
  rw [hz, abs_eq_zero] at htie
  simp only [Nat.cast_one, Int.mul_one] at htie
  omega

/-- A number that is the rounding of a fraction is nearest it. -/
theorem isNearest_of_eq_roundBits {r : F64} {num den : Nat} (hden : 0 < den) (hov : (num : Int) < overflowUnits * den)
    (h : r = packF64 false (roundBits num den)) : IsNearest r num den := by
  rw [h]; exact isNearest_packF64 false hden (roundBits_lt_infBits hden hov)

theorem isNearest_f64Tenth : IsNearest f64Tenth (2 ^ 1074) 10 := by
  have h := isNearest_of_eq_roundBits (r := f64Tenth) (num := 2 ^ 1074) (den := 10) (by decide) (by decide +kernel)
    (by decide +kernel)
  rwa [Nat.cast_pow, Nat.cast_ofNat] at h

theorem isNearest_f64SixTenths : IsNearest f64SixTenths (6 * 2 ^ 1074) 10 := by
  have h := isNearest_of_eq_roundBits (r := f64SixTenths) (num := 6 * 2 ^ 1074) (den := 10) (by decide)
    (by decide +kernel) (by decide +kernel)
  rwa [Nat.cast_mul, Nat.cast_pow, Nat.cast_ofNat, Nat.cast_ofNat] at h

/-! ### The circle constants -/

/-- The real value of a finite number. -/
noncomputable def realValue (a : F64) : ℝ := (scaled a : ℝ) / 2 ^ 1074

/-- A value with 51 fraction bits. -/
theorem realValue_of_scaled_eq {a : F64} {m : Int} (h : scaled a = m * 2 ^ 1023) : realValue a = m / 2 ^ 51 := by
  rw [realValue, h, Int.cast_mul, Int.cast_pow, Int.cast_ofNat, show 1074 = 51 + 1023 from rfl, pow_add,
    mul_div_mul_right _ _ (pow_ne_zero _ two_ne_zero)]

theorem realValue_piF64 : realValue piF64 = 7074237752028440 / 2 ^ 51 := by
  simpa using realValue_of_scaled_eq (a := piF64) (m := 7074237752028440) (by decide +kernel)

theorem realValue_piF64_succ : realValue (piF64 + 1) = 7074237752028441 / 2 ^ 51 := by
  simpa using realValue_of_scaled_eq (a := piF64 + 1) (m := 7074237752028441) (by decide +kernel)

theorem realValue_twoPi : realValue twoPi = 14148475504056880 / 2 ^ 51 := by
  simpa using realValue_of_scaled_eq (a := twoPi) (m := 14148475504056880) (by decide +kernel)

/-- `PI_F64` lies below `π` by more than `10^-16`. -/
theorem realValue_piF64_lt : realValue piF64 + 1 / 10 ^ 16 < Real.pi := by
  rw [realValue_piF64]
  refine lt_trans ?_ Real.pi_gt_d20
  norm_num

/-- The next number lies above `π` by more than `10^-16`. -/
theorem lt_realValue_piF64_succ : Real.pi + 1 / 10 ^ 16 < realValue (piF64 + 1) := by
  rw [realValue_piF64_succ]
  refine lt_trans (add_lt_add_left Real.pi_lt_d20 _) ?_
  norm_num

/-- `TWO_PI` lies below `2π` by more than `10^-16`. -/
theorem realValue_twoPi_lt : realValue twoPi + 1 / 10 ^ 16 < 2 * Real.pi := by
  rw [realValue_twoPi]
  refine lt_trans ?_ (mul_lt_mul_of_pos_left Real.pi_gt_d20 two_pos)
  norm_num

/-- `TWO_PI` lies below `2π` by less than half a unit in its last place. -/
theorem two_pi_sub_realValue_twoPi_lt : 2 * Real.pi - realValue twoPi < 1 / 2 ^ 51 := by
  rw [realValue_twoPi, sub_lt_iff_lt_add]
  refine lt_trans (mul_lt_mul_of_pos_left Real.pi_lt_d20 two_pos) ?_
  norm_num

end Sys2Proof.Machine

namespace Sys2Proof.Proofs

open Sys2Proof Sys2Proof.Machine

/-- Settles O35: the exact constants by their values, the two rounded ones by the rounding, and the circle constants by
decimal bounds on `π`. -/
theorem constantsAreNearestTheirLiterals : Obligations.ConstantsAreNearestTheirLiterals := by
  have hmargin : (0 : ℝ) < 1 / 10 ^ 16 := by norm_num
  refine ⟨isNearest_of_scaled_eq (by decide) (by decide +kernel), isNearest_of_scaled_eq (by decide) (by decide +kernel),
    isNearest_of_scaled_eq (by decide) (by decide +kernel), isNearest_of_scaled_eq (by decide) (by decide +kernel),
    isNearest_of_scaled_eq (by decide) (by decide +kernel), isNearest_of_scaled_eq (by decide) (by decide +kernel),
    isNearest_f64Tenth, isNearest_f64SixTenths, ?_, two_pi_sub_realValue_twoPi_lt, ?_, ?_, by decide +kernel, rfl⟩
  · exact (lt_add_of_pos_right _ hmargin).trans realValue_twoPi_lt
  · exact (lt_add_of_pos_right _ hmargin).trans realValue_piF64_lt
  · exact (lt_add_of_pos_right _ hmargin).trans lt_realValue_piF64_succ

end Sys2Proof.Proofs
end

