-- ==== Sys2Proof/Proofs/RealSine.lean ====
section
/-! PROOFS. `SIN` against the real sine (40_numerics R63): its distance, its range and its sign. -/

namespace Sys2Proof.Machine

open Real

variable {a : F64}

/-! ### The evaluated polynomial -/

/-- The exact value of the polynomial that `SIN` rounds. -/
noncomputable def sinValue (a : F64) : ℝ :=
  (units a : ℝ) / 2 ^ 1074 * ((sinFactor (units a)).1 / (sinFactor (units a)).2)

/-- The nearest number to a fraction is nearest it in real terms. -/
theorem IsNearest.abs_realValue_sub_le {r y : F64} {num : Int} {den : Nat} (h : IsNearest r num den) (hden : 0 < den)
    (hy : isFinite y = true) :
    |realValue r - num / (den * 2 ^ 1074)| ≤ |realValue y - num / (den * 2 ^ 1074)| := by
  obtain ⟨-, hnear, -⟩ := h
  have hd : (0 : ℝ) < den := by exact_mod_cast hden
  have hD : (0 : ℝ) < 2 ^ 1074 := pow_pos two_pos _
  have hdist (z : F64) : |realValue z - num / (den * 2 ^ 1074)|
      = ((|scaled z * den - num| : Int) : ℝ) / (den * 2 ^ 1074) := by
    rw [realValue, div_sub_div _ _ hD.ne' (mul_pos hd hD).ne', abs_div, abs_of_pos (mul_pos hD (mul_pos hd hD)),
      div_eq_div_iff (mul_pos hD (mul_pos hd hD)).ne' (mul_pos hd hD).ne']
    push_cast
    generalize (2 : ℝ) ^ 1074 = D at *
    rw [show (scaled z : ℝ) * (den * D) - D * num = D * (scaled z * den - num) by ring, abs_mul, abs_of_pos hD]
    ring
  rw [hdist, hdist]
  exact div_le_div_of_nonneg_right (by exact_mod_cast hnear y hy) (mul_pos hd hD).le

section Phase

variable (h : inPhase a = true)
include h

theorem scaled_of_inPhase : scaled a = units a := by
  rw [scaled, signBit_of_inPhase h]; rfl

theorem realValue_of_inPhase : realValue a = (units a : ℝ) / 2 ^ 1074 := by
  rw [realValue, scaled_of_inPhase h, Int.cast_natCast]

theorem realValue_nonneg : 0 ≤ realValue a := by
  rw [realValue_of_inPhase h]; positivity

theorem realValue_le_seven : realValue a ≤ 7 := by
  rw [realValue_of_inPhase h]; exact units_of_inPhase h

/-- `SIN` is the number nearest the polynomial's value. -/
theorem isNearest_fsin :
    IsNearest (fsin a) (units a * (sinFactor (units a)).1) (sinFactor (units a)).2 := by
  have hden := (sinFactor_error (units_of_inPhase h)).1
  have hfin := isFinite_fsin h
  rw [fsin_of_inPhase h, Nat.mul_comm (units a)] at hfin ⊢
  rw [isFinite, magBits_packF64 _ ((roundBits_le_infBits _ _).trans_lt infBits_lt), decide_eq_true_eq] at hfin
  have hnear := isNearest_packF64 (decide ((sinFactor (units a)).1 < 0)) hden hfin
  rwa [signed_natAbs_mul, mul_comm (sinFactor (units a)).1] at hnear

theorem abs_fsin_sub_sinValue_le {y : F64} (hy : isFinite y = true) :
    |realValue (fsin a) - sinValue a| ≤ |realValue y - sinValue a| := by
  have hden := (sinFactor_error (units_of_inPhase h)).1
  have hval : sinValue a = ((units a * (sinFactor (units a)).1 : Int) : ℝ) / ((sinFactor (units a)).2 * 2 ^ 1074) := by
    rw [sinValue, div_mul_div_comm, mul_comm (2 ^ 1074 : ℝ), Int.cast_mul, Int.cast_natCast]
  rw [hval]
  exact (isNearest_fsin h).abs_realValue_sub_le hden hy

theorem abs_sinValue_sub_sin_le : |sinValue a - sin (realValue a)| ≤ realValue a / 2 ^ 320 := by
  rw [sinValue, realValue_of_inPhase h]
  exact (sinFactor_error (units_of_inPhase h)).2

/-- The nearest number to the polynomial is the nearest to the sine up to twice the polynomial's error. -/
theorem abs_fsin_sub_sin_le {y : F64} (hy : isFinite y = true) :
    |realValue (fsin a) - sin (realValue a)| ≤ |realValue y - sin (realValue a)| + realValue a / 2 ^ 310 := by
  have hnear := abs_fsin_sub_sinValue_le h hy
  have herr := abs_sinValue_sub_sin_le h
  have hslack : 2 * (realValue a / 2 ^ 320) ≤ realValue a / 2 ^ 310 := by
    rw [show 320 = 310 + 10 from rfl, pow_add, ← div_div]
    have hnn : 0 ≤ realValue a / 2 ^ 310 := div_nonneg (realValue_nonneg h) (pow_pos two_pos _).le
    generalize realValue a / 2 ^ 310 = e at hnn ⊢
    linarith
  have h1 := abs_sub_le (realValue (fsin a)) (sinValue a) (sin (realValue a))
  have h2 := abs_sub_le (realValue y) (sin (realValue a)) (sinValue a)
  rw [abs_sub_comm (sin (realValue a)) (sinValue a)] at h2
  generalize realValue a / 2 ^ 320 = err at *
  generalize realValue a / 2 ^ 310 = slack at *
  linarith

end Phase

/-! ### The sign of the sine away from the multiples of `π` -/

theorem three_fifths_mul_le_sin {x : ℝ} (h0 : 0 ≤ x) (hx : x ≤ π / 2) : 3 / 5 * x ≤ sin x := by
  refine (mul_le_mul_of_nonneg_right ?_ h0).trans (mul_le_sin h0 hx)
  rw [div_le_div_iff₀ (by norm_num) pi_pos]
  linarith [pi_lt_d2]

/-- In the upper half turn the sine is bounded below by the distance to its ends. -/
theorem three_fifths_mul_le_sin_of_margin {x δ : ℝ} (hδ : 0 ≤ δ) (h0 : δ ≤ x) (h1 : x ≤ π - δ) : 3 / 5 * δ ≤ sin x := by
  rcases le_total x (π / 2) with hx | hx
  · linarith [three_fifths_mul_le_sin (hδ.trans h0) hx]
  · rw [← sin_pi_sub]
    linarith [three_fifths_mul_le_sin (x := π - x) (by linarith) (by linarith)]

/-! ### Phases as real numbers -/

theorem realValue_le_of_toNat_le {b c : F64} (hc : c.toNat < 2 ^ 63) (h : b.toNat ≤ c.toNat) :
    realValue b ≤ realValue c := by
  have hvalue {d : F64} (hd : d.toNat < 2 ^ 63) : scaled d = unitsOfBits d.toNat := by
    rw [scaled, units, magBits, Nat.mod_eq_of_lt hd, signBit, decide_eq_false hd.not_ge]; rfl
  rw [realValue, realValue, hvalue hc, hvalue (h.trans_lt hc)]
  refine div_le_div_of_nonneg_right ?_ (by positivity)
  exact_mod_cast unitsOfBits_strictMono.monotone h

/-- The smallest subnormal number. -/
theorem realValue_one : realValue 1 = 1 / 2 ^ 1074 := by
  rw [realValue, show scaled 1 = 1 by decide, Int.cast_one]

theorem realValue_neg_one : realValue 0x8000000000000001 = -(1 / 2 ^ 1074) := by
  rw [realValue, show scaled 0x8000000000000001 = -1 by decide, Int.cast_neg, Int.cast_one, neg_div]

theorem scaled_pos_of_realValue_pos (h : 0 < realValue a) : 0 < scaled a := by
  rw [realValue, div_pos_iff_of_pos_right (pow_pos two_pos _)] at h
  exact_mod_cast h

theorem scaled_neg_of_realValue_neg (h : realValue a < 0) : scaled a < 0 := by
  rw [realValue, div_lt_iff₀ (pow_pos two_pos _), zero_mul] at h
  exact_mod_cast h

/-- Both the unit and the polynomial's relative error are negligible. -/
theorem one_div_two_pow_le {n : Nat} (hn : 64 ≤ n) : (1 : ℝ) / 2 ^ n ≤ 1 / 2 ^ 64 :=
  one_div_le_one_div_of_le (by positivity) (pow_le_pow_right₀ one_le_two hn)

section Sign

variable (h : inPhase a = true)
include h

/-- A weaker error bound, of a size that decimal bounds on `π` can be compared with. -/
theorem abs_sinValue_sub_sin_le_two_pow_64 : |sinValue a - sin (realValue a)| ≤ realValue a / 2 ^ 64 := by
  refine (abs_sinValue_sub_sin_le h).trans ?_
  rw [div_eq_mul_one_div, div_eq_mul_one_div (realValue a)]
  exact mul_le_mul_of_nonneg_left (one_div_two_pow_le (by norm_num)) (realValue_nonneg h)

/-- A polynomial value above half a unit is not rounded to zero or below. -/
theorem scaled_fsin_pos_of_sinValue (hv : 1 / 2 ^ 1074 < 2 * sinValue a) : 0 < scaled (fsin a) := by
  have hnear := abs_fsin_sub_sinValue_le h (y := 1) (by decide)
  have hpos : (0 : ℝ) < 1 / 2 ^ 1074 := one_div_pos.2 (pow_pos two_pos _)
  refine scaled_pos_of_realValue_pos (not_le.mp fun hle => ?_)
  rw [realValue_one] at hnear
  generalize (1 : ℝ) / 2 ^ 1074 = u at *
  rw [abs_of_nonpos (a := _ - _) (by linarith)] at hnear
  have hcloser : |u - sinValue a| < sinValue a := abs_lt.2 ⟨by linarith, by linarith⟩
  linarith

theorem scaled_fsin_neg_of_sinValue (hv : 2 * sinValue a < -(1 / 2 ^ 1074)) : scaled (fsin a) < 0 := by
  have hnear := abs_fsin_sub_sinValue_le h (y := 0x8000000000000001) (by decide)
  have hpos : (0 : ℝ) < 1 / 2 ^ 1074 := one_div_pos.2 (pow_pos two_pos _)
  refine scaled_neg_of_realValue_neg (not_le.mp fun hle => ?_)
  rw [realValue_neg_one] at hnear
  generalize (1 : ℝ) / 2 ^ 1074 = u at *
  rw [abs_of_nonneg (a := realValue _ - _) (by linarith)] at hnear
  have hcloser : |-u - sinValue a| < -sinValue a := abs_lt.2 ⟨by linarith, by linarith⟩
  linarith

/-- A phase above zero is at least the smallest subnormal number. -/
theorem one_div_le_realValue (h0 : 0 < a.toNat) : 1 / 2 ^ 1074 ≤ realValue a := by
  rw [← realValue_one]
  exact realValue_le_of_toNat_le (lt_of_inPhase h) h0

/-- S-SIGN up to `PI_F64`: near zero the sine follows its operand, elsewhere it keeps a margin. -/
theorem scaled_fsin_pos (h0 : 0 < a.toNat) (hpi : a.toNat ≤ piF64.toNat) : 0 < scaled (fsin a) := by
  have herr := (abs_le.1 (abs_sinValue_sub_sin_le_two_pow_64 h)).1
  have hunit := one_div_le_realValue h h0
  have hsmall := one_div_two_pow_le (n := 1074) (by norm_num)
  have hle := realValue_le_of_toNat_le (by decide) hpi
  have hend := realValue_piF64_lt
  have h7 := realValue_le_seven h
  have hpos : (0 : ℝ) < 1 / 2 ^ 1074 := one_div_pos.2 (pow_pos two_pos _)
  refine scaled_fsin_pos_of_sinValue h ?_
  generalize (1 : ℝ) / 2 ^ 1074 = u at *
  rcases le_total (realValue a) (π / 2) with hx | hx
  · have := three_fifths_mul_le_sin (hpos.trans_le hunit).le hx
    linarith
  · have := three_fifths_mul_le_sin_of_margin (x := realValue a) (δ := 1 / 10 ^ 16) (by norm_num)
      (by linarith [pi_gt_three]) (by linarith)
    linarith

/-- S-SIGN above `PI_F64`: the phase keeps a margin from `π` and from `2π`. -/
theorem scaled_fsin_neg (hpi : piF64.toNat < a.toNat) : scaled (fsin a) < 0 := by
  have herr := (abs_le.1 (abs_sinValue_sub_sin_le_two_pow_64 h)).2
  have hsmall := one_div_two_pow_le (n := 1074) (by norm_num)
  have hge : realValue (piF64 + 1) ≤ realValue a := realValue_le_of_toNat_le (lt_of_inPhase h) hpi
  have hle : realValue a ≤ realValue twoPi :=
    realValue_le_of_toNat_le (by decide) (by simpa [inPhase] using h : a.toNat < twoPi.toNat).le
  have hstart := lt_realValue_piF64_succ
  have hend := realValue_twoPi_lt
  have h7 := realValue_le_seven h
  have hsin := three_fifths_mul_le_sin_of_margin (x := realValue a - π) (δ := 1 / 10 ^ 16) (by norm_num)
    (by linarith) (by linarith)
  rw [sin_sub_pi] at hsin
  refine scaled_fsin_neg_of_sinValue h ?_
  generalize (1 : ℝ) / 2 ^ 1074 = u at *
  linarith

/-- S-RANGE. -/
theorem abs_scaled_fsin_le : |scaled (fsin a)| ≤ 2 ^ 1074 := by
  have hone : unitsOfBits (magBits f64One) = 2 ^ 1074 := by decide +kernel
  have hle : units (fsin a) ≤ 2 ^ 1074 := hone ▸ unitsOfBits_strictMono.monotone (magBits_fsin_le h)
  rw [abs_scaled]
  exact_mod_cast hle

end Sign

end Sys2Proof.Machine

namespace Sys2Proof.Proofs

open Sys2Proof Sys2Proof.Machine

/-- Settles O36: the rounding is nearest the polynomial, which is within a `2^-320`th part of the operand of the sine. -/
theorem sineIsNearestTheRealSine : Obligations.SineIsNearestTheRealSine := fun _ _ h hy =>
  ⟨isFinite_fsin h, abs_fsin_sub_sin_le h hy⟩

/-- Settles O37: S-ZERO by evaluation, S-RANGE by the bound of the rounded polynomial, S-SIGN by decimal bounds on `π`. -/
theorem sineHasItsRangeAndSign : Obligations.SineHasItsRangeAndSign :=
  ⟨by decide +kernel, fun _ h => ⟨isNaN_of_isFinite (isFinite_fsin h), abs_scaled_fsin_le h, scaled_fsin_pos h,
    scaled_fsin_neg h⟩⟩

end Sys2Proof.Proofs
end

