-- ==== Sys2Proof/Proofs/ParameterCheck.lean ====
section
/-! PROOFS. The six bits of the parameter check (41_run_control R76) against the exact values of the parameters. -/

namespace Sys2Proof.Machine

variable {low a high : F64}

/-! ### Ranges of numbers -/

theorem natAbs_orderKey (a : F64) : (orderKey a).natAbs = magBits a := by
  unfold orderKey; split <;> omega

theorem orderKey_le_of_fle {b : F64} (h : fle a b = true) : orderKey a ≤ orderKey b := by
  simp only [fle, Bool.and_eq_true, decide_eq_true_eq] at h
  exact h.2

/-- NaN fails every comparison, and an infinity lies beyond one of two finite bounds. -/
theorem isFinite_of_inRange (hlow : isFinite low = true) (hhigh : isFinite high = true)
    (h : inRange low a high = true) : isFinite a = true := by
  rw [inRange, Bool.and_eq_true] at h
  obtain ⟨hle, hge⟩ := h
  have hle' := orderKey_le_of_fle hle
  have hge' := orderKey_le_of_fle hge
  rw [isFinite, decide_eq_true_eq, ← natAbs_orderKey] at *
  omega

/-- A range with finite bounds holds the finite numbers whose exact value lies between the bounds. -/
theorem inRange_iff (hlow : isFinite low = true) (hhigh : isFinite high = true) :
    inRange low a high = true ↔ isFinite a = true ∧ scaled low ≤ scaled a ∧ scaled a ≤ scaled high := by
  have hvalues (ha : isFinite a = true) :
      inRange low a high = true ↔ scaled low ≤ scaled a ∧ scaled a ≤ scaled high := by
    rw [inRange, Bool.and_eq_true, fle_iff hlow ha, fle_iff ha hhigh]
  constructor
  · intro h
    have ha := isFinite_of_inRange hlow hhigh h
    exact ⟨ha, (hvalues ha).1 h⟩
  · rintro ⟨ha, h⟩
    exact (hvalues ha).2 h

theorem not_inRange_iff (hlow : isFinite low = true) (hhigh : isFinite high = true) :
    (!inRange low a high) = true ↔ ¬ (isFinite a = true ∧ scaled low ≤ scaled a ∧ scaled a ≤ scaled high) := by
  rw [← inRange_iff hlow hhigh, Bool.not_eq_true', Bool.not_eq_true]

/-! ### The causes -/

theorem srZero_iff (s : State) : srZero s = true ↔ s.sampleRate = 0 := beq_iff_eq

theorem mixOutOfRange_iff (s : State) : mixOutOfRange s = true ↔ ¬ (0 ≤ s.mix.toInt ∧ s.mix.toInt ≤ 100) := by
  rw [mixOutOfRange, ← Bool.decide_and, Bool.not_eq_true', decide_eq_false_iff_not]

theorem amountOutOfRange_iff (s : State) : amountOutOfRange s = true ↔
    ¬ (isFinite s.amount = true ∧ scaled f64Zero ≤ scaled s.amount ∧ scaled s.amount ≤ scaled f64Ten) :=
  not_inRange_iff (by decide) (by decide)

theorem rateOutOfRange_iff (s : State) : rateOutOfRange s = true ↔
    ¬ (isFinite s.rate = true ∧ scaled f64Tenth ≤ scaled s.rate ∧ scaled s.rate ≤ scaled f64TwentyFive) :=
  not_inRange_iff (by decide) (by decide)

theorem freqOutOfRange_iff (s : State) : freqOutOfRange s = true ↔
    ¬ (isFinite s.frequency = true ∧ scaled f64SixTenths ≤ scaled s.frequency ∧
      scaled s.frequency ≤ scaled f64FourThousand) :=
  not_inRange_iff (by decide) (by decide)

/-- Bits 31:1 are all 0 in the two waveform codes 0 and 1 only. -/
theorem waveReserved_iff (s : State) : waveReserved s = true ↔ 2 ≤ s.lfoWaveform.toNat := by
  have hbits : (s.lfoWaveform.extractLsb' 1 31).toNat = s.lfoWaveform.toNat / 2 := by
    rw [BitVec.extractLsb'_toNat, Nat.shiftRight_eq_div_pow]; omega
  rw [waveReserved, bne_iff_ne, ne_eq, ← BitVec.toNat_inj, hbits, BitVec.ofNat_eq_ofNat, BitVec.toNat_zero]
  omega

/-- The mask holds one cause per bit, `SR_ZERO` in bit 0 (10_state R21). -/
theorem getLsbD_checkMask (s : State) :
    (checkMask s).getLsbD 0 = srZero s ∧ (checkMask s).getLsbD 1 = mixOutOfRange s ∧
    (checkMask s).getLsbD 2 = amountOutOfRange s ∧ (checkMask s).getLsbD 3 = rateOutOfRange s ∧
    (checkMask s).getLsbD 4 = freqOutOfRange s ∧ (checkMask s).getLsbD 5 = waveReserved s := by
  unfold checkMask
  generalize srZero s = b0, mixOutOfRange s = b1, amountOutOfRange s = b2, rateOutOfRange s = b3,
    freqOutOfRange s = b4, waveReserved s = b5
  clear s
  revert b0 b1 b2 b3 b4 b5
  decide

end Sys2Proof.Machine

namespace Sys2Proof.Proofs

open Sys2Proof Sys2Proof.Machine

/-- Settles O14: each bit of the mask is its cause, and each cause compares exact values. -/
theorem checkFindsValuesOutOfRange : Obligations.CheckFindsValuesOutOfRange := by
  intro s
  obtain ⟨hsr, hmix, hamount, hrate, hfreq, hwave⟩ := getLsbD_checkMask s
  rw [hsr, hmix, hamount, hrate, hfreq, hwave]
  exact ⟨srZero_iff s, mixOutOfRange_iff s, amountOutOfRange_iff s, rateOutOfRange_iff s, freqOutOfRange_iff s,
    waveReserved_iff s⟩

end Sys2Proof.Proofs
end

