-- ==== Sys2Proof/Proofs/RegisterAccess.lean ====
section
/-! PROOFS. The host's register access (41_run_control R72, R73): what a write stores, what a read returns, and the one
after the other. -/

namespace Sys2Proof.Machine

variable {s : State} {num : Reg}

/-! ### Writes -/

theorem exec_wrreg_of_ne_control (hnum : num ≠ .control) (d : BitVec 64) (s : State) :
    exec (.wrreg num d) s = .next (hostWrite num d s) := by
  cases num with
  | control => exact absurd rfl hnum
  | _ => rfl

theorem exec_wrreg_of_not_running (hnum : num ≠ .control) (hr : s.runState ≠ .running) (d : BitVec 64) :
    exec (.wrreg num d) s = .next (writeParam num d s) := by
  rw [exec_wrreg_of_ne_control hnum, hostWrite, if_neg hr]

/-- The numbers that hold no storage the host can write (R72). -/
theorem writeParam_of_not_param (hnum : num = .status ∨ num = .errCause ∨ num = .index ∨ ∃ k, num = .reserved k)
    (d : BitVec 64) (s : State) : writeParam num d s = s := by
  obtain rfl | rfl | rfl | ⟨k, rfl⟩ := hnum <;> rfl

/-- A write is dropped for the number's sake or for the run's (20_memory R42). -/
theorem hostWrite_dropped (h : num = .status ∨ num = .errCause ∨ num = .index ∨ (∃ k, num = .reserved k) ∨
    s.runState = .running) (d : BitVec 64) : hostWrite num d s = s := by
  obtain ⟨-, heq⟩ | ⟨hr, heq⟩ := hostWrite_cases num d s
  · exact heq
  · rw [heq, writeParam_of_not_param]
    simpa only [hr, or_false] using h

/-- A write to `CONTROL` is the command in bits 1:0, of which only 01 does anything (10_state R12). -/
theorem exec_wrreg_control (d : BitVec 64) (s : State) :
    exec (.wrreg .control d) s = if d.extractLsb' 0 2 = 1#2 then exec .start s else .next s := by
  show Host.Outcome.next (runCommand (d.extractLsb' 0 2) s) = _
  split
  · rename_i hc; rw [hc]; rfl
  · rename_i hc; rw [runCommand, if_neg hc]

/-! ### Reads -/

/-- `STATUS` bit by bit (10_state R13). -/
theorem statusWord_eq_append (s : State) :
    statusWord s = 0#29 ++ BitVec.ofBool s.truncated ++ runStateCode s.runState := by
  unfold statusWord
  generalize s.truncated = b, runStateCode s.runState = c
  clear s
  revert b c
  decide

/-- `ERR_CAUSE` is read zero-extended (10_state R21). -/
theorem errCause_setWidth_eq_append (c : BitVec 6) : c.setWidth 32 = 0#26 ++ c := by
  revert c; decide

/-! ### A write and then a read -/

/-- A parameter register holds what was written to it, at its width (20_memory R40). -/
theorem readReg_writeParam_same
    (hnum : num ∈ [Reg.sampleRate, .sampleLength, .mix, .lfoWaveform, .amount, .rate, .frequency])
    (d : BitVec 64) (s : State) :
    readReg num (writeParam num d s) = if num.wide then .w64 d else .w32 (d.setWidth 32) := by
  cases num with
  | sampleRate | sampleLength | mix | lfoWaveform | amount | rate | frequency => rfl
  | control | status | errCause | index | reserved k => simp at hnum

end Sys2Proof.Machine

namespace Sys2Proof.Proofs

open Sys2Proof Sys2Proof.Machine

/-- Settles O9: the word by `decode_wrregWord`; a write stores outside RUNNING, is dropped, or is a command. -/
theorem registerWriteFollowsItsRule : Obligations.RegisterWriteFollowsItsRule := by
  refine ⟨decode_wrregWord, fun s d => ⟨fun hr => ?_, fun num hnum hdrop => ?_, exec_wrreg_control d s⟩⟩
  · have stores (num : Reg) (hnum : num ≠ .control) : exec (.wrreg num d) s = .next (writeParam num d s) :=
      exec_wrreg_of_not_running hnum hr d
    exact ⟨stores .sampleRate nofun, stores .sampleLength nofun, stores .mix nofun, stores .lfoWaveform nofun,
      stores .amount nofun, stores .rate nofun, stores .frequency nofun⟩
  · rw [exec_wrreg_of_ne_control hnum, hostWrite_dropped hdrop]

/-- Settles O10: the value returned is `readReg num`, written out number by number. -/
theorem readReturnsTheRegister : Obligations.ReadReturnsTheRegister := by
  refine ⟨decode_rdregWord, fun s num => ⟨readReg num s, rfl, ?_⟩⟩
  cases num with
  | status => rw [readReg, statusWord_eq_append]; cases s.runState <;> rfl
  | errCause => rw [readReg, errCause_setWidth_eq_append]
  | _ => rfl

/-- Settles O11: the write leaves the log of reads, to which the read appends the stored data. -/
theorem writtenParameterReadsBack : Obligations.WrittenParameterReadsBack := by
  intro s t u num d hr _ hnum ht hu
  have hne : num ≠ .control := by rintro rfl; simp at hnum
  obtain rfl : writeParam num d s = t := by
    simpa only [exec_wrreg_of_not_running hne hr, Host.Outcome.next.injEq] using ht
  rw [reads_of_exec_rdreg hu, writeParam_reads, readReg_writeParam_same hnum]

end Sys2Proof.Proofs
end

