-- ==== Sys2Proof/Proofs/ResetAndStart.lean ====
section
/-! PROOFS. RESET, the commands of `CONTROL` and START with its two parts (41_run_control R71, R74 to R77). -/

namespace Sys2Proof

/-- Bits 31:2 of a `CONTROL` value are ignored (30_encoding R48). -/
theorem decode_cmd_of_code {v : Word32} {code : BitVec 2} (h : v.extractLsb' 0 2 = code) :
    decode (.cmd v) = decode (.cmd (code.setWidth 32)) := by
  rw [← decode_canonical_cmd, canonical, h]

end Sys2Proof

namespace Sys2Proof.Machine

variable {s : State}

/-! ### The outcomes of START -/

/-- A refused START records the cause and touches no parameter and no hidden register (R75, R109). -/
theorem startRun_of_refused (hr : s.runState ≠ .running) (hm : checkMask s ≠ 0) :
    startRun s = { s with index := 0, truncated := false, out := [], errCause := checkMask s, runState := .error } := by
  obtain ⟨h, -⟩ | ⟨-, -, heq⟩ | ⟨-, h, -⟩ := startRun_cases s
  · exact absurd h hr
  · exact heq
  · exact absurd h hm

/-- An accepted START records the mask, which is 0, and initialises the run (R75, R77). -/
theorem startRun_of_accepted (hr : s.runState ≠ .running) (hm : checkMask s = 0) :
    startRun s = { initRun (recordCheck s) with
      index := 0, truncated := false, out := [], runState := if s.sampleLength = 0 then .done else .running } := by
  obtain ⟨h, -⟩ | ⟨-, h, -⟩ | ⟨-, -, heq⟩ := startRun_cases s
  · exact absurd h hr
  · exact absurd hm h
  · rw [heq, ← hm]; rfl

end Sys2Proof.Machine

namespace Sys2Proof.Proofs

open Sys2Proof Sys2Proof.Machine

/-- Settles O8: `resetBlock`, with its free values for the three registers left unspecified. -/
theorem resetOperationClearsTheBlock : Obligations.ResetOperationClearsTheBlock :=
  ⟨rfl, fun s => ⟨Config.freeF64 s.freeCount, Config.freeF64 (s.freeCount + 1), Config.freeF64 (s.freeCount + 2),
    Temps.idle, s.freeCount + 3, rfl⟩⟩

/-- Settles O12: the codes 00, 10 and 11 are not START's. -/
theorem nopAndReservedCommandsChangeNothing : Obligations.NopAndReservedCommandsChangeNothing :=
  ⟨fun _ => ⟨fun h => decode_cmd_of_code h, fun h => decode_cmd_of_code h, fun h => decode_cmd_of_code h⟩,
    fun _ => ⟨rfl, rfl, rfl⟩⟩

/-- Settles O13: one clause for each case of `startRun_cases`. -/
theorem startFollowsItsRule : Obligations.StartFollowsItsRule := by
  refine ⟨fun v h => decode_cmd_of_code h, fun s => ⟨fun hr => ?_, fun hr hm => ⟨[], ?_⟩, fun hr hm => ?_⟩⟩
  · exact congrArg _ (startRun_of_running hr)
  · exact congrArg _ (startRun_of_refused hr hm)
  · rw [← hm]
    exact congrArg _ (startRun_of_accepted hr hm)

/-- Settles O15: CHECK is `recordCheck`, INIT is `initRun`, and an accepted START composes them. -/
theorem startIsCheckThenInit : Obligations.StartIsCheckThenInit := fun s =>
  ⟨rfl, rfl, fun hr hm => ⟨recordCheck s, initRun (recordCheck s), rfl, rfl, congrArg _ (startRun_of_accepted hr hm)⟩⟩

end Sys2Proof.Proofs
end

