-- ==== Sys2Proof/Proofs/OscillatorMicroOps.lean ====
section
/-! PROOFS. The µops of the two oscillators, slots 0 to 5 (42_lfo R78 to R80, 43_carrier R83 to R86), and the level that
LFO_SQR gives a phase on each side of `PI_F64` (42_lfo R80 (c)). -/

namespace Sys2Proof.Machine

variable {a : F64}

/-- On a phase `SIN` is not negative up to `PI_F64` and negative above it (40_numerics R63, R65): at `+0` by S-ZERO,
elsewhere by S-SIGN. -/
theorem ge0_fsin_iff (h : inPhase a = true) : ge0 (fsin a) = true ↔ a.toNat ≤ piF64.toNat := by
  obtain ⟨hzero, hsine⟩ := Proofs.sineHasItsRangeAndSign
  obtain ⟨-, -, hpos, hneg⟩ := hsine a h
  rw [ge0_iff (isFinite_fsin h)]
  constructor
  · intro hnonneg
    by_contra habove
    exact hnonneg.not_gt (hneg (not_le.1 habove))
  · intro hle
    rcases Nat.eq_zero_or_pos a.toNat with ha | ha
    · obtain rfl : a = 0 := BitVec.eq_of_toNat_eq ha
      rw [hzero]
      exact scaled_f64Zero.ge
    · exact (hpos ha hle).le

/-- LFO_SQR's level by the phase alone (R80). -/
theorem lfoSqrOp_of_inPhase {s : State} (h : inPhase s.lfoPhase = true) :
    lfoSqrOp s = { s with tmp := { s.tmp with
      lfo := if s.lfoPhase.toNat ≤ piF64.toNat then f64One else f64Zero, slot := 2 } } := by
  simp only [lfoSqrOp, ge0_fsin_iff h]

end Sys2Proof.Machine

namespace Sys2Proof.Proofs

open Sys2Proof Sys2Proof.Machine

/-- Settles O27: the sign of the sine of a phase decides the level, and it changes at `PI_F64` (`ge0_fsin_iff`). -/
theorem squareLevelSwitchesAtPi : Obligations.SquareLevelSwitchesAtPi := fun _ h =>
  ⟨2, congrArg Host.Outcome.next (lfoSqrOp_of_inPhase h)⟩

/-- Settles O22: each slot's word by `decode_uopWord`, and each operation leaves the sequencer at the slot that follows
its own (30_encoding R51). -/
theorem oscillatorMicroOpsWriteTheirResult : Obligations.OscillatorMicroOpsWriteTheirResult := by
  refine ⟨fun w => ?_, fun _ => ⟨1, 2, 2, 3, 4, 5, 6, rfl, rfl, rfl, rfl, rfl, rfl, rfl⟩⟩
  simp only [decode_uopWord]
  exact ⟨rfl, rfl, rfl, rfl, rfl, rfl⟩

end Sys2Proof.Proofs
end

