-- ==== Sys2Proof/Proofs/CarrierFrequency.lean ====
section
/-! PROOFS. The instantaneous carrier frequency under Square (43_carrier R83 (b), (c), R87 (d); 90_conflicts C4): the
upper level `1.0` leaves the frequency as the first factor of the excursion, and the lower level `+0` makes the
excursion a zero, which leaves the frequency as it is. -/

namespace Sys2Proof.Machine

variable {a b z : F64}

/-! ### One as a factor, a zero as a factor and as a summand -/

/-- `fmul(1.0, a) = a` (R83 (c)). -/
theorem fmul_one_left (ha : isFinite a = true) : fmul f64One a = a := by
  have hunits : units f64One = 2 ^ 1074 := by decide +kernel
  have hmag : magBits a ≤ infBits := (of_decide_eq_true ha).le
  have hsign : signBit f64One = false := by decide
  rw [fmul_of_finite (by decide) ha, hunits, mul_comm, units, roundBits_exact (pow_pos two_pos _) hmag, hsign,
    Bool.false_bne, packF64_self]

theorem isFinite_of_magBits_zero (hz : magBits z = 0) : isFinite z = true :=
  isFinite_of_magBits_le hz.le (by decide)

theorem magBits_fmul_of_zero_left (hz : magBits z = 0) (ha : isFinite a = true) : magBits (fmul z a) = 0 :=
  Nat.le_zero.1 <| magBits_fmul_le (isFinite_of_magBits_zero hz) ha <| by
    rw [units, hz, unitsOfBits_zero, Nat.zero_mul]
    exact Nat.zero_le _

theorem signBit_eq_decide_scaled_neg (h0 : scaled a ≠ 0) : signBit a = decide (scaled a < 0) := by
  rw [Bool.eq_iff_iff, decide_eq_true_eq, ← Int.sign_eq_neg_one_iff_neg, sign_scaled h0]
  cases signBit a <;> decide

/-- A zero of either sign, added to a number other than zero, does not change it (R83 (b)). -/
theorem fadd_of_zero_right (ha : isFinite a = true) (h0 : scaled a ≠ 0) (hz : magBits z = 0) : fadd a z = a := by
  have hmag : magBits a ≤ infBits := (of_decide_eq_true ha).le
  have hround : roundBits (units a) 1 = magBits a := by
    simpa only [mul_one, units] using roundBits_exact one_pos hmag
  rw [fadd_of_finite ha (isFinite_of_magBits_zero hz), scaled_eq_zero.2 hz, add_zero, if_neg h0, scaled_natAbs, hround,
    ← signBit_eq_decide_scaled_neg h0, packF64_self]

/-! ### Legal parameters -/

/-- With legal parameters no cause of the check holds (41_run_control R76). -/
theorem causes_of_legalParams {s : State} (h : legalParams s) :
    srZero s = false ∧ mixOutOfRange s = false ∧ amountOutOfRange s = false ∧ rateOutOfRange s = false ∧
    freqOutOfRange s = false ∧ waveReserved s = false := by
  obtain ⟨hsr, hmix, hamount, hrate, hfreq, hwave⟩ := getLsbD_checkMask s
  rw [show checkMask s = 0 from h] at hsr hmix hamount hrate hfreq hwave
  exact ⟨hsr.symm, hmix.symm, hamount.symm, hrate.symm, hfreq.symm, hwave.symm⟩

theorem amount_of_legalParams {s : State} (h : legalParams s) :
    isFinite s.amount = true ∧ scaled f64Zero ≤ scaled s.amount ∧ scaled s.amount ≤ scaled f64Ten := by
  obtain ⟨-, -, hamount, -, -, -⟩ := causes_of_legalParams h
  simpa only [hamount, Bool.false_eq_true, false_iff, not_not] using amountOutOfRange_iff s

theorem frequency_of_legalParams {s : State} (h : legalParams s) :
    isFinite s.frequency = true ∧ scaled f64SixTenths ≤ scaled s.frequency ∧
      scaled s.frequency ≤ scaled f64FourThousand := by
  obtain ⟨-, -, -, -, hfreq, -⟩ := causes_of_legalParams h
  simpa only [hfreq, Bool.false_eq_true, false_iff, not_not] using freqOutOfRange_iff s

theorem scaled_frequency_ne_zero {s : State} (h : legalParams s) : scaled s.frequency ≠ 0 := by
  obtain ⟨-, hlow, -⟩ := frequency_of_legalParams h
  have hpos : 0 < scaled f64SixTenths := by decide +kernel
  exact (hpos.trans_le hlow).ne'

/-- A legal `AMOUNT` is at most `10.0`, so its fraction is at most `1.0`. -/
theorem magBits_amountFraction_le {s : State} (h : legalParams s) : magBits (amountFraction s) ≤ magBits f64One := by
  obtain ⟨hfin, hlow, hhigh⟩ := amount_of_legalParams h
  have hunits : units s.amount ≤ units f64Ten := by
    rw [scaled_f64Zero] at hlow
    rw [← scaled_natAbs, ← scaled_natAbs]
    omega
  have hone : unitsOfBits (magBits f64One) = 2 ^ 1074 := by decide +kernel
  refine magBits_fdiv_le hfin (by decide) (by decide) ?_
  rw [hone, mul_comm]
  exact Nat.mul_le_mul_left _ hunits

theorem isFinite_amountFraction {s : State} (h : legalParams s) : isFinite (amountFraction s) = true :=
  isFinite_of_magBits_le (magBits_amountFraction_le h) (by decide)

/-! ### The excursion at Square's two levels -/

theorem excursion_of_one (ha : isFinite a = true) : excursion f64One a b = fmul (fmul a f64Three) b := by
  rw [excursion, fmul_one_left ha]

theorem magBits_excursion_of_zero (ha : isFinite a = true) (hb : isFinite b = true) :
    magBits (excursion f64Zero a b) = 0 :=
  magBits_fmul_of_zero_left (magBits_fmul_of_zero_left (magBits_fmul_of_zero_left (by decide) ha) (by decide)) hb

end Sys2Proof.Machine

namespace Sys2Proof.Proofs

open Sys2Proof Sys2Proof.Machine

/-- Settles O38, by LFO_SQR's two levels: `+0` gives an excursion that is a zero, and `1.0` gives the upper number. -/
theorem squareGivesTwoCarrierFrequencies : Obligations.SquareGivesTwoCarrierFrequencies := by
  rintro s _ _ hlegal hfrac ⟨⟩ ⟨⟩
  obtain ⟨hfreq, -⟩ := frequency_of_legalParams hlegal
  have hamount : isFinite s.amountFrac = true := hfrac ▸ isFinite_amountFraction hlegal
  simp only [excOp_frequency, excOp_tmp, lfoSqrOp_frequency, lfoSqrOp_amountFrac, lfoSqrOp_tmp]
  cases ge0 (fsin s.lfoPhase) with
  | false =>
    exact .inl (fadd_of_zero_right hfreq (scaled_frequency_ne_zero hlegal) (magBits_excursion_of_zero hfreq hamount))
  | true => exact .inr (congrArg (fadd s.frequency) (excursion_of_one hfreq))

end Sys2Proof.Proofs
end

