-- ==== Sys2Proof/Proofs/MixerMicroOps.lean ====
section
/-! PROOFS. The µops of the mixer and of the two streams, slots 6 to 13 (44_ringmod_mixer R88 to R95). -/

namespace Sys2Proof.Machine

/-- With neither signal on the port IN_TAKE waits (log 25). -/
theorem inTakeOp_nothing {s : State} (h : s.inPort = .nothing) : inTakeOp s = s := by
  rw [inTakeOp, h]

end Sys2Proof.Machine

namespace Sys2Proof.Proofs

open Sys2Proof Sys2Proof.Machine

/-- Settles O23: one lemma about `inTakeOp` for each case of the port. -/
theorem inTakeConsumesAnOfferedSample : Obligations.InTakeConsumesAnOfferedSample := fun _ _ =>
  ⟨fun h => congrArg Host.Outcome.next (inTakeOp_sample h), fun h => congrArg Host.Outcome.next (inTakeOp_endOfInput h),
    fun h => congrArg Host.Outcome.next (inTakeOp_nothing h)⟩

/-- Settles O24: each slot's word by `decode_uopWord`, and each operation leaves the sequencer at the slot that follows
its own (30_encoding R51). -/
theorem mixerMicroOpsWriteTheirResult : Obligations.MixerMicroOpsWriteTheirResult := by
  refine ⟨fun w => ?_, fun _ => ⟨8, 9, 10, 11, 12, rfl, rfl, rfl, rfl, rfl⟩⟩
  simp only [decode_uopWord]
  exact ⟨rfl, rfl, rfl, rfl, rfl⟩

/-- Settles O25: the STEP is over, so slot 0 follows OUT_PUT. -/
theorem outPutAppendsAndCounts : Obligations.OutPutAppendsAndCounts :=
  ⟨fun w => decode_uopWord 12 w, fun _ => ⟨0, rfl⟩⟩

/-- Settles O26: the STEP is over, so slot 0 follows STOP_EXH. -/
theorem stopExhEndsTheRun : Obligations.StopExhEndsTheRun :=
  ⟨fun w => decode_uopWord 13 w, fun _ => ⟨0, rfl⟩⟩

end Sys2Proof.Proofs
end

