-- ==== Sys2Proof/Proofs/PowerBounds.lean ====
section
/-! PROOFS. Bounds of finite numbers by powers of two, through the operations of 40_numerics R58 to R61: with legal
parameters no operation of the datapath overflows (R70). -/

namespace Sys2Proof.Machine

variable {a b : F64} {k m n : Nat}

/-- The magnitude bits of `2^n`. -/
def powBits (n : Nat) : Nat := (1023 + n) * 2 ^ 52

/-- `|a| ≤ 2^n`. -/
def AbsLePow (n : Nat) (a : F64) : Prop := magBits a ≤ powBits n

theorem unitsOfBits_powBits (n : Nat) : unitsOfBits (powBits n) = 2 ^ (1074 + n) := by
  rw [powBits, show (1023 + n) * 2 ^ 52 = (1022 + n) * 2 ^ 52 + 2 ^ 52 by omega,
    unitsOfBits_shift (by norm_num) (.inr le_rfl), ← pow_add]
  congr 1
  omega

/-- The predicate is the bound it is named for, in units of `2^-1074`. -/
theorem absLePow_iff : AbsLePow n a ↔ units a ≤ 2 ^ (1074 + n) := by
  rw [AbsLePow, units, ← unitsOfBits_powBits, unitsOfBits_strictMono.le_iff_le]

theorem AbsLePow.mono (h : AbsLePow m a) (hmn : m ≤ n) : AbsLePow n a :=
  h.trans (Nat.mul_le_mul_right _ (by omega))

theorem AbsLePow.finite (h : AbsLePow n a) (hn : n < 1024) : isFinite a = true :=
  isFinite_of_magBits_le h (Nat.mul_lt_mul_of_pos_right (by omega) (by norm_num))

/-! An operation's bound `k` has room for the exact result of the bounds it is given. -/

theorem AbsLePow.mul (ha : AbsLePow m a) (hb : AbsLePow n b) (hk : m + n ≤ k ∧ k < 1024) :
    AbsLePow k (fmul a b) := by
  refine magBits_fmul_le (ha.finite (by omega)) (hb.finite (by omega)) ?_
  calc units a * units b ≤ 2 ^ (1074 + m) * 2 ^ (1074 + n) :=
        Nat.mul_le_mul (absLePow_iff.1 ha) (absLePow_iff.1 hb)
    _ ≤ 2 ^ (1074 + k + 1074) := by
        rw [← pow_add]; exact Nat.pow_le_pow_right two_pos (by omega)
    _ = unitsOfBits (powBits k) * 2 ^ 1074 := by rw [unitsOfBits_powBits, pow_add]

theorem AbsLePow.add (ha : AbsLePow m a) (hb : AbsLePow n b) (hk : m < k ∧ n < k ∧ k < 1024) :
    AbsLePow k (fadd a b) := by
  obtain ⟨j, rfl⟩ : ∃ j, k = j + 1 := ⟨k - 1, by omega⟩
  refine magBits_fadd_le (ha.finite (by omega)) (hb.finite (by omega)) ?_
  calc (scaled a + scaled b).natAbs ≤ units a + units b := by
        rw [← scaled_natAbs a, ← scaled_natAbs b]; exact Int.natAbs_add_le _ _
    _ ≤ 2 ^ (1074 + j) + 2 ^ (1074 + j) :=
        Nat.add_le_add (absLePow_iff.1 (ha.mono (by omega))) (absLePow_iff.1 (hb.mono (by omega)))
    _ = unitsOfBits (powBits (j + 1)) := by rw [unitsOfBits_powBits, ← add_assoc, pow_succ, mul_two]

/-- A divisor that is at least 1 does not enlarge the bound. -/
theorem AbsLePow.div (ha : AbsLePow n a) (hn : n < 1024) (hb : isFinite b = true) (h1 : 2 ^ 1074 ≤ units b) :
    AbsLePow n (fdiv a b) := by
  have hb0 : magBits b ≠ 0 := mt unitsOfBits_eq_zero.2 ((pow_pos two_pos _).trans_le h1).ne'
  refine magBits_fdiv_le (ha.finite hn) hb hb0 ?_
  rw [unitsOfBits_powBits]
  exact Nat.mul_le_mul (absLePow_iff.1 ha) h1

end Sys2Proof.Machine
end

