-- ==== Sys2Proof/Proofs/PhasesOfAStep.lean ====
section
/-! PROOFS. Under the invariant of 45_step R104 both oscillators of a STEP advance to phases (42_lfo R78 to R81, 43_carrier
R83 to R85): every operand is finite, so WRAP gives a phase. -/

namespace Sys2Proof.Machine

variable {s : State} {p : F64}

/-! ### Legal parameters -/

theorem sampleRate_of_legalParams (h : legalParams s) : s.sampleRate ≠ 0 := by
  obtain ⟨hsr, -, -, -, -, -⟩ := causes_of_legalParams h
  rw [ne_eq, ← srZero_iff, hsr]
  exact Bool.false_ne_true

theorem mix_of_legalParams (h : legalParams s) : 0 ≤ s.mix.toInt ∧ s.mix.toInt ≤ 100 := by
  obtain ⟨-, hmix, -, -, -, -⟩ := causes_of_legalParams h
  simpa only [hmix, Bool.false_eq_true, false_iff, not_not] using mixOutOfRange_iff s

theorem rate_of_legalParams (h : legalParams s) :
    isFinite s.rate = true ∧ scaled f64Tenth ≤ scaled s.rate ∧ scaled s.rate ≤ scaled f64TwentyFive := by
  obtain ⟨-, -, -, hrate, -, -⟩ := causes_of_legalParams h
  simpa only [hrate, Bool.false_eq_true, false_iff, not_not] using rateOutOfRange_iff s

/-- A number between 0 and a bound is at most that bound in magnitude. -/
theorem magBits_le_of_scaled_mem {a b : F64} (h0 : 0 ≤ scaled a) (hab : scaled a ≤ scaled b) :
    magBits a ≤ magBits b := by
  have hunits : units a ≤ units b := by
    rw [← scaled_natAbs, ← scaled_natAbs]
    omega
  exact unitsOfBits_strictMono.le_iff_le.1 hunits

theorem absLePow_rate (h : legalParams s) : AbsLePow 5 s.rate := by
  obtain ⟨-, hlow, hhigh⟩ := rate_of_legalParams h
  have hpos : 0 < scaled f64Tenth := by decide +kernel
  exact (magBits_le_of_scaled_mem (hpos.le.trans hlow) hhigh).trans (by decide)

theorem absLePow_frequency (h : legalParams s) : AbsLePow 12 s.frequency := by
  obtain ⟨-, hlow, hhigh⟩ := frequency_of_legalParams h
  have hpos : 0 < scaled f64SixTenths := by decide +kernel
  exact (magBits_le_of_scaled_mem (hpos.le.trans hlow) hhigh).trans (by decide)

theorem absLePow_twoPi : AbsLePow 3 twoPi := by unfold AbsLePow; decide

theorem absLePow_f64Three : AbsLePow 2 f64Three := by unfold AbsLePow; decide

/-- `I2F` is exact up to `2^53`, by magnitude. -/
theorem units_i2f {n : Int} (hn : n.natAbs ≤ 2 ^ 53) : units (i2f n) = n.natAbs * 2 ^ 1074 := by
  have htwo : Int.natAbs 2 = 2 := rfl
  rw [← scaled_natAbs, (i2f_exact hn).2, Int.natAbs_mul, Int.natAbs_pow, htwo]

/-- `SAMPLE_RATE` converts to a finite number that is at least 1. -/
theorem rateOperand_of_legalParams (h : legalParams s) :
    isFinite (rateOperand s) = true ∧ 2 ^ 1074 ≤ units (rateOperand s) := by
  have hlt := s.sampleRate.isLt
  have hpos : 1 ≤ s.sampleRate.toNat := by
    have := sampleRate_of_legalParams h
    bv_omega
  have hsmall : (s.sampleRate.toNat : Int).natAbs ≤ 2 ^ 53 := by omega
  refine ⟨(i2f_exact hsmall).1, ?_⟩
  rw [rateOperand, units_i2f hsmall, Int.natAbs_natCast]
  exact Nat.le_mul_of_pos_left _ hpos

/-! ### The bounds of the datapath -/

theorem absLePow_of_inPhase (h : inPhase p = true) : AbsLePow 3 p :=
  (magBits_lt_twoPi h).le.trans absLePow_twoPi

theorem absLePow_fsin (h : inPhase p = true) : AbsLePow 0 (fsin p) := magBits_fsin_le h

theorem absLePow_lfoIncrement (h : legalParams s) : AbsLePow 8 (lfoIncrement s) := by
  obtain ⟨hfin, hone⟩ := rateOperand_of_legalParams h
  exact (absLePow_twoPi.mul (absLePow_rate h) (by decide)).div (by decide) hfin hone

/-- The LFO is the sine of a phase, or a level of Square. -/
theorem absLePow_lfoValue (w : Bool) (h : inPhase p = true) : AbsLePow 0 (lfoValue w p) := by
  unfold lfoValue
  split
  · split
    · exact Nat.le_refl (magBits f64One)
    · exact Nat.zero_le _
  · exact absLePow_fsin h

theorem absLePow_excursion {lfo : F64} (h : legalParams s) (hlfo : AbsLePow 0 lfo) :
    AbsLePow 14 (excursion lfo s.frequency (amountFraction s)) := by
  have hamount : AbsLePow 0 (amountFraction s) := magBits_amountFraction_le h
  have hfreq : AbsLePow 12 (fmul lfo s.frequency) := hlfo.mul (absLePow_frequency h) (by decide)
  have hthree : AbsLePow 14 (fmul (fmul lfo s.frequency) f64Three) := hfreq.mul absLePow_f64Three (by decide)
  exact hthree.mul hamount (by decide)

theorem absLePow_carrierIncrement {e : F64} (h : legalParams s) (he : AbsLePow 14 e) :
    AbsLePow 18 (carrierIncrement s.frequency e (rateOperand s)) := by
  obtain ⟨hfin, hone⟩ := rateOperand_of_legalParams h
  have hfreq : AbsLePow 15 (fadd s.frequency e) := (absLePow_frequency h).add he (by decide)
  exact (absLePow_twoPi.mul hfreq (by decide)).div (by decide) hfin hone

/-! ### The phases -/

theorem inPhase_wrap {a : F64} (h : isFinite a = true) : inPhase (wrap a) = true :=
  decide_eq_true (Proofs.wrapReducesToOneTurn a h).1

/-- A phase advanced by a bounded increment is a phase (42_lfo R78, 43_carrier R85). -/
theorem inPhase_advance {d : F64} (hp : inPhase p = true) (hd : AbsLePow 18 d) :
    inPhase (wrap (fadd p d)) = true :=
  have hsum : AbsLePow 19 (fadd p d) := (absLePow_of_inPhase hp).add hd (by decide)
  inPhase_wrap (hsum.finite (by decide))

/-- In a run both phases of a STEP are phases again. -/
theorem inPhase_oscillators (h : PhaseBounds s) (hr : s.runState = .running) :
    inPhase (oscillators s).lfoPhase = true ∧ inPhase (oscillators s).carrierPhase = true := by
  obtain ⟨hlfo, hcar, hrun⟩ := h
  obtain ⟨hlegal, -, hamount, hinc⟩ := hrun hr
  have hp : inPhase (wrap (fadd s.lfoPhase s.lfoInc)) = true := by
    rw [hinc]
    exact inPhase_advance hlfo ((absLePow_lfoIncrement hlegal).mono (by decide))
  rw [oscillators_eq, hamount]
  exact ⟨hp, inPhase_advance hcar
    (absLePow_carrierIncrement hlegal (absLePow_excursion hlegal (absLePow_lfoValue _ hp)))⟩

end Sys2Proof.Machine
end

