-- ==== Sys2Proof/Proofs/MixerBound.lean ====
section
/-! PROOFS. A STEP's result is not larger than its sample (44_ringmod_mixer R96 (c), (d)): each rounding adds at most a
`2^-53`th part, so the mixed value exceeds the sample by less than 1, and TRUNC rounds toward zero. -/

namespace Sys2Proof.Machine

variable {a b sf m car : F64}

/-! ### The error of one rounding -/

/-- The distance from a magnitude to the next is a `2^-52`th part of it, or one unit. -/
theorem unitsOfBits_gap_le (b : Nat) :
    (unitsOfBits (b + 1) - unitsOfBits b) * 2 ^ 52 ≤ unitsOfBits b + 2 ^ 52 := by
  obtain ⟨k, m, rfl, hm, hk⟩ := bits_split b
  rw [Nat.add_assoc, unitsOfBits_shift hm.le hk, unitsOfBits_shift (by omega) (by omega), ← Nat.sub_mul,
    Nat.add_sub_cancel_left, Nat.one_mul]
  rcases hk with rfl | hk
  · omega
  · rw [Nat.mul_comm]
    exact (Nat.mul_le_mul_right _ hk).trans (Nat.le_add_right _ _)

/-- Rounding enlarges a quotient by at most a `2^-53`th part and half a unit. -/
theorem units_roundBits_le (num : Nat) {den : Nat} (hden : 0 < den) :
    2 ^ 53 * (unitsOfBits (roundBits num den) * den) ≤ (2 ^ 53 + 1) * num + 2 ^ 52 * den := by
  obtain ⟨b, hlo, -, he⟩ := roundBits_spec num hden
  have hgap := Nat.mul_le_mul_right den (unitsOfBits_gap_le b)
  have hsucc : unitsOfBits (b + 1) * den = unitsOfBits b * den + (unitsOfBits (b + 1) - unitsOfBits b) * den := by
    rw [← Nat.add_mul, Nat.add_sub_cancel' (unitsOfBits_lt_succ b).le]
  have hround : roundBits num den ≤ b ∨ roundBits num den ≤ b + 1 ∧
      (unitsOfBits (b + 1) - unitsOfBits b) * den ≤ 2 * (num - unitsOfBits b * den) := by
    split_ifs at he <;> omega
  rw [Nat.add_mul, Nat.mul_right_comm] at hgap
  rcases hround with h | ⟨h, hnear⟩
  · have := Nat.mul_le_mul_right den (unitsOfBits_strictMono.monotone h)
    omega
  · have := Nat.mul_le_mul_right den (unitsOfBits_strictMono.monotone h)
    omega

theorem units_fmul (ha : isFinite a = true) (hb : isFinite b = true) :
    units (fmul a b) = unitsOfBits (roundBits (units a * units b) (2 ^ 1074)) := by
  rw [fmul_of_finite ha hb, units_packF64 _ ((roundBits_le_infBits _ _).trans_lt infBits_lt)]

/-- A difference of finite numbers is the sum with the negative, whichever operation is named for a NaN (R59). -/
theorem fsub_of_finite (ha : isFinite a = true) (hb : isFinite b = true) : fsub a b = fadd a (fneg b) := by
  have hb' : isFinite (fneg b) = true := by rwa [isFinite_fneg]
  simp [fsub, fadd, addCore, isNaN_of_isFinite ha, isNaN_of_isFinite hb', isInf_of_isFinite ha, isInf_of_isFinite hb']

theorem units_fadd (ha : isFinite a = true) (hb : isFinite b = true) :
    units (fadd a b) = unitsOfBits (roundBits (scaled a + scaled b).natAbs 1) := by
  rw [fadd_of_finite ha hb]
  split
  next hz => rw [hz, Int.natAbs_zero, roundBits_zero one_pos, units_packF64 _ (by norm_num)]
  next => rw [units_packF64 _ ((roundBits_le_infBits _ _).trans_lt infBits_lt)]

/-! ### The mixing fraction -/

/-- A number from `+0` to `1.0`. -/
def InUnit (m : F64) : Prop := signBit m = false ∧ magBits m ≤ magBits f64One

theorem units_f64One : units f64One = 2 ^ 1074 := by decide +kernel

theorem units_le_of_magBits_le (h : magBits a ≤ magBits b) : units a ≤ units b :=
  unitsOfBits_strictMono.monotone h

theorem isFinite_of_le_one (h : magBits a ≤ magBits f64One) : isFinite a = true :=
  isFinite_of_magBits_le h (by decide)

/-- `mix/100` of a legal `MIX` (30_encoding R52). -/
theorem inUnit_mixFraction {s : State} (h : legalParams s) : InUnit (mixFraction s) := by
  obtain ⟨h0, h100⟩ := mix_of_legalParams h
  have hsmall : s.mix.toInt.natAbs ≤ 2 ^ 53 := by omega
  have hfin : isFinite (mixOperand s) = true := (i2f_exact hsmall).1
  have hsign : signBit (mixOperand s) = false := by
    rw [mixOperand, i2f_eq, signBit_packF64 _ ((roundBits_le_infBits _ _).trans_lt infBits_lt)]
    simpa using h0
  have hle : units (mixOperand s) ≤ units f64Hundred := by
    have hhundred : units f64Hundred = 100 * 2 ^ 1074 := by decide +kernel
    rw [hhundred, mixOperand, units_i2f hsmall]
    exact Nat.mul_le_mul_right _ (by omega)
  refine ⟨?_, magBits_fdiv_le hfin (by decide) (by decide) ?_⟩
  · rw [mixFraction, fdiv_of_finite hfin (by decide) (by decide),
      signBit_packF64 _ ((roundBits_le_infBits _ _).trans_lt infBits_lt), hsign]
    decide
  · rw [show unitsOfBits (magBits f64One) = 2 ^ 1074 from units_f64One, Nat.mul_comm]
    exact Nat.mul_le_mul_left _ hle

section Complement

variable (hm : InUnit m)
include hm

theorem InUnit.finite : isFinite m = true := isFinite_of_le_one hm.2

theorem InUnit.units_le : units m ≤ 2 ^ 1074 := units_f64One ▸ units_le_of_magBits_le hm.2

/-- The complement `1 − mixFraction` as the rounding of an exact difference. -/
theorem units_one_sub : units (fsub f64One m) = unitsOfBits (roundBits (2 ^ 1074 - units m) 1) := by
  have hscaled : scaled m = units m := by rw [scaled, hm.1]; rfl
  have hone : scaled f64One = (2 ^ 1074 : Nat) := by decide +kernel
  have hle := hm.units_le
  rw [fsub_of_finite (by decide) hm.finite, units_fadd (by decide) (by rw [isFinite_fneg]; exact hm.finite),
    scaled_fneg, hscaled, hone]
  congr 2
  generalize (2 : Nat) ^ 1074 = U at *
  omega

/-- The complement is at most 1, and it exceeds the exact difference by its rounding error only. -/
theorem one_sub_bounds : magBits (fsub f64One m) ≤ magBits f64One ∧
    2 ^ 53 * units (fsub f64One m) ≤ (2 ^ 53 + 1) * (2 ^ 1074 - units m) + 2 ^ 52 := by
  constructor
  · refine unitsOfBits_strictMono.le_iff_le.1 ?_
    rw [← units, units_one_sub hm]
    refine unitsOfBits_strictMono.monotone (roundBits_le one_pos ?_)
    rw [← units, units_f64One, Nat.mul_one]
    exact Nat.sub_le _ _
  · simpa only [units_one_sub hm, Nat.mul_one] using units_roundBits_le (2 ^ 1074 - units m) one_pos

end Complement

/-! ### The mixed value -/

/-- A product with a factor of at most 1 is at most the other factor. -/
theorem magBits_fmul_le_left (ha : isFinite a = true) (hb : magBits b ≤ magBits f64One) :
    magBits (fmul a b) ≤ magBits a := by
  refine magBits_fmul_le ha (isFinite_of_le_one hb) (Nat.mul_le_mul_left _ ?_)
  exact units_f64One ▸ units_le_of_magBits_le hb

theorem isFinite_fmul_of_le_one (ha : isFinite a = true) (hb : magBits b ≤ magBits f64One) :
    isFinite (fmul a b) = true :=
  isFinite_of_magBits_le (magBits_fmul_le_left ha hb) (of_decide_eq_true ha)

/-- A product by its factors' magnitudes, the first at most `S`, with the rounding error. -/
theorem units_fmul_le_of_units_le {S : Nat} (ha : isFinite a = true) (hb : isFinite b = true)
    (hS : units a ≤ S * 2 ^ 1074) : 2 ^ 53 * units (fmul a b) ≤ (2 ^ 53 + 1) * (S * units b) + 2 ^ 52 := by
  refine Nat.le_of_mul_le_mul_right (c := 2 ^ 1074) ?_ (pow_pos two_pos _)
  calc 2 ^ 53 * units (fmul a b) * 2 ^ 1074 ≤ (2 ^ 53 + 1) * (units a * units b) + 2 ^ 52 * 2 ^ 1074 := by
        rw [Nat.mul_assoc, units_fmul ha hb]; exact units_roundBits_le _ (pow_pos two_pos _)
    _ ≤ (2 ^ 53 + 1) * (S * 2 ^ 1074 * units b) + 2 ^ 52 * 2 ^ 1074 :=
        Nat.add_le_add_right (Nat.mul_le_mul_left _ (Nat.mul_le_mul_right _ hS)) _
    _ = ((2 ^ 53 + 1) * (S * units b) + 2 ^ 52) * 2 ^ 1074 := by ring

/-- The two products together exceed the sample by at most a half: `u` and `f` are the fraction and its complement,
`dry` and `wet` the products, in units of which `U` are 1, for samples of at most 32 bits. -/
theorem dry_add_wet_le {S U H u f dry wet : Nat} (hS : S ≤ 2 ^ 31) (hU : U = 2 * H) (hH : 2 ^ 64 ≤ H) (hu : u ≤ U)
    (hf : 2 ^ 53 * f ≤ (2 ^ 53 + 1) * (U - u) + 2 ^ 52)
    (hdry : 2 ^ 53 * dry ≤ (2 ^ 53 + 1) * (S * f) + 2 ^ 52)
    (hwet : 2 ^ 53 * wet ≤ (2 ^ 53 + 1) * (S * u) + 2 ^ 52) :
    dry + wet ≤ (2 * S + 1) * H := by
  subst hU
  have hSf : 2 ^ 53 * (S * f) ≤ (2 ^ 53 + 1) * (2 * (S * H) - S * u) + 2 ^ 52 * S := by
    calc 2 ^ 53 * (S * f) = S * (2 ^ 53 * f) := by ring
      _ ≤ S * ((2 ^ 53 + 1) * (2 * H - u) + 2 ^ 52) := Nat.mul_le_mul_left _ hf
      _ = (2 ^ 53 + 1) * (S * (2 * H - u)) + 2 ^ 52 * S := by ring
      _ = (2 ^ 53 + 1) * (2 * (S * H) - S * u) + 2 ^ 52 * S := by rw [Nat.mul_sub, Nat.mul_left_comm]
  have hSu : S * u ≤ 2 * (S * H) := by
    rw [Nat.mul_left_comm]; exact Nat.mul_le_mul_left _ hu
  have hSH : S * H ≤ 2 ^ 31 * H := Nat.mul_le_mul_right _ hS
  rw [Nat.add_mul, Nat.mul_assoc]
  omega

/-- The mixed value exceeds the sample `± S` by at most a half, which is a binary64 number, so its own rounding keeps that
bound (R96 (c)). -/
theorem units_mixed_lt {S : Nat} (hfin : isFinite sf = true) (hsf : units sf = S * 2 ^ 1074) (hS : S ≤ 2 ^ 31)
    (hm : InUnit m) (hcar : magBits car ≤ magBits f64One) :
    units (fadd (dryProduct sf m) (fmul (fmul sf car) m)) < (S + 1) * 2 ^ 1074 := by
  obtain ⟨hcomp, hcompUnits⟩ := one_sub_bounds hm
  have hring := magBits_fmul_le_left hfin hcar
  have hringFin := isFinite_fmul_of_le_one hfin hcar
  have hdry := units_fmul_le_of_units_le hfin (isFinite_of_le_one hcomp) hsf.le
  have hwet := units_fmul_le_of_units_le hringFin hm.finite (hsf ▸ units_le_of_magBits_le hring)
  have hone : (2 : Nat) ^ 1074 = 2 * 2 ^ 1073 := pow_succ' 2 1073
  have hsum : units (dryProduct sf m) + units (fmul (fmul sf car) m) ≤ (2 * S + 1) * 2 ^ 1073 :=
    dry_add_wet_le hS hone (Nat.pow_le_pow_right two_pos (by norm_num)) hm.units_le hcompUnits hdry hwet
  obtain ⟨B, hB⟩ := exists_unitsOfBits_eq 1073 (m := 2 * S + 1) (by omega)
  have hmixed : magBits (fadd (dryProduct sf m) (fmul (fmul sf car) m)) ≤ B := by
    refine magBits_fadd_le (isFinite_fmul_of_le_one hfin hcomp) (isFinite_fmul_of_le_one hringFin hm.2)
      ((Int.natAbs_add_le _ _).trans ?_)
    rwa [scaled_natAbs, scaled_natAbs, hB]
  calc units (fadd (dryProduct sf m) (fmul (fmul sf car) m)) ≤ unitsOfBits B := unitsOfBits_strictMono.monotone hmixed
    _ = (2 * S + 1) * 2 ^ 1073 := hB
    _ < (2 * S + 2) * 2 ^ 1073 := Nat.mul_lt_mul_of_pos_right (Nat.lt_succ_self _) (pow_pos two_pos _)
    _ = (S + 1) * 2 ^ 1074 := by rw [hone]; ring

/-! ### Truncation -/

/-- Saturation moves a number toward zero. -/
theorem natAbs_saturate_le (w : Nat) (t : Int) : (saturate w t).natAbs ≤ t.natAbs := by
  have hpos : (0 : Int) < 2 ^ (w - 1) := pow_pos two_pos _
  unfold saturate
  split
  · unfold maxSample at *; omega
  · split
    · unfold minSample at *; omega
    · exact le_rfl

/-- TRUNC rounds toward zero (40_numerics R67). -/
theorem natAbs_f2i_le {S : Nat} (w : Nat) (hS : S ≤ 2 ^ 31) (h : units a < (S + 1) * 2 ^ 1074) :
    (f2i w a).natAbs ≤ S := by
  have hpow : AbsLePow 32 a := by
    refine absLePow_iff.2 (h.le.trans ?_)
    rw [Nat.add_comm 1074, pow_add]
    exact Nat.mul_le_mul_right _ (by omega)
  have htwo : Int.natAbs 2 = 2 := rfl
  calc (f2i w a).natAbs ≤ ((scaled a).tdiv (2 ^ 1074)).natAbs := by
        rw [f2i_of_finite w (hpow.finite (by norm_num))]; exact natAbs_saturate_le _ _
    _ = units a / 2 ^ 1074 := by rw [Int.natAbs_tdiv, scaled_natAbs, Int.natAbs_pow, htwo]; rfl
    _ ≤ S := Nat.lt_succ_iff.1 (Nat.div_lt_of_lt_mul (by rwa [Nat.mul_comm]))

/-! ### The result of a STEP -/

theorem computeResult_v (d : BitVec 32) (s : State) :
    (computeResult d s).tmp.v = f2i s.cfg.sampleBits (fadd (dryProduct (sampleOperand s d) s.mixFrac)
      (fmul (fmul (sampleOperand s d) (fsin (oscillators s).carrierPhase)) s.mixFrac)) := by
  obtain ⟨k, hv, hk⟩ := computeResult_eq d s
  rw [hk, hv, oscillators_eq]

/-- A sample is a `W`-bit number, and `W` is at most 32 (00_scope R7). -/
theorem natAbs_sampleOf_le (c : Config) (d : BitVec 32) : (sampleOf c.sampleBits d).natAbs ≤ 2 ^ 31 := by
  have hwidth : c.sampleBits - 1 ≤ 31 := by
    have := c.widthCode.isLt
    unfold Config.sampleBits
    omega
  have hpow : (2 : Int) ^ (c.sampleBits - 1) ≤ 2 ^ 31 := pow_le_pow_right₀ one_le_two hwidth
  have hlow := BitVec.le_toInt (d.setWidth c.sampleBits)
  have hhigh := BitVec.toInt_lt (x := d.setWidth c.sampleBits)
  unfold sampleOf
  omega

/-- Under the invariant the carrier is the sine of a phase, and the fraction that of a legal `MIX`. -/
theorem natAbs_computeResult_v_le {s : State} (h : PhaseBounds s) (hr : s.runState = .running) (d : BitVec 32) :
    (computeResult d s).tmp.v.natAbs ≤ (sampleOf s.cfg.sampleBits d).natAbs := by
  obtain ⟨-, hphase⟩ := inPhase_oscillators h hr
  obtain ⟨-, -, hrun⟩ := h
  obtain ⟨hlegal, hmix, -, -⟩ := hrun hr
  have hS := natAbs_sampleOf_le s.cfg d
  have hsmall : (sampleOf s.cfg.sampleBits d).natAbs ≤ 2 ^ 53 := hS.trans (by norm_num)
  have hmixed := units_mixed_lt (i2f_exact hsmall).1 (units_i2f hsmall) hS (inUnit_mixFraction hlegal)
    (magBits_fsin_le hphase)
  rw [computeResult_v, hmix]
  exact natAbs_f2i_le _ hS hmixed

end Sys2Proof.Machine

namespace Sys2Proof.Proofs

open Sys2Proof Sys2Proof.Machine

/-- Settles O39: the value STEP.TAKE appends is `computeResult`'s, bounded by `natAbs_computeResult_v_le`. -/
theorem resultIsNoLargerThanTheSample : Obligations.ResultIsNoLargerThanTheSample := by
  intro s t d hbounds hr hready ht
  rw [exec_stepTake_of_enabled ((takeEnabled_iff s).2 ⟨hr, hready⟩)] at ht
  cases ht
  refine ⟨(computeResult d s).tmp.v, by simp, ?_⟩
  rw [Int.abs_eq_natAbs, Int.abs_eq_natAbs]
  exact_mod_cast natAbs_computeResult_v_le hbounds hr d

end Sys2Proof.Proofs
end

