-- ==== Sys2Proof/Proofs/StepClosedForm.lean ====
section
/-! PROOFS. The two STEPs in closed form, over the state the oscillators leave (45_step R97), and what a step does when no
STEP is enabled or no operation is asked (R98). -/

namespace Sys2Proof.Machine

variable {s : State}

/-! ### The STEPs over the oscillators -/

/-- STEP.TAKE is the oscillators, and then the transfer of the result (R97). -/
theorem takeStep_eq_oscillators (d : BitVec 32) (s : State) :
    endStep (outPutOp (computeResult d s)) =
      { oscillators s with
        index := s.index + 1, runState := stateAfterPut s.index s.sampleLength s.runState,
        out := s.out ++ [(computeResult d s).tmp.v], received := s.received ++ [(computeResult d s).tmp.v],
        inPort := .nothing, tmp := Temps.idle } := by
  obtain ⟨k, -, hk⟩ := computeResult_eq d s
  rw [hk, oscillators_eq]
  rfl

/-- STEP.END is the oscillators, and then the end of the run (R95, R97). -/
theorem endOfInputStep_eq_oscillators (s : State) :
    endStep (stopExhOp (inTakeOp (oscillators (beginStep .endOfInput s)))) =
      { oscillators s with truncated := true, runState := .done, inPort := .nothing, tmp := Temps.idle } := by
  have hport : (oscillators (beginStep .endOfInput s)).inPort = .endOfInput := by rw [oscillators_inPort]; rfl
  rw [inTakeOp_endOfInput hport, oscillators_eq, oscillators_eq]
  rfl

/-- The LFO value by the waveform bit, the sine's case first as R97 writes it. -/
theorem lfoValue_eq_ite (w : Bool) (p : F64) :
    lfoValue w p = if w = false then fsin p else (if ge0 (fsin p) = true then f64One else f64Zero) := by
  cases w <;> rfl

/-! ### Waiting -/

theorem takeEnabled_eq_false_iff (s : State) :
    takeEnabled s = false ↔ ¬ (s.runState = .running ∧ s.outReady = true) := by
  rw [← takeEnabled_iff, Bool.not_eq_true]

theorem exec_stepEnd_of_not_running (h : s.runState ≠ .running) : exec .stepEnd s = .next s := by
  show execStepEnd s = _
  rw [execStepEnd, if_neg (mt (endEnabled_iff s).1 h)]

/-- With a word that selects no operation, only the rejecting case of `step_cases` is left. -/
theorem step_of_decode_error {r : Request} {rest : List Request} {e : DecodeError}
    (hp : s.pending = r :: rest) (hd : decode r = .error e) : step s = rejectRequest e (takeRequest r rest s) := by
  obtain ⟨hnil, -⟩ | ⟨r', rest', i, hp', hd', -⟩ | ⟨r', rest', e', hp', hd', hstep⟩ := step_cases s
  · simp [hp] at hnil
  · obtain ⟨rfl, rfl⟩ : r = r' ∧ rest = rest' := by simpa [hp] using hp'
    simp [hd] at hd'
  · obtain ⟨rfl, rfl⟩ : r = r' ∧ rest = rest' := by simpa [hp] using hp'
    obtain rfl : e = e' := by simpa [hd] using hd'
    exact hstep

theorem step_of_no_request (h : s.pending = []) : step s = engineStep s := by
  rw [step, h]

/-- A host operation that is no STEP leaves the levels of the host's port signals (70_reset_and_hazards R135). -/
theorem HostEffect.keeps_port {i : Instr} {t : State} (h : HostEffect s i t) (htake : ∀ d, i ≠ .stepTake d)
    (hend : i ≠ .stepEnd) : t.inPort = s.inPort ∧ t.outReady = s.outReady := by
  cases h with
  | unchanged | reset | read => exact ⟨rfl, rfl⟩
  | start =>
    obtain ⟨-, heq⟩ | ⟨-, -, heq⟩ | ⟨-, -, heq⟩ := startRun_cases s <;> rw [heq] <;> exact ⟨rfl, rfl⟩
  | write r d => exact ⟨writeParam_inPort s r d, writeParam_outReady s r d⟩
  | take d => exact absurd rfl (htake d)
  | endOfInput => exact absurd rfl hend

end Sys2Proof.Machine

namespace Sys2Proof.Proofs

open Sys2Proof Sys2Proof.Machine

/-- Settles O5: the engine with nothing on its port waits, and each word that selects no operation is answered by the name
of its rejection. -/
theorem stepWithoutAnOperation : Obligations.StepWithoutAnOperation := by
  intro s rest
  refine ⟨fun hp hport => ?_, fun hp => ?_, fun d ready hp => ?_, fun d ready hp => ?_, fun slot w hslot hp => ?_⟩
  · rw [step_of_no_request hp, engineStep_waits (inReady_of_nothing hport)]
  · exact step_of_decode_error hp rfl
  · exact step_of_decode_error hp rfl
  · exact step_of_decode_error hp rfl
  · have hd : decode (uopWord slot w) = .error .reservedSlot :=
      (decode_eq_error_iff _).2 (.inr (.inr (.inr ⟨⟨slot, w, rfl, hslot⟩, rfl⟩)))
    rw [step_of_decode_error hp hd]
    rfl

/-- Settles O16: the closed forms of the two STEPs, with the oscillators and the result written out. -/
theorem stepFollowsItsRule : Obligations.StepFollowsItsRule := by
  intro s d hr
  dsimp only
  refine ⟨fun hready => ⟨Temps.idle, ?_⟩, .nothing, Temps.idle, ?_⟩
  · rw [exec_stepTake_of_enabled ((takeEnabled_iff s).2 ⟨hr, hready⟩), takeStep_eq_oscillators, computeResult_v,
      oscillators_eq, lfoValue_eq_ite, hr]
    rfl
  · rw [exec_stepEnd_of_running hr, endOfInputStep_eq_oscillators, oscillators_eq, lfoValue_eq_ite]
    rfl

/-- Settles O17: neither STEP is enabled. -/
theorem stepWaitsUnlessEnabled : Obligations.StepWaitsUnlessEnabled := fun s d =>
  ⟨fun h => exec_stepTake_of_not_enabled ((takeEnabled_eq_false_iff s).2 h) d, exec_stepEnd_of_not_running⟩

/-- Settles O19: a STREAM word sets the levels before its STEP waits; of the host's other operations none touches them; and
the engine by itself takes what stands. -/
theorem offerStandsUntilTaken : Obligations.OfferStandsUntilTaken := by
  refine ⟨fun s rest d ready => ⟨fun hp hwait => ?_, fun hp hwait => ?_⟩, fun i s t hi htake hend ht => ?_,
    fun s d hp => ⟨fun hport => ?_, fun hport => ?_⟩⟩
  · rw [step_of_decode_ok hp rfl]
    exact exec_stepTake_of_not_enabled ((takeEnabled_eq_false_iff _).2 hwait) d
  · rw [step_of_decode_ok hp rfl]
    exact exec_stepEnd_of_not_running hwait
  · exact (exec_hostEffect hi ht).keeps_port htake hend
  · rw [step_of_no_request hp, engineStep, hport]; rfl
  · rw [step_of_no_request hp, engineStep, hport]; rfl

end Sys2Proof.Proofs
end

