-- ==== Sys2Proof/Proofs/RunStateTable.lean ====
section
/-! PROOFS. The transition table of `STATUS.STATE` (45_step R99), operation by operation. -/

namespace Sys2Proof.Machine

theorem isStart_wrreg_control_iff (d : BitVec 64) : isStart (.wrreg .control d) = true ↔ d.extractLsb' 0 2 = 1#2 :=
  beq_iff_eq

theorem isStart_wrreg_of_ne_control {num : Reg} (h : num ≠ .control) (d : BitVec 64) :
    isStart (.wrreg num d) = false := by
  cases num with
  | control => exact absurd rfl h
  | _ => rfl

theorem hostWrite_runState (num : Reg) (d : BitVec 64) (s : State) : (hostWrite num d s).runState = s.runState := by
  obtain ⟨-, heq⟩ | ⟨-, heq⟩ := hostWrite_cases num d s
  · rw [heq]
  · rw [heq, writeParam_runState]

/-- START by the check and the length (41_run_control R75). -/
theorem startRun_runState (s : State) : (startRun s).runState = afterStart s := by
  unfold afterStart
  obtain ⟨hr, heq⟩ | ⟨hr, hm, heq⟩ | ⟨hr, hm, heq⟩ := startRun_cases s
  · rw [heq, if_pos hr, hr]
  · rw [heq, if_neg hr, if_pos hm]
  · rw [heq, if_neg hr, if_neg (not_not.2 hm)]

/-! ### The table by its rows

`runStateAfter` is unfolded as a whole: Lean's own equations for its match take too long to make. -/

theorem runStateAfter_of_isStart {i : Instr} (h : isStart i = true) (s : State) : runStateAfter i s = afterStart s := by
  have hne : i ≠ .reset := by rintro rfl; cases h
  unfold runStateAfter
  rw [if_neg hne, if_pos h]

theorem runStateAfter_wrreg {num : Reg} {d : BitVec 64} (h : isStart (.wrreg num d) = false) (s : State) :
    runStateAfter (.wrreg num d) s = s.runState := by
  unfold runStateAfter
  simp [h]

theorem runStateAfter_stepTake (d : BitVec 32) (s : State) :
    runStateAfter (.stepTake d) s = if s.runState = .running ∧ s.outReady = true then
      stateAfterPut s.index s.sampleLength .running else s.runState := by
  unfold runStateAfter stateAfterPut
  simp [isStart]

theorem runStateAfter_stepEnd (s : State) :
    runStateAfter .stepEnd s = if s.runState = .running then .done else s.runState := by
  unfold runStateAfter
  simp [isStart]

/-! ### The operations the table names -/

/-- A write is START, by its number and its code, or leaves the run state (R72). -/
theorem exec_wrreg_runState (num : Reg) (d : BitVec 64) (s : State) :
    ∃ t, exec (.wrreg num d) s = .next t ∧ t.runState = runStateAfter (.wrreg num d) s := by
  by_cases hnum : num = .control
  · subst hnum
    rw [exec_wrreg_control]
    split
    next hc =>
      refine ⟨startRun s, rfl, ?_⟩
      rw [runStateAfter_of_isStart ((isStart_wrreg_control_iff d).2 hc), startRun_runState]
    next hc =>
      have hstart := Bool.eq_false_iff.2 (mt (isStart_wrreg_control_iff d).1 hc)
      exact ⟨s, rfl, (runStateAfter_wrreg hstart s).symm⟩
  · refine ⟨_, exec_wrreg_of_ne_control hnum d s, ?_⟩
    rw [hostWrite_runState, runStateAfter_wrreg (isStart_wrreg_of_ne_control hnum d)]

theorem exec_stepTake_runState (d : BitVec 32) (s : State) :
    ∃ t, exec (.stepTake d) s = .next t ∧ t.runState = runStateAfter (.stepTake d) s := by
  rw [runStateAfter_stepTake]
  split
  next h =>
    refine ⟨_, exec_stepTake_of_enabled ((takeEnabled_iff s).2 h) d, ?_⟩
    rw [takeStep_eq_oscillators, h.1]
  next h => exact ⟨s, exec_stepTake_of_not_enabled ((takeEnabled_eq_false_iff s).2 h) d, rfl⟩

theorem exec_stepEnd_runState (s : State) :
    ∃ t, exec .stepEnd s = .next t ∧ t.runState = runStateAfter .stepEnd s := by
  rw [runStateAfter_stepEnd]
  split
  next h => exact ⟨_, exec_stepEnd_of_running h, rfl⟩
  next h => exact ⟨s, exec_stepEnd_of_not_running h, rfl⟩

end Sys2Proof.Machine

namespace Sys2Proof.Proofs

open Sys2Proof Sys2Proof.Machine

/-- Settles O52, by the row of the table each operation is in. -/
theorem runStateFollowsTheTable : Obligations.RunStateFollowsTheTable := by
  intro i s hi
  cases i with
  | reset => exact ⟨_, rfl, rfl⟩
  | rdreg | nop | cmdRsvd2 | cmdRsvd3 => exact ⟨_, rfl, rfl⟩
  | start => exact ⟨_, rfl, startRun_runState s⟩
  | wrreg num d => exact exec_wrreg_runState num d s
  | stepTake d => exact exec_stepTake_runState d s
  | stepEnd => exact exec_stepEnd_runState s
  | _ => cases hi

end Sys2Proof.Proofs
end

