-- ==== Sys2Proof/Proofs/PhaseInvariant.lean ====
section
/-! PROOFS. Phase boundedness (45_step R104): the oscillators keep the invariant of a run, and every step of a host-driven
machine keeps both phases in `[+0, TWO_PI)`. -/

namespace Sys2Proof.Machine

variable {s : State}

/-- The invariant of R104 as it stands in a run, said without the run state. -/
def RunPhases (s : State) : Prop :=
  inPhase s.lfoPhase = true ∧ inPhase s.carrierPhase = true ∧ legalParams s ∧
  s.mixFrac = mixFraction s ∧ s.amountFrac = amountFraction s ∧ s.lfoInc = lfoIncrement s

theorem phaseBounds_of_running (hr : s.runState = .running) : PhaseBounds s ↔ RunPhases s := by
  simp only [PhaseBounds, RunPhases, hr, true_imp_iff]

theorem phaseBounds_of_not_running (hr : s.runState ≠ .running) :
    PhaseBounds s ↔ inPhase s.lfoPhase = true ∧ inPhase s.carrierPhase = true := by
  simp only [PhaseBounds, hr, false_imp_iff, and_true]

theorem inPhase_zero : inPhase f64Zero = true := by decide

/-- An accepted START puts both phases at `+0` and computes the constants of the run (41_run_control R77). -/
theorem runPhases_startRun (hr : s.runState ≠ .running) (hm : checkMask s = 0) : RunPhases (startRun s) := by
  rw [startRun_of_accepted hr hm]
  exact ⟨inPhase_zero, inPhase_zero, hm, rfl, rfl, rfl⟩

/-- The oscillators of a STEP keep the invariant: they write two phases, which `inPhase_oscillators` bounds. -/
theorem runPhases_oscillators (h : RunPhases s) : RunPhases (oscillators s) := by
  have hbounds : PhaseBounds { s with runState := .running } := (phaseBounds_of_running rfl).2 h
  have hphase := inPhase_oscillators hbounds rfl
  obtain ⟨-, -, hlegal, hmix, hamount, hinc⟩ := h
  rw [oscillators_eq] at hphase ⊢
  exact ⟨hphase.1, hphase.2, hlegal, hmix, hamount, hinc⟩

theorem runPhases_iterate (h : RunPhases s) (k : Nat) : RunPhases (oscillators^[k] s) :=
  Function.Iterate.rec RunPhases h (fun _ => runPhases_oscillators) k

/-! ### Every step of a host-driven machine -/

/-- What the taking of a request and every operation of the host keep, every step of a host-driven machine keeps. -/
theorem step_keeps {P : State → Prop} (htake : ∀ s r rest, P s → P (takeRequest r rest s))
    (hexec : ∀ s t i, P s → isHostOp i = true → exec i s = .next t → P t) {t : State} (hhost : hostDriven s = true)
    (h : P s) (hstep : step s = .next t) : P t := by
  obtain ⟨-, heq⟩ | ⟨r, rest, i, hp, hd, heq⟩ | ⟨r, rest, e, -, -, heq⟩ := step_cases s
  · obtain ⟨-, hengine⟩ | ⟨d, -, hengine⟩ | ⟨-, hengine⟩ := engineStep_cases s
    · cases (heq.trans hengine).symm.trans hstep; exact h
    · exact hexec s t (.stepTake d) h rfl ((heq.trans hengine).symm.trans hstep)
    · exact hexec s t .stepEnd h rfl ((heq.trans hengine).symm.trans hstep)
  · have hr : isHostRequest r = true := by
      rw [hostDriven, hp, List.all_cons, Bool.and_eq_true] at hhost
      exact hhost.1
    exact hexec _ t i (htake s r rest h) (isHostOp_of_decode hr hd) (heq.symm.trans hstep)
  · rw [eq_of_rejectRequest (heq.symm.trans hstep)]
    exact htake s r rest h

/-- The invariant does not speak of the requests and the port. -/
theorem phaseBounds_takeRequest (r : Request) (rest : List Request) :
    PhaseBounds (takeRequest r rest s) ↔ PhaseBounds s := by
  cases r <;> exact Iff.rfl

theorem phaseBounds_startRun (h : PhaseBounds s) : PhaseBounds (startRun s) := by
  obtain ⟨-, heq⟩ | ⟨hr, -, heq⟩ | ⟨hr, hm, -⟩ := startRun_cases s
  · rwa [heq]
  · rw [heq]
    exact (phaseBounds_of_not_running (by simp)).2 ((phaseBounds_of_not_running hr).1 h)
  · obtain ⟨hlfo, hcar, hrun⟩ := runPhases_startRun hr hm
    exact ⟨hlfo, hcar, fun _ => hrun⟩

theorem phaseBounds_writeParam (h : PhaseBounds s) (hr : s.runState ≠ .running) (r : Reg) (d : BitVec 64) :
    PhaseBounds (writeParam r d s) := by
  refine (phaseBounds_of_not_running (by rwa [writeParam_runState])).2 ?_
  rw [writeParam_lfoPhase, writeParam_carrierPhase]
  exact (phaseBounds_of_not_running hr).1 h

theorem phaseBounds_takeStep (h : PhaseBounds s) (hr : s.runState = .running) (d : BitVec 32) :
    PhaseBounds (endStep (outPutOp (computeResult d s))) := by
  obtain ⟨hlfo, hcar, hrun⟩ := runPhases_oscillators ((phaseBounds_of_running hr).1 h)
  rw [takeStep_eq_oscillators]
  exact ⟨hlfo, hcar, fun _ => hrun⟩

theorem phaseBounds_endOfInputStep (h : PhaseBounds s) (hr : s.runState = .running) :
    PhaseBounds (endStep (stopExhOp (inTakeOp (oscillators (beginStep .endOfInput s))))) := by
  obtain ⟨hlfo, hcar, -⟩ := runPhases_oscillators ((phaseBounds_of_running hr).1 h)
  rw [endOfInputStep_eq_oscillators]
  exact (phaseBounds_of_not_running (by simp)).2 ⟨hlfo, hcar⟩

/-- Every operation of the host keeps the phases bounded. -/
theorem phaseBounds_exec {i : Instr} {t : State} (h : PhaseBounds s) (hi : isHostOp i = true)
    (ht : exec i s = .next t) : PhaseBounds t := by
  cases exec_hostEffect hi ht with
  | unchanged => exact h
  | reset => exact (phaseBounds_of_not_running (by simp)).2 ⟨inPhase_zero, inPhase_zero⟩
  | start => exact phaseBounds_startRun h
  | write r d hr => exact phaseBounds_writeParam h hr r d
  | read => exact h
  | take d hr => exact phaseBounds_takeStep h hr d
  | endOfInput hr => exact phaseBounds_endOfInputStep h hr

end Sys2Proof.Machine

namespace Sys2Proof.Proofs

open Sys2Proof Sys2Proof.Machine

/-- Settles O47: neither the taking of a request nor an operation of the host loses the bound. -/
theorem everyStepKeepsThePhasesBounded : Obligations.EveryStepKeepsThePhasesBounded := fun _ _ hhost hbounds hstep =>
  step_keeps (fun _ r rest => (phaseBounds_takeRequest r rest).2) (fun _ _ _ => phaseBounds_exec) hhost hbounds hstep

end Sys2Proof.Proofs
end

