-- ==== Sys2Proof/Proofs/RunOfSamples.lean ====
section
/-! PROOFS. A run on the schedule of `process` (30_encoding R57; 45_step R100): what a STEP computes depends on the phases,
the parameters and the constants of the run alone, so the state after `k` samples is that of `k` rounds of the oscillators,
and output `i` is the result of sample `i` after `i` rounds. -/

namespace Sys2Proof.Machine

variable {s t u : State} {input : List (BitVec 32)}

/-! ### What a STEP computes from -/

theorem SameParams.sampleLength (h : SameParams s t) : t.sampleLength = s.sampleLength := by
  obtain ⟨-, hlen, -⟩ := h
  exact hlen

theorem SameParams.mix (h : SameParams s t) : t.mix = s.mix := by
  obtain ⟨-, -, hmix, -⟩ := h
  exact hmix

theorem SameParams.amount (h : SameParams s t) : t.amount = s.amount := by
  obtain ⟨-, -, -, -, hamount, -⟩ := h
  exact hamount

/-- The two states agree in all that a STEP computes from: `W`, the parameters, the constants of the run and the phases. -/
def SameEngine (s t : State) : Prop :=
  t.cfg = s.cfg ∧ SameParams s t ∧ SameRunConstants s t ∧ t.lfoPhase = s.lfoPhase ∧ t.carrierPhase = s.carrierPhase

theorem SameEngine.refl (s : State) : SameEngine s s := ⟨rfl, .refl s, .refl s, rfl, rfl⟩

theorem sameEngine_oscillators (h : SameEngine s t) : SameEngine (oscillators s) (oscillators t) := by
  obtain ⟨hcfg, ⟨hsr, hlen, hmix, hwave, hamount, hrate, hfreq⟩, ⟨hmf, haf, hinc⟩, hlfo, hcar⟩ := h
  rw [oscillators_eq, oscillators_eq]
  simp only [SameEngine, SameParams, SameRunConstants, waveBit, rateOperand, *, and_self]

theorem sameEngine_iterate (h : SameEngine s t) (k : Nat) : SameEngine (oscillators^[k] s) (oscillators^[k] t) := by
  induction k with
  | zero => exact h
  | succ k ih => simpa only [Function.iterate_succ_apply'] using sameEngine_oscillators ih

/-- States that agree so give the same result for the same sample. -/
theorem computeResult_v_congr (h : SameEngine s t) (d : BitVec 32) :
    (computeResult d t).tmp.v = (computeResult d s).tmp.v := by
  obtain ⟨-, -, -, -, hcar⟩ := sameEngine_oscillators h
  obtain ⟨hcfg, -, ⟨hmf, -, -⟩, -, -⟩ := h
  rw [computeResult_v, computeResult_v, hcar, sampleOperand, sampleOperand, hcfg, hmf]

/-- Rounds of the oscillators write the phases and temporaries, and nothing else. -/
theorem oscillators_iterate_eq (k : Nat) (s : State) :
    ∃ p c m, oscillators^[k] s = { s with lfoPhase := p, carrierPhase := c, tmp := m } := by
  induction k with
  | zero => exact ⟨s.lfoPhase, s.carrierPhase, s.tmp, rfl⟩
  | succ k ih =>
    obtain ⟨p, c, m, hk⟩ := ih
    rw [Function.iterate_succ_apply', hk, oscillators_eq]
    exact ⟨_, _, _, rfl⟩

theorem oscillators_iterate_keeps (k : Nat) (s : State) :
    (oscillators^[k] s).cfg = s.cfg ∧ SameParams s (oscillators^[k] s) ∧ SameRunConstants s (oscillators^[k] s) := by
  obtain ⟨p, c, m, hk⟩ := oscillators_iterate_eq k s
  rw [hk]
  exact ⟨rfl, .refl s, .refl s⟩

/-! ### The output of a run -/

/-- The output of the run begun in `s` for these samples: each one's result, up to `SAMPLE_LENGTH`. -/
def runOutput (s : State) (input : List (BitVec 32)) : List Sample :=
  (input.take s.sampleLength.toNat).mapIdx fun i d => (computeResult d (oscillators^[i] s)).tmp.v

theorem length_runOutput (s : State) (input : List (BitVec 32)) :
    (runOutput s input).length = min s.sampleLength.toNat input.length := by
  rw [runOutput, List.length_mapIdx, List.length_take]

theorem runOutput_concat_of_lt (h : input.length < s.sampleLength.toNat) (d : BitVec 32) :
    runOutput s (input ++ [d]) = runOutput s input ++ [(computeResult d (oscillators^[input.length] s)).tmp.v] := by
  rw [runOutput, List.take_of_length_le (by simpa using h), List.mapIdx_concat, runOutput, List.take_of_length_le h.le]

theorem runOutput_concat_of_le (h : s.sampleLength.toNat ≤ input.length) (d : BitVec 32) :
    runOutput s (input ++ [d]) = runOutput s input := by
  rw [runOutput, List.take_append_of_le_length h, runOutput]

theorem runOutput_congr (h : SameEngine s t) (input : List (BitVec 32)) :
    runOutput t input = runOutput s input := by
  have hresult (i : Nat) (d : BitVec 32) : (computeResult d (oscillators^[i] t)).tmp.v =
      (computeResult d (oscillators^[i] s)).tmp.v := computeResult_v_congr (sameEngine_iterate h i) d
  obtain ⟨-, hparams, -⟩ := h
  simp only [runOutput, hparams.sampleLength, hresult]

/-! ### Feeding the samples -/

/-- The engine takes no STEP outside RUNNING (R98). -/
theorem feedSamples_of_not_running (h : s.runState ≠ .running) (input : List (BitVec 32)) :
    feedSamples input s = .next s := by
  have hwait := (takeEnabled_eq_false_iff s).2 fun hen => h hen.1
  induction input with
  | nil => rfl
  | cons d ds ih => rw [feedSamples, exec_stepTake_of_not_enabled hwait]; exact ih

theorem feedSamples_concat (h : feedSamples input s = .next t) (d : BitVec 32) :
    feedSamples (input ++ [d]) s = exec (.stepTake d) t := by
  induction input generalizing s with
  | nil =>
    cases h
    obtain ⟨u, hu⟩ := exec_answers_next (.stepTake d) t
    rw [List.nil_append, feedSamples, hu]
    rfl
  | cons e es ih =>
    obtain ⟨u, hu⟩ := exec_answers_next (.stepTake e) s
    rw [feedSamples, hu] at h
    rw [List.cons_append, feedSamples, hu]
    exact ih h

/-- A run begins: START was accepted, the host can accept results, and nothing has been put out. -/
structure RunBegun (s : State) : Prop where
  runState : s.runState = if s.sampleLength = 0 then .done else .running
  ready : s.outReady = true
  index : s.index = 0
  out : s.out = []
  truncated : s.truncated = false

/-- The run begun in `s` stands in `t` when the samples have been offered: as many are taken as `SAMPLE_LENGTH` admits. -/
structure SamplesFed (s : State) (input : List (BitVec 32)) (t : State) : Prop where
  engine : SameEngine (oscillators^[min s.sampleLength.toNat input.length] s) t
  index : t.index.toNat = min s.sampleLength.toNat input.length
  runState : t.runState = if input.length < s.sampleLength.toNat then .running else .done
  out : t.out = runOutput s input
  truncated : t.truncated = false
  errCause : t.errCause = s.errCause
  ready : t.outReady = true

theorem RunBegun.samplesFed_nil (h : RunBegun s) : SamplesFed s [] s where
  engine := by simpa using SameEngine.refl s
  index := by simp [h.index]
  runState := by
    have hpos : 0 < s.sampleLength.toNat ↔ s.sampleLength ≠ 0 := by
      rw [Nat.pos_iff_ne_zero, ne_eq, ne_eq, BitVec.toNat_eq]; rfl
    rw [h.runState, List.length_nil, if_congr hpos rfl rfl, ite_not]
  out := by rw [h.out, runOutput, List.take_nil, List.mapIdx_nil]
  truncated := h.truncated
  errCause := rfl
  ready := h.ready

theorem SamplesFed.sampleLength (h : SamplesFed s input t) : t.sampleLength = s.sampleLength := by
  obtain ⟨-, hparams, -⟩ := oscillators_iterate_keeps (min s.sampleLength.toNat input.length) s
  obtain ⟨-, hparams', -⟩ := h.engine
  rw [hparams'.sampleLength, hparams.sampleLength]

/-- A sample offered in RUNNING is the run's next. -/
theorem SamplesFed.takeStep (h : SamplesFed s input t) (hlt : input.length < s.sampleLength.toNat) (d : BitVec 32) :
    SamplesFed s (input ++ [d]) (endStep (outPutOp (computeResult d t))) := by
  have hlength := h.sampleLength
  obtain ⟨hengine, hindex, hstate, hout, htrunc, hcause, hready⟩ := h
  have hlast : t.index + 1 = t.sampleLength ↔ ¬ input.length + 1 < s.sampleLength.toNat := by
    rw [hlength]
    bv_omega
  rw [Nat.min_eq_right hlt.le] at hengine hindex
  have hk : min s.sampleLength.toNat (input ++ [d]).length = input.length + 1 := by
    rw [List.length_append, List.length_singleton, Nat.min_eq_right hlt]
  have hengine' := sameEngine_oscillators hengine
  rw [← Function.iterate_succ_apply' oscillators] at hengine'
  rw [takeStep_eq_oscillators]
  exact {
    engine := by rw [hk]; exact hengine'
    index := by
      rw [hk]
      show (t.index + 1).toNat = _
      bv_omega
    runState := by
      rw [List.length_append, List.length_singleton]
      show stateAfterPut t.index t.sampleLength t.runState = _
      rw [stateAfterPut, if_congr hlast rfl rfl, ite_not, hstate, if_pos hlt]
    out := by
      show t.out ++ [(computeResult d t).tmp.v] = _
      rw [runOutput_concat_of_lt hlt, hout, computeResult_v_congr hengine]
    truncated := by rw [oscillators_eq]; exact htrunc
    errCause := by rw [oscillators_eq]; exact hcause
    ready := by rw [oscillators_eq]; exact hready }

/-- A sample offered after the run has reached its length waits. -/
theorem SamplesFed.wait (h : SamplesFed s input t) (hle : s.sampleLength.toNat ≤ input.length) (d : BitVec 32) :
    SamplesFed s (input ++ [d]) t := by
  obtain ⟨hengine, hindex, hstate, hout, htrunc, hcause, hready⟩ := h
  have hle' : s.sampleLength.toNat ≤ (input ++ [d]).length := by
    rw [List.length_append]
    exact Nat.le_add_right_of_le hle
  rw [Nat.min_eq_left hle] at hengine hindex
  rw [if_neg (Nat.not_lt.2 hle)] at hstate
  exact {
    engine := by rwa [Nat.min_eq_left hle']
    index := by rwa [Nat.min_eq_left hle']
    runState := by rwa [if_neg (Nat.not_lt.2 hle')]
    out := by rwa [runOutput_concat_of_le hle]
    truncated := htrunc
    errCause := hcause
    ready := hready }

theorem SamplesFed.carrierPhase (h : SamplesFed s input t) :
    t.carrierPhase = (oscillators^[min s.sampleLength.toNat input.length] s).carrierPhase := by
  obtain ⟨-, -, -, -, hcar⟩ := h.engine
  exact hcar

/-- One sample more: taken while the run has not reached its length, waited with after. -/
theorem SamplesFed.concat (h : SamplesFed s input t) (d : BitVec 32) :
    ∃ u, exec (.stepTake d) t = .next u ∧ SamplesFed s (input ++ [d]) u := by
  have hstate := h.runState
  by_cases hlt : input.length < s.sampleLength.toNat
  · rw [if_pos hlt] at hstate
    exact ⟨_, exec_stepTake_of_enabled ((takeEnabled_iff t).2 ⟨hstate, h.ready⟩) d, h.takeStep hlt d⟩
  · rw [if_neg hlt] at hstate
    have hle := Nat.le_of_not_lt hlt
    exact ⟨t, exec_stepTake_of_not_enabled ((takeEnabled_eq_false_iff t).2 (by simp [hstate])) d, h.wait hle d⟩

theorem RunBegun.samplesFed (h : RunBegun s) (input : List (BitVec 32)) :
    ∃ t, feedSamples input s = .next t ∧ SamplesFed s input t := by
  induction input using List.reverseRecOn with
  | nil => exact ⟨s, rfl, h.samplesFed_nil⟩
  | append_singleton ds d ih =>
    obtain ⟨t, ht, hfed⟩ := ih
    rw [feedSamples_concat ht]
    exact hfed.concat d

/-! ### The end of the input -/

/-- The run begun in `s` ended in `t`: the end takes a STEP of its own if the input was the shorter (R95). -/
structure RunEnded (s : State) (input : List (BitVec 32)) (t : State) : Prop where
  engine : SameEngine (oscillators^[min s.sampleLength.toNat (input.length + 1)] s) t
  index : t.index.toNat = min s.sampleLength.toNat input.length
  runState : t.runState = .done
  out : t.out = runOutput s input
  truncated : t.truncated = decide (input.length < s.sampleLength.toNat)
  errCause : t.errCause = s.errCause

theorem RunEnded.carrierPhase (h : RunEnded s input t) :
    t.carrierPhase = (oscillators^[min s.sampleLength.toNat (input.length + 1)] s).carrierPhase := by
  obtain ⟨-, -, -, -, hcar⟩ := h.engine
  exact hcar

/-- The end presented in RUNNING ends the run short of its length. -/
theorem SamplesFed.endOfInputStep (h : SamplesFed s input t) (hlt : input.length < s.sampleLength.toNat) :
    RunEnded s input (endStep (stopExhOp (inTakeOp (oscillators (beginStep .endOfInput t))))) := by
  obtain ⟨hengine, hindex, -, hout, -, hcause, -⟩ := h
  rw [Nat.min_eq_right hlt.le] at hengine
  have hengine' := sameEngine_oscillators hengine
  rw [← Function.iterate_succ_apply' oscillators] at hengine'
  rw [endOfInputStep_eq_oscillators]
  exact {
    engine := by rw [Nat.min_eq_right hlt]; exact hengine'
    index := by rw [oscillators_eq]; exact hindex
    runState := rfl
    out := by rw [oscillators_eq]; exact hout
    truncated := (decide_eq_true hlt).symm
    errCause := by rw [oscillators_eq]; exact hcause }

theorem SamplesFed.stepEnd (h : SamplesFed s input t) : ∃ u, exec .stepEnd t = .next u ∧ RunEnded s input u := by
  have hstate := h.runState
  by_cases hlt : input.length < s.sampleLength.toNat
  · rw [if_pos hlt] at hstate
    exact ⟨_, exec_stepEnd_of_running hstate, h.endOfInputStep hlt⟩
  · rw [if_neg hlt] at hstate
    have hle := Nat.le_of_not_lt hlt
    have hengine := h.engine
    exact ⟨t, exec_stepEnd_of_not_running (by simp [hstate]), {
      engine := by rwa [Nat.min_eq_left (by omega), ← Nat.min_eq_left hle]
      index := h.index
      runState := hstate
      out := h.out
      truncated := by rw [h.truncated, decide_eq_false hlt]
      errCause := h.errCause }⟩

/-! ### START, the samples and the end -/

theorem runBegun_startRun (hr : s.runState ≠ .running) (hm : checkMask s = 0) (hready : s.outReady = true) :
    RunBegun (startRun s) := by
  rw [startRun_of_accepted hr hm]
  exact ⟨rfl, hready, rfl, rfl, rfl⟩

theorem startRun_keeps (s : State) : (startRun s).cfg = s.cfg ∧ SameParams s (startRun s) := by
  obtain ⟨-, heq⟩ | ⟨-, -, heq⟩ | ⟨-, -, heq⟩ := startRun_cases s <;> rw [heq] <;> exact ⟨rfl, .refl s⟩

theorem startRun_sampleLength (s : State) : (startRun s).sampleLength = s.sampleLength := by
  obtain ⟨-, hparams⟩ := startRun_keeps s
  exact hparams.sampleLength

theorem startRun_errCause (hr : s.runState ≠ .running) : (startRun s).errCause = checkMask s := by
  obtain ⟨h, -⟩ | ⟨-, -, heq⟩ | ⟨-, hm, heq⟩ := startRun_cases s
  · exact absurd h hr
  · rw [heq]
  · rw [heq, hm]

theorem processInput_eq (h : feedSamples input (startRun s) = .next t) : processInput input s = exec .stepEnd t := by
  have hstart : exec .start s = .next (startRun s) := rfl
  rw [processInput, hstart]
  simp only [h]

/-- A run whose START is accepted ends, and what it leaves is told from the state START leaves. -/
theorem processInput_of_accepted (hr : s.runState ≠ .running) (hm : checkMask s = 0) (hready : s.outReady = true)
    (input : List (BitVec 32)) : ∃ t, processInput input s = .next t ∧ RunEnded (startRun s) input t := by
  obtain ⟨t, ht, hfed⟩ := (runBegun_startRun hr hm hready).samplesFed input
  rw [processInput_eq ht]
  exact hfed.stepEnd

/-- A run whose START is refused takes nothing. -/
theorem processInput_of_refused (hr : s.runState ≠ .running) (hm : checkMask s ≠ 0) (input : List (BitVec 32)) :
    processInput input s = .next (startRun s) := by
  have herror : (startRun s).runState ≠ .running := by rw [startRun_of_refused hr hm]; exact RunState.noConfusion
  rw [processInput_eq (feedSamples_of_not_running herror input), exec_stepEnd_of_not_running herror]

/-! ### What a run depends on -/

theorem checkMask_congr (h : SameParams s t) : checkMask t = checkMask s := by
  obtain ⟨hsr, -, hmix, hwave, hamount, hrate, hfreq⟩ := h
  simp only [checkMask, srZero, mixOutOfRange, amountOutOfRange, rateOutOfRange, freqOutOfRange, waveReserved, *]

/-- Two accepted STARTs with the same `W` and the same parameters begin the same run. -/
theorem sameEngine_startRun (hcfg : t.cfg = s.cfg) (h : SameParams s t) (hrs : s.runState ≠ .running)
    (hrt : t.runState ≠ .running) (hm : checkMask s = 0) : SameEngine (startRun s) (startRun t) := by
  rw [startRun_of_accepted hrs hm, startRun_of_accepted hrt ((checkMask_congr h).trans hm)]
  obtain ⟨hsr, hlen, hmix, hwave, hamount, hrate, hfreq⟩ := h
  simp only [SameEngine, SameParams, SameRunConstants, initRun, recordCheck, mixFraction, mixOperand, amountFraction,
    lfoIncrement, rateOperand, *, and_self]

theorem statusWord_congr (htrunc : t.truncated = s.truncated) (hstate : t.runState = s.runState) :
    statusWord t = statusWord s := by
  rw [statusWord, statusWord, htrunc, hstate]

/-- Two runs with the same length, output and cause end the same for the host. -/
theorem RunEnded.agree {v : State} (h : RunEnded s input t) (h' : RunEnded u input v)
    (hlen : u.sampleLength = s.sampleLength) (hout : runOutput u input = runOutput s input)
    (hcause : u.errCause = s.errCause) :
    t.out = v.out ∧ t.index = v.index ∧ statusWord t = statusWord v ∧ t.errCause = v.errCause := by
  refine ⟨?_, ?_, statusWord_congr ?_ ?_, ?_⟩
  · rw [h.out, h'.out, hout]
  · rw [BitVec.toNat_eq, h.index, h'.index, hlen]
  · rw [h.truncated, h'.truncated, hlen]
  · rw [h.runState, h'.runState]
  · rw [h.errCause, h'.errCause, hcause]

end Sys2Proof.Machine

namespace Sys2Proof.Proofs

open Sys2Proof Sys2Proof.Machine

/-- Settles O41: the length of `runOutput`, and the count that goes with it. -/
theorem runLengthIsTheSmaller : Obligations.RunLengthIsTheSmaller := by
  intro s input hr hm hready
  obtain ⟨t, ht, hend⟩ := processInput_of_accepted hr hm hready input
  refine ⟨t, ht, hend.runState, ?_, ?_, ?_⟩
  · rw [hend.out, length_runOutput, startRun_sampleLength]
  · rw [hend.index, startRun_sampleLength]
  · rw [hend.truncated, startRun_sampleLength, decide_eq_true_eq]

/-- Settles O45: with the same mask both STARTs are refused, and leave the same, or both are accepted, and begin the same
run. -/
theorem runIsDetermined : Obligations.RunIsDetermined := by
  intro s u input hrs hru hready hready' hcfg hsr hlen hmix hwave hamount hrate hfreq
  have hparams : SameParams s u :=
    ⟨hsr.symm, hlen.symm, hmix.symm, hwave.symm, hamount.symm, hrate.symm, hfreq.symm⟩
  have hmask := checkMask_congr hparams
  by_cases hm : checkMask s = 0
  · obtain ⟨s', hs', hends⟩ := processInput_of_accepted hrs hm hready input
    obtain ⟨u', hu', hendu⟩ := processInput_of_accepted hru (hmask.trans hm) hready' input
    have hengine := sameEngine_startRun hcfg.symm hparams hrs hru hm
    have hcause : (startRun u).errCause = (startRun s).errCause := by
      rw [startRun_errCause hru, startRun_errCause hrs, hmask]
    have hlength : (startRun u).sampleLength = (startRun s).sampleLength := by
      rw [startRun_sampleLength, startRun_sampleLength, hlen]
    exact ⟨s', u', hs', hu', hends.agree hendu hlength (runOutput_congr hengine input) hcause⟩
  · refine ⟨startRun s, startRun u, processInput_of_refused hrs hm input,
      processInput_of_refused hru (hmask ▸ hm) input, ?_⟩
    rw [startRun_of_refused hrs hm, startRun_of_refused hru (hmask ▸ hm)]
    exact ⟨rfl, rfl, rfl, hmask.symm⟩

end Sys2Proof.Proofs
end

