-- ==== Sys2Proof/Proofs/DryAndWet.lean ====
section
/-! PROOFS. The mixer at its two ends (44_ringmod_mixer R96): with `MIX = 0` the sample comes back, with `MIX = 100` the
product with the carrier, whatever the carrier is. -/

namespace Sys2Proof.Machine

variable {a b z : F64} {s : State}

/-! ### One and zeros on the right -/

theorem fmul_comm_of_finite (ha : isFinite a = true) (hb : isFinite b = true) : fmul a b = fmul b a := by
  rw [fmul_of_finite ha hb, fmul_of_finite hb ha, Nat.mul_comm, bne_comm]

theorem fmul_one_right (ha : isFinite a = true) : fmul a f64One = a := by
  rw [fmul_comm_of_finite ha (by decide), fmul_one_left ha]

theorem magBits_fmul_of_zero_right (ha : isFinite a = true) (hz : magBits z = 0) : magBits (fmul a z) = 0 := by
  rw [fmul_comm_of_finite ha (isFinite_of_magBits_zero hz), magBits_fmul_of_zero_left hz ha]

theorem fadd_comm_of_finite (ha : isFinite a = true) (hb : isFinite b = true) : fadd a b = fadd b a := by
  rw [fadd_of_finite ha hb, fadd_of_finite hb ha, add_comm, Bool.and_comm]

/-! ### A zero term does not change the truncated value -/

theorem f2i_congr {w : Nat} (ha : isFinite a = true) (hb : isFinite b = true) (h : scaled a = scaled b) :
    f2i w a = f2i w b := by
  rw [f2i_of_finite w ha, f2i_of_finite w hb, h]

/-- Truncated, a sum with a zero of either sign is the other term: only the sign of a zero can differ. -/
theorem f2i_fadd_of_zero_right (w : Nat) (ha : isFinite a = true) (hz : magBits z = 0) :
    f2i w (fadd a z) = f2i w a := by
  by_cases h0 : scaled a = 0
  · have hsum : fadd a z = packF64 (signBit a && signBit z) 0 := by
      rw [fadd_of_finite ha (isFinite_of_magBits_zero hz), if_pos (by rw [h0, scaled_eq_zero.2 hz, add_zero])]
    have hmag : magBits (fadd a z) = 0 := by rw [hsum, magBits_packF64 _ (by norm_num)]
    exact f2i_congr (isFinite_of_magBits_zero hmag) ha (by rw [scaled_eq_zero.2 hmag, h0])
  · rw [fadd_of_zero_right ha h0 hz]

/-! ### Operands that are not finite -/

theorem isNaN_nanResult (op : FloatOp) (a b : F64) : isNaN (nanResult op a b) = true := by
  unfold nanResult
  generalize Config.freeNan op a b = free
  have hsign := (free.extractLsb' 51 1).isLt
  have hpayload := (free.extractLsb' 0 51).isLt
  rw [isNaN, decide_eq_true_eq, magBits, infBits, BitVec.setWidth_eq, BitVec.toNat_append, BitVec.toNat_append,
    ← Nat.shiftLeft_add_eq_or_of_lt hpayload, ← Nat.shiftLeft_add_eq_or_of_lt (by decide), Nat.shiftLeft_eq,
    Nat.shiftLeft_eq]
  simp only [BitVec.toNat_ofNat]
  omega

theorem isNaN_fmul_left (h : isNaN a = true) : isNaN (fmul a b) = true := by
  simp [fmul, h, isNaN_nanResult]

theorem isNaN_fadd_right (h : isNaN b = true) : isNaN (fadd a b) = true := by
  simp [fadd, addCore, h, isNaN_nanResult]

theorem isNaN_of_isInf (h : isInf a = true) : isNaN a = false := by
  simp only [isInf, isNaN, decide_eq_true_eq, decide_eq_false_iff_not] at *
  omega

theorem isFinite_of_not (hn : isNaN a = false) (hi : isInf a = false) : isFinite a = true := by
  simp only [isInf, isNaN, isFinite, decide_eq_true_eq, decide_eq_false_iff_not] at *
  omega

theorem fmul_one_right_of_isInf (h : isInf a = true) : fmul a f64One = a := by
  have hone : isNaN f64One = false ∧ magBits f64One ≠ 0 ∧ signBit f64One = false := by decide
  obtain ⟨hnan, hmag, hsign⟩ := hone
  simp only [fmul, isNaN_of_isInf h, h, hnan, hmag, hsign, Bool.or_self, Bool.false_eq_true, if_true, if_false,
    Bool.bne_false]
  rw [← of_decide_eq_true h, packF64_self]

theorem fadd_of_isInf_right (ha : isFinite a = true) (h : isInf b = true) : fadd a b = b := by
  simp [fadd, addCore, isNaN_of_isFinite ha, isNaN_of_isInf h, isInf_of_isFinite ha, h]

/-- A number of any kind times one, added to a zero, is truncated to the number's own value. -/
theorem f2i_zero_add_mul_one (w : Nat) (hz : magBits z = 0) (a : F64) :
    f2i w (fadd z (fmul a f64One)) = f2i w a := by
  have hzero := isFinite_of_magBits_zero hz
  cases hn : isNaN a with
  | true => rw [f2i_of_isNaN w (isNaN_fadd_right (isNaN_fmul_left hn)), f2i_of_isNaN w hn]
  | false =>
    cases hi : isInf a with
    | true => rw [fmul_one_right_of_isInf hi, fadd_of_isInf_right hzero hi]
    | false =>
      have ha := isFinite_of_not hn hi
      rw [fmul_one_right ha, fadd_comm_of_finite hzero ha, f2i_fadd_of_zero_right w ha hz]

/-! ### The two ends of `MIX` -/

theorem isFinite_sampleOperand (s : State) (d : BitVec 32) : isFinite (sampleOperand s d) = true :=
  (i2f_exact ((natAbs_sampleOf_le s.cfg d).trans (by norm_num))).1

theorem mixFraction_of_hundred (h : s.mix = 100) : mixFraction s = f64One := by
  rw [mixFraction, mixOperand, h]
  decide +kernel

theorem mixFraction_of_zero (h : s.mix = 0) : mixFraction s = f64Zero := by
  rw [mixFraction, mixOperand, h]
  decide +kernel

/-- With `MIX = 100` the dry product is a zero and the wet one is the product with the carrier (R103). -/
theorem computeResult_v_of_mix_hundred (hmix : s.mix = 100) (hfrac : s.mixFrac = mixFraction s) (d : BitVec 32) :
    (computeResult d s).tmp.v =
      f2i s.cfg.sampleBits (fmul (sampleOperand s d) (fsin (oscillators s).carrierPhase)) := by
  have hsub : fsub f64One f64One = f64Zero := by decide +kernel
  have hdry : magBits (dryProduct (sampleOperand s d) f64One) = 0 := by
    rw [dryProduct, hsub]
    exact magBits_fmul_of_zero_right (isFinite_sampleOperand s d) (by decide)
  rw [computeResult_v, hfrac, mixFraction_of_hundred hmix, f2i_zero_add_mul_one _ hdry]

/-- `F2I` gives back every integer that `I2F` was given, of the width of a sample (40_numerics R66, R67). -/
theorem f2i_sampleOperand (s : State) (d : BitVec 32) :
    f2i s.cfg.sampleBits (sampleOperand s d) = sampleOf s.cfg.sampleBits d := by
  have hsmall : (sampleOf s.cfg.sampleBits d).natAbs ≤ 2 ^ 53 := (natAbs_sampleOf_le s.cfg d).trans (by norm_num)
  obtain ⟨hfin, hval⟩ := i2f_exact hsmall
  have hlow := BitVec.le_toInt (d.setWidth s.cfg.sampleBits)
  have hhigh := BitVec.toInt_lt (x := d.setWidth s.cfg.sampleBits)
  have hpow : (2 : Int) ^ 1074 ≠ 0 := pow_ne_zero _ two_ne_zero
  rw [sampleOperand, f2i_of_finite _ hfin, hval, Int.mul_tdiv_cancel _ hpow, saturate, maxSample, minSample,
    if_neg, if_neg]
  · exact not_lt.2 hlow
  · exact not_lt.2 (Int.le_sub_one_of_lt hhigh)

/-- With `MIX = 0` the dry product is the sample, and the wet one is a zero, the carrier being a sine of a phase (R102). -/
theorem computeResult_v_of_mix_zero (h : RunPhases s) (hmix : s.mix = 0) (d : BitVec 32) :
    (computeResult d s).tmp.v = sampleOf s.cfg.sampleBits d := by
  obtain ⟨-, hphase, -⟩ := runPhases_oscillators h
  obtain ⟨-, -, -, hfrac, -⟩ := h
  have hsf := isFinite_sampleOperand s d
  have hsub : fsub f64One f64Zero = f64One := by decide +kernel
  have hring := isFinite_fmul_of_le_one hsf (magBits_fsin_le hphase)
  have hwet : magBits (fmul (fmul (sampleOperand s d) (fsin (oscillators s).carrierPhase)) f64Zero) = 0 :=
    magBits_fmul_of_zero_right hring (by decide)
  rw [computeResult_v, hfrac, mixFraction_of_zero hmix, dryProduct, hsub, fmul_one_right hsf,
    f2i_fadd_of_zero_right _ hsf hwet, f2i_sampleOperand]

end Sys2Proof.Machine

namespace Sys2Proof.Proofs

open Sys2Proof Sys2Proof.Machine

/-- Settles O40: STEP.TAKE appends `computeResult`'s value, which with `MIX = 100` is the truncated product. -/
theorem fullWetIsSampleTimesCarrier : Obligations.FullWetIsSampleTimesCarrier := by
  intro s t d hmix hfrac hr hready ht
  rw [exec_stepTake_of_enabled ((takeEnabled_iff s).2 ⟨hr, hready⟩), takeStep_eq_oscillators,
    computeResult_v_of_mix_hundred hmix hfrac] at ht
  cases ht
  rfl

/-- Settles O42: each result of the run is its sample, the fraction of the run being that of `MIX = 0`. -/
theorem dryRunPassesTheInputThrough : Obligations.DryRunPassesTheInputThrough := by
  intro s input hr hm hready hmix
  obtain ⟨t, ht, hend⟩ := processInput_of_accepted hr hm hready input
  have hresult (i : Nat) (d : BitVec 32) :
      (computeResult d (oscillators^[i] (startRun s))).tmp.v = (d.setWidth s.cfg.sampleBits).toInt := by
    obtain ⟨hcfg', hparams', -⟩ := oscillators_iterate_keeps i (startRun s)
    obtain ⟨hcfg, hparams⟩ := startRun_keeps s
    have hzero : (oscillators^[i] (startRun s)).mix = 0 := by rw [hparams'.mix, hparams.mix, hmix]
    rw [computeResult_v_of_mix_zero (runPhases_iterate (runPhases_startRun hr hm) i) hzero, hcfg', hcfg, sampleOf]
  refine ⟨t, ht, ?_⟩
  rw [hend.out, runOutput, startRun_sampleLength]
  simp only [hresult]
  exact List.ext_getElem (by simp) (by simp)

end Sys2Proof.Proofs
end

