-- ==== Sys2Proof/Proofs/ConstantCarrier.lean ====
section
/-! PROOFS. Runs with `AMOUNT` a zero (45_step R103, R105): the excursion is a zero whatever the LFO gives, so the carrier
advances by the constant increment of `FREQUENCY`, and the waveform has no part in it. -/

namespace Sys2Proof.Machine

variable {s t : State}

/-- The increment of the carrier without excursion (R103). -/
def constantIncrement (s : State) : F64 := fdiv (fmul twoPi s.frequency) (rateOperand s)

/-- With `AMOUNT` a zero its fraction is a zero. -/
theorem magBits_amountFraction_of_zero (h : scaled s.amount = 0) : magBits (amountFraction s) = 0 := by
  have hmag := scaled_eq_zero.1 h
  refine Nat.le_zero.1 (magBits_fdiv_le (isFinite_of_magBits_zero hmag) (by decide) (by decide) ?_)
  rw [units, hmag, unitsOfBits_zero, Nat.zero_mul]
  exact Nat.zero_le _

/-- A zero fraction makes the excursion a zero, the LFO being at most 1 in magnitude (43_carrier R87). -/
theorem magBits_excursion_of_zero_amount {lfo a : F64} (h : legalParams s) (hlfo : AbsLePow 0 lfo)
    (ha : magBits a = 0) : magBits (excursion lfo s.frequency a) = 0 := by
  have hfreq : AbsLePow 12 (fmul lfo s.frequency) := hlfo.mul (absLePow_frequency h) (by decide)
  have hthree : AbsLePow 14 (fmul (fmul lfo s.frequency) f64Three) := hfreq.mul absLePow_f64Three (by decide)
  exact magBits_fmul_of_zero_right (hthree.finite (by decide)) ha

/-- One round of the oscillators advances the carrier by the constant increment. -/
theorem carrierPhase_oscillators_of_zero_amount (h : RunPhases s) (hzero : scaled s.amount = 0) :
    (oscillators s).carrierPhase = wrap (fadd s.carrierPhase (constantIncrement s)) := by
  obtain ⟨hphase, -⟩ := runPhases_oscillators h
  obtain ⟨-, -, hlegal, -, hamount, -⟩ := h
  obtain ⟨hfreq, -⟩ := frequency_of_legalParams hlegal
  rw [oscillators_eq] at hphase ⊢
  have hexc := magBits_excursion_of_zero_amount hlegal (absLePow_lfoValue (waveBit s) hphase)
    (hamount ▸ magBits_amountFraction_of_zero hzero)
  show wrap (fadd s.carrierPhase (carrierIncrement _ _ _)) = _
  rw [carrierIncrement, fadd_of_zero_right hfreq (scaled_frequency_ne_zero hlegal) hexc, constantIncrement]

theorem constantIncrement_congr (h : SameParams s t) : constantIncrement t = constantIncrement s := by
  obtain ⟨hsr, -, -, -, -, -, hfreq⟩ := h
  rw [constantIncrement, constantIncrement, rateOperand, rateOperand, hsr, hfreq]

/-- A run with `AMOUNT` a zero, with the carrier where INIT puts it (41_run_control R77). -/
structure ZeroAmountRun (s : State) : Prop where
  phases : RunPhases s
  amount : scaled s.amount = 0
  start : s.carrierPhase = f64Zero

theorem zeroAmountRun_startRun (hr : s.runState ≠ .running) (hm : checkMask s = 0) (hzero : scaled s.amount = 0) :
    ZeroAmountRun (startRun s) where
  phases := runPhases_startRun hr hm
  amount := by
    obtain ⟨-, hparams⟩ := startRun_keeps s
    rw [hparams.amount, hzero]
  start := by
    rw [startRun_of_accepted hr hm]
    rfl

/-- So the carrier phases of a run are those of R103. -/
theorem carrierPhase_iterate_succ (h : ZeroAmountRun s) (k : Nat) :
    (oscillators^[k + 1] s).carrierPhase = constantCarrierPhase (constantIncrement s) k := by
  have hround (k : Nat) : (oscillators^[k + 1] s).carrierPhase =
      wrap (fadd (oscillators^[k] s).carrierPhase (constantIncrement s)) := by
    obtain ⟨-, hparams, -⟩ := oscillators_iterate_keeps k s
    have hzero : scaled (oscillators^[k] s).amount = 0 := by rw [hparams.amount, h.amount]
    rw [Function.iterate_succ_apply', carrierPhase_oscillators_of_zero_amount (runPhases_iterate h.phases k) hzero,
      constantIncrement_congr hparams]
  induction k with
  | zero => rw [hround, Function.iterate_zero_apply, h.start, constantCarrierPhase]
  | succ k ih => rw [hround, ih, constantCarrierPhase]

/-! ### Another waveform -/

/-- The state with `LFO_WAVEFORM` replaced. -/
def withWaveform (w : Word32) (s : State) : State := { s with lfoWaveform := w }

@[simp] theorem withWaveform_sampleLength (w : Word32) (s : State) :
    (withWaveform w s).sampleLength = s.sampleLength := rfl

theorem legalParams_of_causes (hsr : srZero s = false) (hmix : mixOutOfRange s = false)
    (hamount : amountOutOfRange s = false) (hrate : rateOutOfRange s = false) (hfreq : freqOutOfRange s = false)
    (hwave : waveReserved s = false) : legalParams s := by
  rw [legalParams, checkMask, hsr, hmix, hamount, hrate, hfreq, hwave]
  rfl

/-- The waveform's value is legal at 0 and 1, and the other checks do not look at it (41_run_control R76). -/
theorem legalParams_withWaveform (h : legalParams s) {w : Word32} (hw : w.toNat < 2) :
    legalParams (withWaveform w s) := by
  obtain ⟨hsr, hmix, hamount, hrate, hfreq, -⟩ := causes_of_legalParams h
  have hwave : waveReserved (withWaveform w s) = false :=
    Bool.eq_false_iff.2 fun hres => absurd ((waveReserved_iff _).1 hres) (Nat.not_le.2 hw)
  exact legalParams_of_causes hsr hmix hamount hrate hfreq hwave

/-- START takes the waveform over and, but for the check, does not look at it (41_run_control R75 to R77). -/
theorem exec_start_withWaveform (hr : s.runState ≠ .running) (hm : checkMask s = 0) {w : Word32} (hw : w.toNat < 2) :
    exec .start (withWaveform w s) = .next (withWaveform w (startRun s)) := by
  have hm' : checkMask (withWaveform w s) = 0 := legalParams_withWaveform hm hw
  show Host.Outcome.next (startRun (withWaveform w s)) = _
  rw [startRun_of_accepted hr hm, startRun_of_accepted (s := withWaveform w s) hr hm', recordCheck,
    recordCheck, hm, hm']
  rfl

theorem RunBegun.withWaveform (h : RunBegun s) (w : Word32) : RunBegun (withWaveform w s) :=
  ⟨h.runState, h.ready, h.index, h.out, h.truncated⟩

section Waveform

variable {w : Word32} (h : ZeroAmountRun s) (hw : w.toNat < 2)
include h hw

theorem zeroAmountRun_withWaveform : ZeroAmountRun (withWaveform w s) := by
  obtain ⟨⟨hlfo, hcar, hlegal, hmix, hamount, hinc⟩, hzero, hstart⟩ := h
  exact ⟨⟨hlfo, hcar, legalParams_withWaveform hlegal hw, hmix, hamount, hinc⟩, hzero, hstart⟩

/-- With another waveform the carrier is the same after every STEP. -/
theorem carrierPhase_iterate_withWaveform (k : Nat) :
    (oscillators^[k] (withWaveform w s)).carrierPhase = (oscillators^[k] s).carrierPhase := by
  cases k with
  | zero => rfl
  | succ k => rw [carrierPhase_iterate_succ (zeroAmountRun_withWaveform h hw), carrierPhase_iterate_succ h]; rfl

/-- So is the output. -/
theorem runOutput_withWaveform (input : List (BitVec 32)) :
    runOutput (withWaveform w s) input = runOutput s input := by
  have hresult (i : Nat) (d : BitVec 32) : (computeResult d (oscillators^[i] (withWaveform w s))).tmp.v =
      (computeResult d (oscillators^[i] s)).tmp.v := by
    have hcar := carrierPhase_iterate_withWaveform h hw (i + 1)
    rw [Function.iterate_succ_apply', Function.iterate_succ_apply'] at hcar
    obtain ⟨p, c, m, heq⟩ := oscillators_iterate_eq i s
    obtain ⟨p', c', m', heq'⟩ := oscillators_iterate_eq i (withWaveform w s)
    rw [computeResult_v, computeResult_v, hcar, heq', heq]
    rfl
  simp only [runOutput, hresult, withWaveform_sampleLength]

end Waveform

end Sys2Proof.Machine

namespace Sys2Proof.Proofs

open Sys2Proof Sys2Proof.Machine

/-- Settles O43: the carrier of STEP `i` is that of `i + 1` rounds of the oscillators. -/
theorem fullWetRunWithoutExcursion : Obligations.FullWetRunWithoutExcursion := by
  intro s input hr hm hready hmix hzero
  obtain ⟨t, ht, hend⟩ := processInput_of_accepted hr hm hready input
  have hrun := zeroAmountRun_startRun hr hm hzero
  obtain ⟨hcfg, hparams⟩ := startRun_keeps s
  have hresult (i : Nat) (d : BitVec 32) : (computeResult d (oscillators^[i] (startRun s))).tmp.v =
      f2i s.cfg.sampleBits (fmul (i2f (d.setWidth s.cfg.sampleBits).toInt)
        (fsin (constantCarrierPhase (constantIncrement s) i))) := by
    obtain ⟨-, -, -, hfrac, -⟩ := runPhases_iterate hrun.phases i
    obtain ⟨hcfg', hparams', -⟩ := oscillators_iterate_keeps i (startRun s)
    have hhundred : (oscillators^[i] (startRun s)).mix = 100 := by rw [hparams'.mix, hparams.mix, hmix]
    rw [computeResult_v_of_mix_hundred hhundred hfrac, ← Function.iterate_succ_apply' oscillators,
      carrierPhase_iterate_succ hrun, constantIncrement_congr hparams, sampleOperand, sampleOf, hcfg', hcfg]
  refine ⟨t, ht, ?_⟩
  rw [hend.out, runOutput, startRun_sampleLength]
  simp only [hresult]
  rfl

/-- Settles O44: either run begins as that of `s` itself with the waveform replaced, on which neither the carrier nor the
output depends. -/
theorem zeroAmountIgnoresTheWaveform : Obligations.ZeroAmountIgnoresTheWaveform := by
  intro s input hr hready hzero hm
  have hrun := zeroAmountRun_startRun hr hm hzero
  have hbegun := runBegun_startRun hr hm hready
  have h0 : (0 : Word32).toNat < 2 := by decide
  have h1 : (1 : Word32).toNat < 2 := by decide
  obtain ⟨t1, ht1, hfed⟩ := (hbegun.withWaveform 0).samplesFed input
  obtain ⟨u1, hu1, hfed'⟩ := (hbegun.withWaveform 1).samplesFed input
  obtain ⟨t, ht, hend⟩ := hfed.stepEnd
  obtain ⟨u, hu, hend'⟩ := hfed'.stepEnd
  have hout : runOutput (withWaveform 1 (startRun s)) input = runOutput (withWaveform 0 (startRun s)) input := by
    rw [runOutput_withWaveform hrun h1, runOutput_withWaveform hrun h0]
  have hcar (k : Nat) : (oscillators^[k] (withWaveform 0 (startRun s))).carrierPhase =
      (oscillators^[k] (withWaveform 1 (startRun s))).carrierPhase := by
    rw [carrierPhase_iterate_withWaveform hrun h0, carrierPhase_iterate_withWaveform hrun h1]
  obtain ⟨hout', hindex, hstatus, hcause⟩ := hend.agree hend' rfl hout rfl
  refine ⟨_, _, t1, u1, t, u, exec_start_withWaveform hr hm h0, exec_start_withWaveform hr hm h1, ht1, hu1,
    ?_, ?_, ?_, ?_, ht, hu, hout', ?_, hindex, hstatus, hcause⟩
  · rw [hfed.out, hfed'.out, hout]
  · exact hfed.carrierPhase.trans ((hcar _).trans hfed'.carrierPhase.symm)
  · exact BitVec.eq_of_toNat_eq (hfed.index.trans hfed'.index.symm)
  · exact hfed.runState.trans hfed'.runState.symm
  · exact hend.carrierPhase.trans ((hcar _).trans hend'.carrierPhase.symm)

end Sys2Proof.Proofs
end

