-- ==== Sys2Proof/Proofs/HostProgress.lean ====
section
/-! PROOFS. A machine driven by the host never stops (60_exceptions R108, R122): every step answers a next state and takes
the oldest request off the queue, which no operation of the host touches (log 8). -/

namespace Sys2Proof.Machine

variable {s : State}

/-! ### What a step leaves of the requests -/

/-- No operation of the host adds, drops or reorders requests. -/
theorem HostEffect.pending_eq {i : Instr} {t : State} (h : HostEffect s i t) : t.pending = s.pending := by
  cases h with
  | unchanged | reset | read => rfl
  | start => obtain ⟨-, heq⟩ | ⟨-, -, heq⟩ | ⟨-, -, heq⟩ := startRun_cases s <;> rw [heq]
  | write r d => exact writeParam_pending s r d
  | take d => obtain ⟨p, c, v, -, -, heq⟩ := takeStep_eq d s; rw [heq]
  | endOfInput => obtain ⟨p, c, heq⟩ := endOfInputStep_eq s; rw [heq]

/-- An operation of the host completes in every state (R122) and leaves the requests. -/
theorem exec_hostOp_answers_next {i : Instr} (hi : isHostOp i = true) (s : State) :
    ∃ t, exec i s = .next t ∧ t.pending = s.pending := by
  obtain ⟨t, ht⟩ := exec_answers_next i s
  exact ⟨t, ht, (exec_hostEffect hi ht).pending_eq⟩

theorem engineStep_answers_next (s : State) : ∃ t, engineStep s = .next t ∧ t.pending = s.pending := by
  obtain ⟨-, heq⟩ | ⟨d, -, heq⟩ | ⟨-, heq⟩ := engineStep_cases s <;> rw [heq]
  · exact ⟨s, rfl, rfl⟩
  · exact exec_hostOp_answers_next rfl s
  · exact exec_hostOp_answers_next rfl s

/-- Of the host's words only a sample together with the end is answered by no next state: slots 14 and 15 are not the
host's to select (30_encoding R51). -/
theorem rejectRequest_of_hostRequest {r : Request} {e : DecodeError} (hr : isHostRequest r = true)
    (hd : decode r = .error e) (hoffer : ∀ d b, r ≠ .stream 0b11#2 d b) : rejectRequest e s = .next s := by
  obtain ⟨-, rfl⟩ | ⟨-, rfl⟩ | ⟨⟨d, b, hboth⟩, -⟩ | ⟨⟨slot, w, rfl, -⟩, -⟩ := (decode_eq_error_iff r).1 hd
  · rfl
  · rfl
  · exact absurd hboth (hoffer d b)
  · cases hr

/-! ### The requests of a host-driven machine -/

theorem isHostRequest_of_hostDriven {r : Request} {rest : List Request} (h : hostDriven s = true)
    (hp : s.pending = r :: rest) : isHostRequest r = true :=
  List.all_eq_true.1 h r (hp ▸ List.mem_cons_self)

theorem hostDriven_of_pending_eq_tail {t : State} (h : hostDriven s = true) (ht : t.pending = s.pending.tail) :
    hostDriven t = true := by
  rw [hostDriven, ht]
  exact List.all_eq_true.2 fun r hr => List.all_eq_true.1 h r (List.mem_of_mem_tail hr)

/-- The engine's own move, an operation of the host and a word that selects none each answer a next state. -/
theorem step_answers_next_of_hostDriven (hhost : hostDriven s = true)
    (hoffer : ∀ d b rest, s.pending ≠ .stream 0b11#2 d b :: rest) :
    ∃ t, step s = .next t ∧ t.pending = s.pending.tail := by
  obtain ⟨hp, heq⟩ | ⟨r, rest, i, hp, hd, heq⟩ | ⟨r, rest, e, hp, hd, heq⟩ := step_cases s
  · obtain ⟨t, ht, hpending⟩ := engineStep_answers_next s
    exact ⟨t, heq.trans ht, by rw [hpending, hp, List.tail_nil]⟩
  · have hi := isHostOp_of_decode (isHostRequest_of_hostDriven hhost hp) hd
    obtain ⟨t, ht, hpending⟩ := exec_hostOp_answers_next hi (takeRequest r rest s)
    exact ⟨t, heq.trans ht, by rw [hpending, takeRequest_pending, hp, List.tail_cons]⟩
  · have hne (d b) : r ≠ .stream 0b11#2 d b := fun hr => hoffer d b rest (hr ▸ hp)
    have hr := isHostRequest_of_hostDriven hhost hp
    exact ⟨_, heq.trans (rejectRequest_of_hostRequest hr hd hne), by rw [takeRequest_pending, hp, List.tail_cons]⟩

end Sys2Proof.Machine

namespace Sys2Proof.Proofs

open Sys2Proof Sys2Proof.Machine

/-- Settles O6: a step takes the oldest request at most, and those that remain are the host's still. -/
theorem hostDrivenMachineNeverStops : Obligations.HostDrivenMachineNeverStops := by
  intro s hhost hoffer
  obtain ⟨t, ht, hpending⟩ := step_answers_next_of_hostDriven hhost hoffer
  exact ⟨t, ht, hostDriven_of_pending_eq_tail hhost hpending, hpending⟩

end Sys2Proof.Proofs
end

