-- ==== Sys2Proof/Proofs/StaleOffers.lean ====
section
/-! PROOFS. The offer that stands on the input port when a run starts (70_reset_and_hazards R135): the engine takes it
once no request is left, and a host that keeps its input discipline leaves none (93_implementation_defined row 21;
log 28). -/

namespace Sys2Proof.Machine

variable {s t : State} {r : Request} {rest : List Request} {i : Instr}

/-! ### No stale offer -/

/-- Outside RUNNING neither STEP is enabled (45_step R98). -/
theorem inReady_of_not_running (h : s.runState ≠ .running) : inReady s = false := by
  cases hport : s.inPort with
  | nothing => exact inReady_of_nothing hport
  | sample d => rw [inReady_of_sample hport, takeEnabled_eq_false_iff]; exact fun henabled => h henabled.1
  | endOfInput => rw [inReady_of_endOfInput hport, Bool.eq_false_iff]; exact mt (endEnabled_iff s).1 h

/-- The run state adds nothing: outside RUNNING `in_ready` is low anyway. -/
theorem noStaleOffer_iff (s : State) : NoStaleOffer s ↔ inReady s = false :=
  ⟨fun h => (em (s.runState = .running)).elim h inReady_of_not_running, fun h _ => h⟩

theorem noStaleOffer_of_not_running (h : s.runState ≠ .running) : NoStaleOffer s := fun hr => absurd hr h

theorem noStaleOffer_of_nothing (h : s.inPort = .nothing) : NoStaleOffer s := fun _ => inReady_of_nothing h

/-! ### The taking of a request -/

/-- Only a STREAM word moves the port signals. -/
theorem noStaleOffer_takeRequest (h : NoStaleOffer s) (hr : ∀ sel d b, r ≠ .stream sel d b) :
    NoStaleOffer (takeRequest r rest s) := by
  rw [takeRequest_of_not_stream s rest hr]
  exact h

/-- A STREAM word that selects no operation leaves nothing on the port: 00 offers nothing, and 11 makes no offer. -/
theorem noStaleOffer_takeRequest_of_error {e : DecodeError} (h : NoStaleOffer s) (hd : decode r = .error e) :
    NoStaleOffer (takeRequest r rest s) := by
  obtain ⟨rfl, -⟩ | ⟨⟨d, b, rfl⟩, -⟩ | ⟨⟨d, b, rfl⟩, -⟩ | ⟨⟨slot, w, rfl, -⟩, -⟩ := (decode_eq_error_iff r).1 hd
  · exact noStaleOffer_takeRequest h nofun
  · exact noStaleOffer_of_nothing rfl
  · exact noStaleOffer_of_nothing rfl
  · exact noStaleOffer_takeRequest h nofun

theorem decode_stream_eq_ok {sel : BitVec 2} {d : BitVec 32} {ready : Bool}
    (h : decode (.stream sel d ready) = .ok i) :
    (sel = 0b01#2 ∧ i = .stepEnd) ∨ (sel = 0b10#2 ∧ i = .stepTake d) := by
  have levels (x : BitVec 2) : x = 0b00#2 ∨ x = 0b01#2 ∨ x = 0b10#2 ∨ x = 0b11#2 := by revert x; decide
  rcases levels sel with rfl | rfl | rfl | rfl <;> cases h
  · exact .inl ⟨rfl, rfl⟩
  · exact .inr ⟨rfl, rfl⟩

/-! ### The operations -/

/-- The sample STEP.TAKE answers is consumed, or it waits, and then nothing can take it. -/
theorem noStaleOffer_of_exec_stepTake {d : BitVec 32} (hport : s.inPort = .sample d)
    (h : exec (.stepTake d) s = .next t) : NoStaleOffer t := by
  cases henabled : takeEnabled s with
  | true =>
    cases (exec_stepTake_of_enabled henabled d).symm.trans h
    exact noStaleOffer_of_nothing (endStep_inPort _)
  | false =>
    cases (exec_stepTake_of_not_enabled henabled d).symm.trans h
    exact (noStaleOffer_iff s).2 ((inReady_of_sample hport).trans henabled)

/-- After STEP.END there is no run. -/
theorem noStaleOffer_of_exec_stepEnd (h : exec .stepEnd s = .next t) : NoStaleOffer t := by
  by_cases hr : s.runState = .running
  · cases (exec_stepEnd_of_running hr).symm.trans h
    exact noStaleOffer_of_nothing (endStep_inPort _)
  · cases (exec_stepEnd_of_not_running hr).symm.trans h
    exact noStaleOffer_of_not_running hr

/-- The STEP of a STREAM word answers the offer which that word makes, whatever stood on the port before. -/
theorem noStaleOffer_of_exec_stream {sel : BitVec 2} {d : BitVec 32} {ready : Bool}
    (hd : decode (.stream sel d ready) = .ok i)
    (h : exec i (takeRequest (.stream sel d ready) rest s) = .next t) : NoStaleOffer t := by
  obtain ⟨-, rfl⟩ | ⟨rfl, rfl⟩ := decode_stream_eq_ok hd
  · exact noStaleOffer_of_exec_stepEnd h
  · exact noStaleOffer_of_exec_stepTake rfl h

/-- START alone can turn a standing offer into a stale one, and it does so only when it begins a run. -/
theorem HostEffect.noStaleOffer (h : HostEffect s i t) (hs : NoStaleOffer s)
    (hstart : isStart i = true → s.runState = .running ∨ s.inPort = .nothing) : NoStaleOffer t := by
  cases h with
  | unchanged => exact hs
  | reset => exact noStaleOffer_of_not_running (by simp)
  | start hi =>
    obtain hr | hport := hstart hi
    · rwa [startRun_of_running hr]
    · have hkeeps := ((HostEffect.start (s := s) (i := .start) rfl).keeps_port nofun nofun).1
      exact noStaleOffer_of_nothing (hkeeps.trans hport)
  | write r d hr => exact noStaleOffer_of_not_running (by rwa [writeParam_runState])
  | read => exact hs
  | take d | endOfInput => exact noStaleOffer_of_nothing (endStep_inPort _)

/-! ### The host's input discipline -/

theorem keepsInputDiscipline_iff (hp : s.pending = r :: rest) (hd : decode r = .ok i) :
    keepsInputDiscipline s = true ↔ (isStart i = true → s.runState = .running ∨ s.inPort = .nothing) := by
  unfold keepsInputDiscipline
  rw [hp]
  cases hi : isStart i <;> simp [hd, hi]

/-- A request that selects an operation: a STREAM word by the offer it makes, every other word by its effect. -/
theorem noStaleOffer_of_exec_request (hp : s.pending = r :: rest) (hr : isHostRequest r = true)
    (hd : decode r = .ok i) (hdisc : keepsInputDiscipline s = true) (hs : NoStaleOffer s)
    (h : exec i (takeRequest r rest s) = .next t) : NoStaleOffer t := by
  by_cases hstream : ∃ sel d b, r = .stream sel d b
  · obtain ⟨sel, d, b, rfl⟩ := hstream
    exact noStaleOffer_of_exec_stream hd h
  · have hne (sel d b) : r ≠ .stream sel d b := fun heq => hstream ⟨sel, d, b, heq⟩
    refine (exec_hostEffect (isHostOp_of_decode hr hd) h).noStaleOffer (noStaleOffer_takeRequest hs hne) ?_
    rw [takeRequest_of_not_stream s rest hne]
    exact (keepsInputDiscipline_iff hp hd).1 hdisc

theorem step_eq_of_noStaleOffer (hs : NoStaleOffer s) (hp : s.pending = []) : step s = .next s := by
  rw [step_of_no_request hp, engineStep_waits ((noStaleOffer_iff s).1 hs)]

/-! ### A START with an offer on the port -/

/-- A START accepted as the one request leaves the port as it is, and no request stands before the engine's turn. -/
theorem step_of_accepted_start (hp : s.pending = [.cmd 1]) (hr : s.runState ≠ .running) (hm : checkMask s = 0)
    (hlen : s.sampleLength ≠ 0) :
    ∃ t, step s = .next t ∧ t.runState = .running ∧ t.inPort = s.inPort ∧ t.outReady = s.outReady ∧
      t.pending = [] ∧ t.out = [] ∧ t.received = s.received ∧ t.index = 0 := by
  refine ⟨startRun { s with pending := [] }, step_of_decode_ok hp rfl, ?_⟩
  rw [startRun_of_accepted (s := { s with pending := [] }) hr hm, if_neg hlen]
  exact ⟨rfl, rfl, rfl, rfl, rfl, rfl, rfl⟩

/-- The engine by itself takes a standing sample when the host can accept the result. -/
theorem step_takes_standing_sample {d : BitVec 32} (hp : s.pending = []) (hport : s.inPort = .sample d)
    (henabled : takeEnabled s = true) :
    ∃ t v, step s = .next t ∧ t.out = s.out ++ [v] ∧ t.received = s.received ++ [v] ∧ t.index = s.index + 1 ∧
      t.inPort = .nothing := by
  have htake : step s = exec (.stepTake d) s := by rw [step_of_no_request hp, engineStep, hport]; rfl
  obtain ⟨p, c, v, -, -, heq⟩ := takeStep_eq d s
  rw [htake, exec_stepTake_of_enabled henabled, heq]
  exact ⟨_, v, rfl, rfl, rfl, rfl, rfl⟩

/-- The engine by itself ends a run on a standing end. -/
theorem step_takes_standing_end (hp : s.pending = []) (hport : s.inPort = .endOfInput) (hr : s.runState = .running) :
    ∃ t, step s = .next t ∧ t.runState = .done ∧ t.truncated = true ∧ t.out = s.out := by
  have hend : step s = exec .stepEnd s := by rw [step_of_no_request hp, engineStep, hport]; rfl
  obtain ⟨p, c, heq⟩ := endOfInputStep_eq s
  rw [hend, exec_stepEnd_of_running hr, heq]
  exact ⟨_, rfl, rfl, rfl, rfl⟩

end Sys2Proof.Machine

namespace Sys2Proof.Proofs

open Sys2Proof Sys2Proof.Machine

/-- Settles O48: by `inReady` the engine waits; a request that selects an operation keeps the invariant under the host's
discipline, and one that selects none leaves nothing new on the port. -/
theorem disciplinedHostLeavesNoStaleOffer : Obligations.DisciplinedHostLeavesNoStaleOffer := by
  refine ⟨fun s t hhost hdisc hs hstep => ?_, fun s => step_eq_of_noStaleOffer⟩
  obtain ⟨hp, -⟩ | ⟨r, rest, i, hp, hd, heq⟩ | ⟨r, rest, e, -, hd, heq⟩ := step_cases s
  · cases (step_eq_of_noStaleOffer hs hp).symm.trans hstep
    exact hs
  · exact noStaleOffer_of_exec_request hp (isHostRequest_of_hostDriven hhost hp) hd hdisc hs (heq.symm.trans hstep)
  · rw [eq_of_rejectRequest (heq.symm.trans hstep)]
    exact noStaleOffer_takeRequest_of_error hs hd

/-- Settles O20: START leaves the offer on the port of an empty run, and the engine's own step takes it. -/
theorem staleOfferIsPendingInTheNextRun : Obligations.StaleOfferIsPendingInTheNextRun := by
  intro s hp hr hm hlen
  obtain ⟨t, hstep, hrun, hport, hready, hpending, hout, hreceived, hindex⟩ := step_of_accepted_start hp hr hm hlen
  refine ⟨fun d hsample hcan => ?_, fun hend => ?_⟩
  · have henabled := (takeEnabled_iff t).2 ⟨hrun, hready.trans hcan⟩
    obtain ⟨u, v, htake, hout', hreceived', hindex', hport'⟩ :=
      step_takes_standing_sample hpending (hport.trans hsample) henabled
    exact ⟨t, u, v, hstep, hrun, hport.trans hsample, htake, by rw [hout', hout]; rfl, by rw [hreceived', hreceived],
      by rw [hindex', hindex]; rfl, hport'⟩
  · obtain ⟨u, htake, hdone, htrunc, hout'⟩ := step_takes_standing_end hpending (hport.trans hend) hrun
    exact ⟨t, u, hstep, hrun, hport.trans hend, htake, hdone, htrunc, hout'.trans hout⟩

end Sys2Proof.Proofs
end

