-- ==== Sys2Proof/Proofs/ResetState.lean ====
section
/-! PROOFS. The state after reset: its values (70_reset_and_hazards R124), and the invariants of a run, which begin
there. -/

namespace Sys2Proof.Machine

theorem runBooks_reset : RunBooks State.reset := by
  simp [RunBooks, State.reset]

theorem phaseBounds_reset : PhaseBounds State.reset :=
  (phaseBounds_of_not_running (by decide)).2 ⟨inPhase_zero, inPhase_zero⟩

end Sys2Proof.Machine

namespace Sys2Proof.Proofs

open Sys2Proof Sys2Proof.Machine

/-- Settles O7: each value is the one `State.reset` is written with, and the words made of them compute to 0. -/
theorem resetStateHasTheGivenValues : Obligations.ResetStateHasTheGivenValues := by
  unfold Obligations.ResetStateHasTheGivenValues
  decide

/-- Settles O49: nothing has run, nothing is presented and nothing is asked. -/
theorem invariantsHoldAtReset : Obligations.InvariantsHoldAtReset :=
  ⟨runBooks_reset, phaseBounds_reset, noStaleOffer_of_nothing rfl, rfl⟩

end Sys2Proof.Proofs
end
